-- ==== Sys2Proof/Word.lean ====
section
/-! DEFINITION. The register word and the buffer byte (R6: registers are 32 bits wide, symbols 8). -/

namespace Sys2Proof

/-- A value of CMD, STATUS, IN_LEN or OUT_LEN, and of the 32-bit internal registers (R6, R27, R29). -/
abbrev Word := BitVec 32

/-- One symbol, one entry of IN_BUF, OUT_BUF or a read-only table (R6, R30 to R34). -/
abbrev Byte := BitVec 8

end Sys2Proof
end

