-- ==== Sys2Proof/Config.lean ====
section
/-! DEFINITION. What an implementation of the CORE fixes (R6), and the free value behind every draw (R61). -/

namespace Sys2Proof

/-- The implementation parameters of R6, as raw data; `Config` (WellFormed.lean) is the well-formed ones. -/
structure Params where
  /-- `IN_CAP`, the size of IN_BUF in bytes. -/
  inCap : Nat
  /-- `OUT_CAP`, the size of OUT_BUF in bytes. -/
  outCap : Nat
  /-- `B91_ALPHABET`, the contents of B91_ENC_ROM: entry `k` is the symbol of value `k` (R31, R118). -/
  alphabet : List Byte
  /-- `HEX_WS_SET`, the codes hex decode counts as whitespace (R103). -/
  whitespace : List Byte
  /-- `N_INST`, the number of independent instances (R60). -/
  nInst : Nat
  deriving DecidableEq, Repr

/-- The free value of the model: the byte that the `n`-th draw of CORE number `k` of the system returns
(R55, R61, R158). It has no body, so nothing can be proved of any of its values, nor of the values of two
different draws or of two COREs: a claim holds for every draw. -/
opaque Config.freeByte : (k n : Nat) → Byte

end Sys2Proof
end

