-- ==== Sys2Proof/Syntax.lean ====
section
/-! DEFINITION. The instructions: the five legal command words of R67, one constructor per row of
spec/opcode_table.json. No command word carries an operand field (R69); UPPER is part of the word. -/

namespace Sys2Proof

/-- A legal command (R67, R70). Its operands are IN_LEN and IN_BUF, for every command (R69). -/
inductive Instr where
  /-- HEXENC.U: hex encode with the upper-case alphabet (R95). -/
  | hexencU
  /-- HEXENC.L: hex encode with the lower-case alphabet (R96). -/
  | hexencL
  /-- HEXDEC: hex decode (R107). -/
  | hexdec
  /-- B91ENC: base91 encode (R123). -/
  | b91enc
  /-- B91DEC: base91 decode (R131). -/
  | b91dec
  deriving DecidableEq, Repr

end Sys2Proof
end

