-- ==== Sys2Proof/WellFormed.lean ====
section
/-! DEFINITION. Well-formed configurations (R6, R103, D4), instructions (R69) and command words (R66). -/

namespace Sys2Proof

/-- The codes of HEX_LUT_U and HEX_LUT_L, which HEX_WS_SET must not include (R103). -/
def isHexCode (c : Byte) : Bool :=
  (0x30 ≤ c.toNat && c.toNat ≤ 0x39) || (0x41 ≤ c.toNat && c.toNat ≤ 0x46) ||
    (0x61 ≤ c.toNat && c.toNat ≤ 0x66)

/-- `IN_CAP` is positive and below 2^32, and `OUT_CAP >= 2 * IN_CAP` (R6). -/
def Params.capacitiesOk (p : Params) : Bool :=
  decide (0 < p.inCap) && decide (p.inCap < 2 ^ 32) && decide (2 * p.inCap ≤ p.outCap)

/-- `B91_ALPHABET` has 91 pairwise distinct entries (R6). -/
def Params.alphabetOk (p : Params) : Bool :=
  decide (p.alphabet.length = 91) && decide p.alphabet.Nodup

/-- `HEX_WS_SET` contains 0x20 (decision D4, which R6 and R103 follow; log entry 4) and includes no hex
symbol (R103). -/
def Params.whitespaceOk (p : Params) : Bool :=
  p.whitespace.contains 0x20 && p.whitespace.all fun c => !isHexCode c

/-- There is at least one instance (R6). -/
def Params.instancesOk (p : Params) : Bool :=
  decide (1 ≤ p.nInst)

/-- A well-formed configuration (R6, R103, D4). -/
def Params.wf (p : Params) : Bool :=
  p.capacitiesOk && p.alphabetOk && p.whitespaceOk && p.instancesOk

/-- The configurations a machine can have: parameters together with the proof that they are well
formed, so that no machine has an ill-formed one (R6, R162; `State.boot` refuses the rest by name). -/
structure Config extends Params where
  ok : toParams.wf = true
  deriving DecidableEq, Repr

/-- Every instruction is well formed: a command has no operand that could be out of range (R69). -/
def Instr.wellFormed (i : Instr) : Bool :=
  match i with
  | .hexencU => true
  | .hexencL => true
  | .hexdec => true
  | .b91enc => true
  | .b91dec => true

end Sys2Proof
end

