-- ==== Sys2Proof/Machine/Tables.lean ====
section
/-! DEFINITION. The read-only tables (R30 to R32, R93, R118, R127) and the spec's default parameters
(R103, R119). -/

namespace Sys2Proof.Machine

/-- HEX_LUT_U (R93). -/
def hexLutU : Vector Byte 16 :=
  #v[0x30, 0x31, 0x32, 0x33, 0x34, 0x35, 0x36, 0x37, 0x38, 0x39, 0x41, 0x42, 0x43, 0x44, 0x45, 0x46]

/-- HEX_LUT_L (R93). -/
def hexLutL : Vector Byte 16 :=
  #v[0x30, 0x31, 0x32, 0x33, 0x34, 0x35, 0x36, 0x37, 0x38, 0x39, 0x61, 0x62, 0x63, 0x64, 0x65, 0x66]

/-- The symbol of a nibble in the upper-case (`upper`) or lower-case table (R94). -/
def hexLut (upper : Bool) (nibble : BitVec 4) : Byte :=
  (if upper then hexLutU else hexLutL)[nibble.toNat]'nibble.isLt

/-- B91_DEC_ROM (R127): VALID in bit 7 and VALUE in bits 6:0 (R72); `0x00` for an unknown symbol. -/
def decRom (p : Params) (symbol : Byte) : Byte :=
  match p.alphabet.findIdx? (· == symbol) with
  | some k => 0x80 ||| BitVec.ofNat 8 k
  | none => 0x00

/-- VALID, bit 7 of a B91_DEC_ROM entry (R72). -/
def entryValid (entry : Byte) : Bool := entry.getLsbD 7

/-- VALUE, bits 6:0 of a B91_DEC_ROM entry (R72). -/
def entryValue (entry : Byte) : BitVec 7 := entry.extractLsb' 0 7

/-- The default B91_ALPHABET (R119), PRESUMED: the spec takes it from general knowledge (log entry 3). -/
def defaultAlphabet : List Byte :=
  [0x41, 0x42, 0x43, 0x44, 0x45, 0x46, 0x47, 0x48, 0x49, 0x4a,
   0x4b, 0x4c, 0x4d, 0x4e, 0x4f, 0x50, 0x51, 0x52, 0x53, 0x54,
   0x55, 0x56, 0x57, 0x58, 0x59, 0x5a, 0x61, 0x62, 0x63, 0x64,
   0x65, 0x66, 0x67, 0x68, 0x69, 0x6a, 0x6b, 0x6c, 0x6d, 0x6e,
   0x6f, 0x70, 0x71, 0x72, 0x73, 0x74, 0x75, 0x76, 0x77, 0x78] ++
  [0x79, 0x7a, 0x30, 0x31, 0x32, 0x33, 0x34, 0x35, 0x36, 0x37,
   0x38, 0x39, 0x21, 0x23, 0x24, 0x25, 0x26, 0x28, 0x29, 0x2a,
   0x2b, 0x2c, 0x2e, 0x2f, 0x3a, 0x3b, 0x3c, 0x3d, 0x3e, 0x3f,
   0x40, 0x5b, 0x5d, 0x5e, 0x5f, 0x60, 0x7b, 0x7c, 0x7d, 0x7e,
   0x22]

/-- The default HEX_WS_SET (R103), PRESUMED: the spec takes it from general knowledge (log entry 3). -/
def defaultWhitespace : List Byte :=
  [0x09, 0x0a, 0x0b, 0x0c, 0x0d, 0x20, 0x85, 0xa0]

/-- The parameters of the machine that `State.reset` is: DESIGN CHOICE (log entry 2), the conventions of
the spec's own test vectors (95: `IN_CAP = 64`, `OUT_CAP = 128`, `N_INST = 1` and the defaults). -/
def standardParams : Params :=
  { inCap := 64, outCap := 128, alphabet := defaultAlphabet, whitespace := defaultWhitespace, nInst := 1 }

/-- `standardParams` is well formed, so it is a configuration. -/
def standardConfig : Config := ⟨standardParams, by decide +kernel⟩

end Sys2Proof.Machine
end

