-- ==== Sys2Proof/Machine/State.lean ====
section
/-! DEFINITION. The machine's state as plain data (R15 to R36), its reset value (R158), the host's
operations (R73, R75, R92), and the reasons a step can stop. -/

namespace Sys2Proof.Machine

/-- STATE, the sequencer state (R26). The ten values of R71; its codes 10 to 15 are never entered and
have no constructor. -/
inductive Seq where
  | idle | heByte | hdTrim | hdPair | beConsume | beGroup | beTail | bdSymbol | bdFlush | bdTail
  deriving DecidableEq, Repr

/-- The error codes that a command can finish with (R23); the reserved codes 5 to 7 are never written
and have no constructor. -/
inductive ErrCode where
  | ok | invalidArgument | invalidLength | illegalCommand | capacity
  deriving DecidableEq, Repr

/-- The reasons a host protocol violation is recorded under (R147). -/
inductive HostFault where
  | writeWhileBusy | badAddress | badData
  deriving DecidableEq, Repr

/-- HOSTFAULT (R35): the set of reasons recorded so far, one membership bit per reason. -/
structure FaultSet where
  writeWhileBusy : Bool
  badAddress : Bool
  badData : Bool
  deriving DecidableEq, Repr

/-- The SP field of a transaction (R73). -/
inductive Space where
  | reg | inBuf | outBuf | reserved
  deriving DecidableEq, Repr

/-- A host transaction (R73): SP, RW (`write` is RW = 1), ADDR and DATA. -/
structure Transaction where
  sp : Space
  write : Bool
  addr : BitVec 32
  data : BitVec 32
  deriving DecidableEq, Repr

/-- What the host can do next (R92): a transaction, the reset input (R158), and the two
pseudo-instructions that depend on what a read returned (R75). -/
inductive HostOp where
  | tx (t : Transaction)
  | reset
  | poll
  | readout
  deriving DecidableEq, Repr

/-- The two agents (R13). -/
inductive Agent where
  | core | host
  deriving DecidableEq, Repr

/-- A buffer's contents: the bytes written since reset, by address. An address that is not listed has
not been written since reset, so a read of it is a draw (R61, R89). -/
abbrev Memory := List Host.Cell

/-- The state of one CORE instance and of the host that drives it (R36). -/
structure State where
  /-- The configuration, which no step changes (R6, R162). -/
  cfg : Config
  /-- CMD, the last command word written (R19). -/
  cmd : BitVec 32
  /-- STATUS (R20). -/
  status : BitVec 32
  /-- IN_LEN, the length of the input frame (R24). -/
  inLen : BitVec 32
  /-- OUT_LEN, the length of the output frame (R25). -/
  outLen : BitVec 32
  /-- STATE, which step the CORE performs next (R26). -/
  seq : Seq
  /-- I, the index of the next input byte (R27). -/
  i : BitVec 32
  /-- O, the index of the next output byte (R27). -/
  o : BitVec 32
  /-- TRIM_E, the end of the trimmed hex-decode frame (R27). -/
  trimE : BitVec 32
  /-- PV, the base91 decoder's pending value (R28). -/
  pv : BitVec 7
  /-- PV_VALID; false is the document's sentinel (R28). -/
  pvValid : Bool
  /-- ACC_B, the bits of the base91 accumulator (R29). -/
  accB : BitVec 32
  /-- ACC_N, how many bits the accumulator holds (R29). -/
  accN : BitVec 5
  /-- IN_BUF (R33). -/
  inBuf : Memory
  /-- OUT_BUF (R34). -/
  outBuf : Memory
  /-- HOSTFAULT (R35). -/
  hostFault : FaultSet
  /-- The model's own: which of the system's COREs this is, so that no two of them share a draw (R61, R155). -/
  instIndex : Nat
  /-- The model's own: how many draws have been taken, so that each draw is a fresh one (R61). -/
  draws : Nat
  /-- The model's own: what the host's latest read returned; none if it faulted (R146) or none was made. -/
  rdata : Option (BitVec 32)
  /-- The model's own: the host's remaining operations, in program order (R51). -/
  host : List HostOp
  /-- The model's own: which agent moves at each of the next steps. When it is used up, the CORE moves
  while it is busy and the host otherwise (R167). -/
  turns : List Agent
  deriving DecidableEq, Repr

/-- Why a CORE step has no next state. No step of the CORE faults (R136, R144): these three are raised
only in states that no run reaches (Safety.lean, `State.Inv`), where the spec gives no effect. -/
inductive Fault where
  /-- A CORE step reads IN_BUF at an address >= IN_CAP, which does not exist (R37). Raised by `withIn`. Safe. -/
  | inBufAddress
  /-- A CORE step writes OUT_BUF at an address >= OUT_CAP, which does not exist (R37). Raised by `writeOut`. Safe. -/
  | outBufAddress
  /-- A CORE step reads B91_ENC_ROM at an index above 90, which does not exist (R31). Raised by `withRom`. Safe. -/
  | romIndex
  deriving DecidableEq, Repr

/-- What the model gives no meaning. -/
inductive Refusal where
  /-- An instruction without a meaning yet. Raised by exec's arms only. Safe. -/
  | notModelled (mnemonic : String)
  /-- A configuration that is not well formed (R6, R162; 93 item 6). Raised by `State.boot`. Safe. -/
  | illFormedConfig
  deriving DecidableEq, Repr

/-- The reset state (R158, R162) of a machine with a given configuration, with nothing asked of the host
yet. The model's own fields start at DESIGN CHOICE values (log entries 5, 6, 7
and 27). -/
def State.resetWith (cfg : Config) : State :=
  { cfg := cfg, cmd := 0, status := 0, inLen := 0, outLen := 0, seq := .idle, i := 0, o := 0, trimE := 0,
    pv := 0, pvValid := false, accB := 0, accN := 0, inBuf := [], outBuf := [],
    hostFault := { writeWhileBusy := false, badAddress := false, badData := false },
    instIndex := 0, draws := 0, rdata := none, host := [], turns := [] }

/-- The machine right after reset (R158), with the parameters of log entry 2. -/
def State.reset : State := State.resetWith standardConfig

end Sys2Proof.Machine
end

