-- ==== Sys2Proof/Machine/Flags.lean ====
section
/-! DEFINITION. The flags: the fields of STATUS (R20 to R23), the codes of ERR (R23) and of STATE (R71).
Only the start step and the finish step write them (R16). -/

namespace Sys2Proof.Machine

/-- The value of ERR for each error (R23). -/
def ErrCode.code (e : ErrCode) : BitVec 3 :=
  match e with
  | .ok => 0
  | .invalidArgument => 1
  | .invalidLength => 2
  | .illegalCommand => 3
  | .capacity => 4

/-- STATUS while a command runs: BUSY = 1, DONE = 0, ERR = OK (R79). -/
def busyStatus : Word := 0x00000001

/-- STATUS once a command has finished with `e`: the concatenation of R81, with ERR = e, DONE = 1, BUSY = 0. -/
def doneStatus (e : ErrCode) : Word :=
  (0 : BitVec 25) ++ e.code ++ (0 : BitVec 2) ++ (1 : BitVec 1) ++ (0 : BitVec 1)

/-- STATUS.BUSY (R21). -/
def statusBusy (w : Word) : Bool := w.getLsbD 0

/-- STATUS.DONE (R22). -/
def statusDone (w : Word) : Bool := w.getLsbD 1

/-- STATUS.ERR (R23). -/
def statusErr (w : Word) : BitVec 3 := w.extractLsb' 4 3

/-- BUSY of a state (R21). -/
def State.busy (s : State) : Bool := statusBusy s.status

/-- The 4-bit encoding of STATE (R71). -/
def Seq.code (q : Seq) : BitVec 4 :=
  match q with
  | .idle => 0
  | .heByte => 1
  | .hdTrim => 2
  | .hdPair => 3
  | .beConsume => 4
  | .beGroup => 5
  | .beTail => 6
  | .bdSymbol => 7
  | .bdFlush => 8
  | .bdTail => 9

/-- The 2-bit encoding of a transaction's SP field (R73). -/
def Space.code (sp : Space) : BitVec 2 :=
  match sp with
  | .reg => 0
  | .inBuf => 1
  | .outBuf => 2
  | .reserved => 3

/-- The space that an SP field names (R73). -/
def Space.ofCode (c : BitVec 2) : Space :=
  if c = 0 then .reg else if c = 1 then .inBuf else if c = 2 then .outBuf else .reserved

end Sys2Proof.Machine
end

