-- ==== Sys2Proof/Machine/Ops.lean ====
section
/-! DEFINITION. The operations every command and transaction shares: buffer memory, draws, the CORE's
accesses to its buffers and ROM, host faults, starting and finishing a command, and reset. -/

namespace Sys2Proof.Machine

/-! ## Buffer memory -/

/-- The byte written at `a` since reset, if one was (R39, R61). -/
def Memory.read : Memory → Nat → Option Byte
  | [], _ => none
  | (b, v) :: m, a => if b = a then some v else Memory.read m a

/-- The contents after writing `v` at `a`: the entry at `a` is replaced, or inserted in address order. -/
def Memory.write : Memory → Nat → Byte → Memory
  | [], a, v => [(a, v)]
  | (b, w) :: m, a, v =>
    if a < b then (a, v) :: (b, w) :: m
    else if b = a then (a, v) :: m
    else (b, w) :: Memory.write m a v

/-- The canonical form: addresses strictly rise, and all lie below the buffer's capacity. An unlisted
address holds no value, so no entry can repeat what an unlisted address reads as. -/
def Memory.wf (cap : Nat) (m : Memory) : Bool :=
  decide (m.Pairwise fun x y => x.1 < y.1) && m.all fun c => decide (c.1 < cap)

/-! ## Draws and the CORE's accesses -/

/-- A draw: this CORE's next free byte, and the state in which it has been taken (R61). That a draw is
numbered by its CORE and a counter is the model's form of it (log entries 5 and 27). -/
def State.draw (s : State) : Byte × State :=
  (Config.freeByte s.instIndex s.draws, { s with draws := s.draws + 1 })

/-- The byte a read of a buffer returns: the byte written there, or a fresh draw (R61, R89). -/
def State.byteOr (stored : Option Byte) (s : State) : Byte × State :=
  match stored with
  | some b => (b, s)
  | none => s.draw

/-- What a CORE step, or a part of one, answers. -/
abbrev Answer := Host.Outcome State Fault Refusal

/-- One part of a CORE step after another. -/
def andThen (r : Answer) (f : State → Answer) : Answer :=
  match r with
  | .next s => f s
  | .fault e => .fault e
  | .refused e => .refused e

/-- `IN[k]` (R10): a CORE read of IN_BUF, passed on to the rest of the step. -/
def withIn (k : Nat) (s : State) (f : Byte → State → Answer) : Answer :=
  if k < s.cfg.inCap then
    f (s.byteOr (s.inBuf.read k)).1 (s.byteOr (s.inBuf.read k)).2
  else .fault .inBufAddress

/-- `OUT[k] <- v` (R10): a CORE write to OUT_BUF. -/
def writeOut (k : Nat) (v : Byte) (s : State) : Answer :=
  if k < s.cfg.outCap then .next { s with outBuf := s.outBuf.write k v }
  else .fault .outBufAddress

/-- `B91_ENC_ROM[k]` (R31, R118), passed on to the rest of the step. -/
def withRom (k : Nat) (s : State) (f : Byte → Answer) : Answer :=
  match s.cfg.alphabet[k]? with
  | some b => f b
  | none => .fault .romIndex

/-! ## Host faults -/

/-- Membership of a reason in HOSTFAULT (R35). -/
def FaultSet.has (h : FaultSet) (r : HostFault) : Bool :=
  match r with
  | .writeWhileBusy => h.writeWhileBusy
  | .badAddress => h.badAddress
  | .badData => h.badData

/-- HOSTFAULT with one more reason; nothing removes a reason (R35). -/
def FaultSet.add (h : FaultSet) (r : HostFault) : FaultSet :=
  match r with
  | .writeWhileBusy => { h with writeWhileBusy := true }
  | .badAddress => { h with badAddress := true }
  | .badData => { h with badData := true }

/-- No reason recorded. -/
def FaultSet.empty : FaultSet := { writeWhileBusy := false, badAddress := false, badData := false }

/-- `raise HostFault(r)` (R146): the reason is recorded and the transaction has no other effect. -/
def raiseHostFault (r : HostFault) (s : State) : State :=
  { s with hostFault := s.hostFault.add r }

/-! ## Starting and finishing a command -/

/-- start_clear (R79). -/
def startClear (w : Word) (s : State) : State :=
  { s with
    cmd := w, status := busyStatus, outLen := 0, i := 0, o := 0, trimE := 0,
    accB := 0, accN := 0, pv := 0, pvValid := false }

/-- finish(e) (R81), which is also the entry of the CORE's only trap, a command error (R149): STATUS
records `e`, OUT_LEN is the output count or 0, and STATE becomes IDLE. -/
def finish (e : ErrCode) (s : State) : State :=
  { s with
    status := doneStatus e
    outLen := if e = .ok then s.o else 0
    seq := .idle }

/-- The start step of a legal command word, atomic with its CMD write (R77 to R80): refused while busy
(R78); otherwise the command state is cleared, a frame longer than IN_BUF finishes with CAPACITY, and
any other goes on as `dispatch` says. -/
def startCommand (w : Word) (dispatch : State → State) (s : State) : State :=
  if s.busy then raiseHostFault .writeWhileBusy s
  else if s.cfg.inCap < s.inLen.toNat then finish .capacity (startClear w s)
  else dispatch (startClear w s)

/-- The start step of an illegal command word (R68, R78, R80, R139). -/
def startIllegal (w : Word) (s : State) : State :=
  if s.busy then raiseHostFault .writeWhileBusy s
  else finish .illegalCommand (startClear w s)

/-! ## Reset -/

/-- The reset input (R158). It clears every register and leaves every buffer byte unwritten; it does not
clear HOSTFAULT, and the host, its schedule and the counter of draws are outside the CORE. -/
def resetInput (s : State) : State :=
  { s with
    cmd := 0, status := 0, inLen := 0, outLen := 0, seq := .idle, i := 0, o := 0, trimE := 0,
    pv := 0, pvValid := false, accB := 0, accN := 0, inBuf := [], outBuf := [] }

/-- Every run starts in the reset state of a well-formed configuration; any other is refused (R162). -/
def State.boot (p : Params) : Answer :=
  if h : p.wf = true then .next (State.resetWith ⟨p, h⟩) else .refused .illFormedConfig

end Sys2Proof.Machine
end

