-- ==== Sys2Proof/Machine/Accumulator.lean ====
section
/-! DEFINITION. The base91 bit accumulator's operations on ACC_B and ACC_N (R111 to R114). Values are
computed exactly and then narrowed to the registers' widths (R9). -/

namespace Sys2Proof.Machine

/-- PUSH(x, w) (R111). -/
def push (x w : Nat) (s : State) : State :=
  { s with
    accB := BitVec.ofNat 32 (s.accB.toNat ||| (x <<< s.accN.toNat))
    accN := BitVec.ofNat 5 (s.accN.toNat + w) }

/-- The low `k` bits of a value (R112). -/
def lowBits (k x : Nat) : Nat := x &&& (2 ^ k - 1)

/-- LOW(k) (R112). -/
def low (k : Nat) (s : State) : Nat := lowBits k s.accB.toNat

/-- POP(w) (R113); every caller has `w <= ACC_N`. -/
def pop (w : Nat) (s : State) : State :=
  { s with
    accB := BitVec.ofNat 32 (s.accB.toNat >>> w)
    accN := BitVec.ofNat 5 (s.accN.toNat - w) }

/-- GSEL(x), the width of the group whose value or low bits are `x` (R114). -/
def gsel (x : Nat) : Nat := if lowBits 13 x > 88 then 13 else 14

end Sys2Proof.Machine
end

