-- ==== Sys2Proof/Decode.lean ====
section
/-! DEFINITION. The command word's fields, its decoder, total on every 32-bit word, and its encoder
(R63 to R70). -/

namespace Sys2Proof

/-- OP, bits 2:0 of a command word (R63). -/
def opField (w : Word) : BitVec 3 := w.extractLsb' 0 3

/-- UPPER, bit 3 of a command word (R63, R65). -/
def upperField (w : Word) : Bool := w.getLsbD 3

/-- RSV, bits 31:4 of a command word (R63, R66). -/
def rsvField (w : Word) : BitVec 28 := w.extractLsb' 4 28

/-- Why a command word is illegal: the three classes of R68. -/
inductive Illegal where
  /-- Some RSV bit is set. -/
  | reservedBits
  /-- OP is 000, 101, 110 or 111. -/
  | reservedOp
  /-- UPPER is 1 and OP is not 001. -/
  | upperWithoutHexenc
  deriving DecidableEq, Repr

/-- What a command word says (R70). -/
inductive Decoded where
  | legal (i : Instr)
  | illegal (why : Illegal)
  deriving DecidableEq, Repr

/-- The decoder of R70, by the fields of R63 to R66. -/
def decode (w : Word) : Decoded :=
  if rsvField w ≠ 0 then .illegal .reservedBits
  else if opField w = 1 then
    if upperField w then .legal .hexencU else .legal .hexencL
  else if opField w = 2 then
    if upperField w then .illegal .upperWithoutHexenc else .legal .hexdec
  else if opField w = 3 then
    if upperField w then .illegal .upperWithoutHexenc else .legal .b91enc
  else if opField w = 4 then
    if upperField w then .illegal .upperWithoutHexenc else .legal .b91dec
  else .illegal .reservedOp

/-- The OP value of each command (R64). -/
def Instr.op (i : Instr) : BitVec 3 :=
  match i with
  | .hexencU => 1
  | .hexencL => 1
  | .hexdec => 2
  | .b91enc => 3
  | .b91dec => 4

/-- The UPPER bit of each command (R65). -/
def Instr.upper (i : Instr) : BitVec 1 :=
  match i with
  | .hexencU => 1
  | .hexencL => 0
  | .hexdec => 0
  | .b91enc => 0
  | .b91dec => 0

/-- The word of a command: RSV, UPPER and OP side by side (R63, R66). -/
def encode (i : Instr) : Word := (0 : BitVec 28) ++ i.upper ++ i.op

/-- The instruction the decoder reads from a table row's bits: one 32-bit word, which reaches the CORE
as the DATA of a CMD write (R63, R73). A row of more than 32 bits is no command word. -/
def decodeTableWord (nbits w : Nat) : Option Instr :=
  if nbits ≤ 32 then
    match decode (BitVec.ofNat 32 (w % 2 ^ nbits)) with
    | .legal i => some i
    | .illegal _ => none
  else none

end Sys2Proof
end

