-- ==== Sys2Proof/Machine/Operands.lean ====
section
/-! DEFINITION. The operand forms: the implicit operands that every command has (R69), as the step rules
name them. Results are OUT_BUF (`writeOut`) and STATUS.ERR (`finish`). -/

namespace Sys2Proof.Machine

/-- CMD.UPPER of the running command (R19, R94). -/
def State.upper (s : State) : Bool := upperField s.cmd

/-- The guard of every step that consumes input, `I < IN_LEN` (R94, R120, R128). -/
def State.moreInput (s : State) : Bool := decide (s.i.toNat < s.inLen.toNat)

/-- The operand `IN[I]` (R94, R106, R120, R128). -/
def withInput (s : State) (f : Byte → State → Answer) : Answer := withIn s.i.toNat s f

/-- The operand `IN[I + 1]` (R106). -/
def withNextInput (s : State) (f : Byte → State → Answer) : Answer := withIn (s.i.toNat + 1) s f

/-- `OUT[O] <- v; O <- O + 1` (R106, R122, R129, R130). -/
def emit (v : Byte) (s : State) : Answer :=
  andThen (writeOut s.o.toNat v s) fun t => .next { t with o := t.o + 1 }

/-- `OUT[O] <- v; OUT[O + 1] <- w; O <- O + 2` (R94, R121). -/
def emitPair (v w : Byte) (s : State) : Answer :=
  andThen (writeOut s.o.toNat v s) fun t =>
    andThen (writeOut (t.o.toNat + 1) w t) fun u => .next { u with o := u.o + 2 }

end Sys2Proof.Machine
end

