-- ==== Sys2Proof/Machine/Base91Decoder.lean ====
section
/-! DEFINITION. The base91_decode_fsm unit: steps BD_SYMBOL (R128), BD_FLUSH (R129) and BD_TAIL (R130),
command B91DEC (R131). -/

namespace Sys2Proof.Machine

/-- Buffers the first half of a pair: `PV <- c; PV_VALID <- 1` (R128). -/
def bufferSymbol (c : BitVec 7) (s : State) : State :=
  { s with pv := c, pvValid := true }

/-- Combines the buffered symbol with the second half of its pair (R128). -/
def combineSymbol (c : BitVec 7) (s : State) : State :=
  { push (s.pv.toNat + 91 * c.toNat) (gsel (s.pv.toNat + 91 * c.toNat)) s with
    pv := 0, pvValid := false, seq := .bdFlush }

/-- What BD_SYMBOL does with a B91_DEC_ROM entry: skip an unknown symbol, buffer a first half, or combine
a second half (R128). -/
def takeSymbol (entry : Byte) (s : State) : State :=
  if entryValid entry then
    if s.pvValid then combineSymbol (entryValue entry) s else bufferSymbol (entryValue entry) s
  else s

/-- BD_SYMBOL (R128). -/
def bdSymbol (s : State) : Answer :=
  if s.moreInput then
    withInput s fun b t => .next (takeSymbol (decRom t.cfg.toParams b) { t with i := t.i + 1 })
  else .next { s with seq := .bdTail }

/-- BD_FLUSH (R129). -/
def bdFlush (s : State) : Answer :=
  if s.accN.toNat > 7 then emit (BitVec.ofNat 8 (low 8 s)) (pop 8 s)
  else .next { s with seq := .bdSymbol }

/-- The byte of a final unpaired symbol, `(ACC_B | (PV << ACC_N)) & 255` (R130). -/
def tailByte (s : State) : Byte :=
  BitVec.ofNat 8 ((s.accB.toNat ||| (s.pv.toNat <<< s.accN.toNat)) &&& 255)

/-- BD_TAIL (R130). -/
def bdTail (s : State) : Answer :=
  if s.pvValid then andThen (emit (tailByte s) s) fun t => .next (finish .ok t)
  else .next (finish .ok s)

/-- B91DEC (R131): its start step. -/
def execB91dec (s : State) : Answer :=
  .next (startCommand 0x00000004 (fun t => { t with seq := .bdSymbol }) s)

end Sys2Proof.Machine
end

