-- ==== Sys2Proof/Machine/Base91Encoder.lean ====
section
/-! DEFINITION. The base91_encode_fsm unit: steps BE_CONSUME (R120), BE_GROUP (R121) and BE_TAIL (R122),
command B91ENC (R123). -/

namespace Sys2Proof.Machine

/-- BE_CONSUME (R120). -/
def beConsume (s : State) : Answer :=
  if s.moreInput then
    withInput s fun b t => .next { push b.toNat 8 t with i := t.i + 1, seq := .beGroup }
  else .next { s with seq := .beTail }

/-- Emits a group value as two symbols, the low base-91 digit first (R44, R121). -/
def emitGroup (v : Nat) (s : State) : Answer :=
  withRom (v % 91) s fun x => withRom (v / 91) s fun y => emitPair x y s

/-- BE_GROUP (R121): a group of GSEL(ACC_B) bits, or back for the next byte. -/
def beGroup (s : State) : Answer :=
  if s.accN.toNat > 13 then
    emitGroup (low (gsel s.accB.toNat) s) (pop (gsel s.accB.toNat) s)
  else .next { s with seq := .beConsume }

/-- Emits B91_ENC_ROM[k] (R122). -/
def emitSymbol (k : Nat) (s : State) : Answer :=
  withRom k s fun x => emit x s

/-- BE_TAIL (R122): one or two symbols for the leftover bits, and the finish. -/
def beTail (s : State) : Answer :=
  if s.accN = 0 then .next (finish .ok s)
  else
    andThen (emitSymbol (s.accB.toNat % 91) s) fun t =>
      if t.accN.toNat > 7 ∨ t.accB.toNat > 90 then
        andThen (emitSymbol (t.accB.toNat / 91) t) fun u => .next (finish .ok u)
      else .next (finish .ok t)

/-- B91ENC (R123): its start step. -/
def execB91enc (s : State) : Answer :=
  .next (startCommand 0x00000003 (fun t => { t with seq := .beConsume }) s)

end Sys2Proof.Machine
end

