-- ==== Sys2Proof/Machine/HexDecoder.lean ====
section
/-! DEFINITION. The hex_decoder unit: NIB (R101), PAIR (R102), steps HD_TRIM (R105) and HD_PAIR (R106),
command HEXDEC (R107). -/

namespace Sys2Proof.Machine

/-- NIB(c) (R101), for any code (R100). -/
def nib (c : Byte) : Nat := (c.toNat &&& 0xF) + (((c.toNat &&& 0x40) >>> 6) * 9)

/-- PAIR(hi, lo) (R102). -/
def pair (hi lo : Nat) : Byte := BitVec.ofNat 8 (((hi <<< 4) ||| lo) &&& 0xFF)

/-- Whether a code is in HEX_WS_SET (R103). -/
def isWhitespace (p : Params) (c : Byte) : Bool := p.whitespace.contains c

/-- The trimmed bounds after one more byte: `S` stays at the first non-whitespace index, and `E` is one
past the last (R105). -/
def trimBounds (p : Params) (bounds : Option (Nat × Nat)) (k : Nat) (b : Byte) : Option (Nat × Nat) :=
  if isWhitespace p b then bounds
  else match bounds with
    | none => some (k, k + 1)
    | some (first, _) => some (first, k + 1)

/-- The scan of HD_TRIM over the `n` frame bytes from index `k` on, each read once (R45, R105). The
result is none when no byte read was outside HEX_WS_SET. -/
def scanFrame : Nat → Nat → Option (Nat × Nat) → State → (Option (Nat × Nat) → State → Answer) → Answer
  | 0, _, bounds, s, f => f bounds s
  | n + 1, k, bounds, s, f =>
    withIn k s fun b t => scanFrame n (k + 1) (trimBounds t.cfg.toParams bounds k b) t f

/-- What HD_TRIM does once `S` and `E` are known (R105). -/
def trimDecision (bounds : Option (Nat × Nat)) (s : State) : State :=
  match bounds with
  | none => finish .invalidArgument s
  | some (first, past) =>
    if (past - first) % 2 = 1 then finish .invalidLength s
    else { s with i := BitVec.ofNat 32 first, trimE := BitVec.ofNat 32 past, seq := .hdPair }

/-- HD_TRIM (R105), one atomic step over the whole frame. -/
def hdTrim (s : State) : Answer :=
  scanFrame s.inLen.toNat 0 none s fun bounds t => .next (trimDecision bounds t)

/-- HD_PAIR (R106). -/
def hdPair (s : State) : Answer :=
  if s.i.toNat < s.trimE.toNat then
    withInput s fun hi t =>
      withNextInput t fun lo u =>
        andThen (emit (pair (nib hi) (nib lo)) u) fun v => .next { v with i := v.i + 2 }
  else .next (finish .ok s)

/-- HEXDEC (R107): its start step. -/
def execHexdec (s : State) : Answer :=
  .next (startCommand 0x00000002 (fun t => { t with seq := .hdTrim }) s)

end Sys2Proof.Machine
end

