-- ==== Sys2Proof/Machine/HexEncoder.lean ====
section
/-! DEFINITION. The hex_encoder unit: step HE_BYTE (R94), commands HEXENC.U (R95) and HEXENC.L (R96). -/

namespace Sys2Proof.Machine

/-- HE_BYTE (R94): one byte, two symbols, high nibble first. -/
def heByte (s : State) : Answer :=
  if s.moreInput then
    withInput s fun b t =>
      andThen (emitPair (hexLut t.upper (b.extractLsb' 4 4)) (hexLut t.upper (b.extractLsb' 0 4)) t)
        fun u => .next { u with i := u.i + 1 }
  else .next (finish .ok s)

/-- The dispatch of HEXENC after its start checks (R80): an empty frame is INVALID_ARGUMENT. -/
def dispatchHexenc (s : State) : State :=
  if s.inLen = 0 then finish .invalidArgument s else { s with seq := .heByte }

/-- HEXENC.U (R95): its start step. -/
def execHexencU (s : State) : Answer :=
  .next (startCommand 0x00000009 dispatchHexenc s)

/-- HEXENC.L (R96): its start step. -/
def execHexencL (s : State) : Answer :=
  .next (startCommand 0x00000001 dispatchHexenc s)

end Sys2Proof.Machine
end

