-- ==== Sys2Proof/Machine/Dispatch.lean ====
section
/-! DEFINITION. exec: one arm per command, each the command's start step (R77 to R80). -/

namespace Sys2Proof.Machine

def exec (i : Instr) (s : State) : Host.Outcome State Fault Refusal :=
  match i with
  | .hexencU => Sys2Proof.Machine.execHexencU s
  | .hexencL => Sys2Proof.Machine.execHexencL s
  | .hexdec => Sys2Proof.Machine.execHexdec s
  | .b91enc => Sys2Proof.Machine.execB91enc s
  | .b91dec => Sys2Proof.Machine.execB91dec s

end Sys2Proof.Machine
end

