-- ==== Sys2Proof/Machine/Sequencer.lean ====
section
/-! DEFINITION. The CORE's step: the step rule that STATE names (R71, R82). -/

namespace Sys2Proof.Machine

/-- The one step the CORE has enabled when STATE is not IDLE; it has none in IDLE, and takes none (R82). -/
def coreStep (s : State) : Answer :=
  match s.seq with
  | .idle => .next s
  | .heByte => heByte s
  | .hdTrim => hdTrim s
  | .hdPair => hdPair s
  | .beConsume => beConsume s
  | .beGroup => beGroup s
  | .beTail => beTail s
  | .bdSymbol => bdSymbol s
  | .bdFlush => bdFlush s
  | .bdTail => bdTail s

/-- Which agent moves next (R13, R51): as the schedule says, and once that is used up the CORE while it
has a step, which is the weak fairness of R167, and otherwise the host. -/
def State.mover (s : State) : Agent :=
  match s.turns with
  | a :: _ => a
  | [] => if s.seq = .idle then .host else .core

/-- The state with this step's entry of the schedule used. -/
def State.nextTurn (s : State) : State := { s with turns := s.turns.tail }

end Sys2Proof.Machine
end

