-- ==== Sys2Proof/Machine/HostPort.lean ====
section
/-! DEFINITION. The host's side: transactions (R77, R78, R85 to R89, R147), the reset input (R158) and
the two pseudo-instructions that depend on what a read returned (R75). -/

namespace Sys2Proof.Machine

/-! ## Reads: checked for BAD_ADDRESS only, and without side effect (R48, R147) -/

/-- The register at a word index (R38, R87); none from index 4 on. -/
def State.register (s : State) (index : Nat) : Option Word :=
  match index with
  | 0 => some s.cmd
  | 1 => some s.status
  | 2 => some s.inLen
  | 3 => some s.outLen
  | _ => none

/-- A read that returns a word (R73). -/
def returnWord (v : Word) (s : State) : State := { s with rdata := some v }

/-- A read that returns a byte, zero-extended (R73). -/
def returnByte (r : Byte × State) : State := returnWord (r.1.setWidth 32) r.2

/-- A read outside the map (R49): BAD_ADDRESS, and no value for the host (R146). -/
def badRead (s : State) : State := raiseHostFault .badAddress { s with rdata := none }

/-- The read of a register (R87, R49). -/
def readRegister (index : Nat) (s : State) : State :=
  match s.register index with
  | some v => returnWord v s
  | none => badRead s

/-- The read of an IN_BUF byte (R89), allowed while busy. -/
def readInBuf (a : Nat) (s : State) : State :=
  if a < s.cfg.inCap then returnByte (s.byteOr (s.inBuf.read a)) else badRead s

/-- The read of an OUT_BUF byte (R89), a draw while busy (R55). -/
def readOutBuf (a : Nat) (s : State) : State :=
  if a < s.cfg.outCap then
    if s.busy then returnByte s.draw else returnByte (s.byteOr (s.outBuf.read a))
  else badRead s

/-- A read transaction (R87, R89, R49). -/
def hostRead (t : Transaction) (s : State) : State :=
  match t.sp with
  | .reg => readRegister t.addr.toNat s
  | .inBuf => readInBuf t.addr.toNat s
  | .outBuf => readOutBuf t.addr.toNat s
  | .reserved => badRead s

/-! ## Writes: checked for WRITE_WHILE_BUSY, then BAD_ADDRESS, then BAD_DATA (R147) -/

/-- The write of a command word while idle (R77): the start step of the command it decodes to (R70). -/
def writeCmd (w : Word) (s : State) : Answer :=
  match decode w with
  | .legal i => exec i s
  | .illegal _ => .next (startIllegal w s)

/-- The write of a register while idle (R77, R85, R86, R49). -/
def writeRegister (index : Nat) (v : Word) (s : State) : Answer :=
  match index with
  | 0 => writeCmd v s
  | 1 => .next s
  | 2 => .next { s with inLen := v }
  | 3 => .next s
  | _ => .next (raiseHostFault .badAddress s)

/-- The write of an IN_BUF byte while idle (R88). -/
def writeInBuf (a : Nat) (d : Word) (s : State) : State :=
  if a < s.cfg.inCap then
    if d.extractLsb' 8 24 = 0 then { s with inBuf := s.inBuf.write a (d.extractLsb' 0 8) }
    else raiseHostFault .badData s
  else raiseHostFault .badAddress s

/-- A write transaction (R77, R78, R85, R86, R88, R147). -/
def hostWrite (t : Transaction) (s : State) : Answer :=
  if s.busy then .next (raiseHostFault .writeWhileBusy s)
  else match t.sp with
    | .reg => writeRegister t.addr.toNat t.data s
    | .inBuf => .next (writeInBuf t.addr.toNat t.data s)
    | .outBuf => .next (raiseHostFault .badAddress s)
    | .reserved => .next (raiseHostFault .badAddress s)

/-- A host transaction (R51, R73): one atomic step. -/
def transact (t : Transaction) (s : State) : Answer :=
  if t.write then hostWrite t s else .next (hostRead t s)

/-! ## The host's moves -/

/-- The transaction `WR CMD, w` (R74). -/
def cmdWrite (w : Word) : Transaction := { sp := .reg, write := true, addr := 0, data := w }

/-- The transaction `RD STATUS` (R74). -/
def statusRead : Transaction := { sp := .reg, write := false, addr := 1, data := 0 }

/-- The transaction `RD OUT_LEN` (R74). -/
def outLenRead : Transaction := { sp := .reg, write := false, addr := 3, data := 0 }

/-- The transaction `RB OUT[a]` (R74). -/
def outByteRead (a : Nat) : Transaction :=
  { sp := .outBuf, write := false, addr := BitVec.ofNat 32 a, data := 0 }

/-- One round of POLL (R75): `RD STATUS`, repeated until the value read has DONE = 1. -/
def pollOnce (rest : List HostOp) (s : State) : State :=
  if statusDone s.status then { hostRead statusRead s with host := rest } else hostRead statusRead s

/-- READOUT (R75): `RD OUT_LEN` giving L, after which `RB OUT[0]` .. `RB OUT[L - 1]` are next. -/
def readout (rest : List HostOp) (s : State) : State :=
  { hostRead outLenRead s with
    host := (List.range s.outLen.toNat).map (fun k => HostOp.tx (outByteRead k)) ++ rest }

/-- The host's move: its next operation, in program order (R51, R92). A host with nothing left to do
lets the step pass. -/
def hostMove (s : State) : Answer :=
  match s.host with
  | [] => .next s
  | .tx t :: rest => transact t { s with host := rest }
  | .reset :: rest => .next (resetInput { s with host := rest })
  | .poll :: rest => .next (pollOnce rest s)
  | .readout :: rest => .next (readout rest s)

end Sys2Proof.Machine
end

