-- ==== Sys2Proof/Machine/Step.lean ====
section
/-! DEFINITION. step: one atomic step of the agent whose turn it is (R51, R82). -/

namespace Sys2Proof.Machine

/-- One step of the machine: a CORE step or a host move, never both (R82). -/
def step (s : State) : Host.Outcome State Fault Refusal :=
  match s.mover with
  | .core => coreStep s.nextTurn
  | .host => hostMove s.nextTurn

/-- The state whose very next step is the host's write of the command word to CMD: a command word reaches
the CORE only as the DATA of that transaction (R63, R77). See log entry 8. -/
def State.withFetchWord (s : State) (nbits w : Nat) : State :=
  { s with
    turns := .host :: s.turns
    host := .tx (cmdWrite (BitVec.ofNat 32 (w % 2 ^ nbits))) :: s.host }

end Sys2Proof.Machine
end

