-- ==== Sys2Proof/Machine/Assembler.lean ====
section
/-! DEFINITION. The host assembly of R74 and the pseudo-instructions of R75, as the host operations they
stand for. -/

namespace Sys2Proof.Machine

/-- The four registers by name (R38). -/
inductive RegName where
  | cmd | status | inLen | outLen
  deriving DecidableEq, Repr

/-- The word index of a register (R38). -/
def RegName.index (r : RegName) : BitVec 32 :=
  match r with
  | .cmd => 0
  | .status => 1
  | .inLen => 2
  | .outLen => 3

/-- A line of host assembly (R74) or a pseudo-instruction (R75). -/
inductive AsmLine where
  | wr (r : RegName) (v : Word)
  | rd (r : RegName)
  | wbIn (a : BitVec 32) (b : Word)
  | rbIn (a : BitVec 32)
  | rbOut (a : BitVec 32)
  /-- A command mnemonic: `HEXENC.U`, `HEXENC.L`, `HEXDEC`, `B91ENC`, `B91DEC`. -/
  | command (i : Instr)
  /-- `HEXENC` without a suffix, which assembles UPPER = 1 (R65). -/
  | hexenc
  | loadin (frame : List Byte)
  | poll
  | run (i : Instr)
  | readout
  deriving DecidableEq, Repr

/-- The transaction `WB IN[a], b` (R74). -/
def inByteWrite (a : BitVec 32) (b : Word) : Transaction :=
  { sp := .inBuf, write := true, addr := a, data := b }

/-- The transaction `WR r, v` (R74). -/
def regWrite (r : RegName) (v : Word) : Transaction :=
  { sp := .reg, write := true, addr := r.index, data := v }

/-- The byte writes of LOADIN, from address `a` on (R75). -/
def loadBytes : Nat → List Byte → List HostOp
  | _, [] => []
  | a, b :: rest => .tx (inByteWrite (BitVec.ofNat 32 a) (b.setWidth 32)) :: loadBytes (a + 1) rest

/-- What one line stands for (R74, R75). -/
def AsmLine.expand (l : AsmLine) : List HostOp :=
  match l with
  | .wr r v => [.tx (regWrite r v)]
  | .rd r => [.tx { sp := .reg, write := false, addr := r.index, data := 0 }]
  | .wbIn a b => [.tx (inByteWrite a b)]
  | .rbIn a => [.tx { sp := .inBuf, write := false, addr := a, data := 0 }]
  | .rbOut a => [.tx { sp := .outBuf, write := false, addr := a, data := 0 }]
  | .command i => [.tx (cmdWrite (encode i))]
  | .hexenc => [.tx (cmdWrite (encode .hexencU))]
  | .loadin frame => loadBytes 0 frame ++ [.tx (regWrite .inLen (BitVec.ofNat 32 frame.length))]
  | .poll => [.poll]
  | .run i => [.tx (cmdWrite (encode i)), .poll]
  | .readout => [.readout]

/-- The host operations of a program (R74, R75). -/
def assemble (program : List AsmLine) : List HostOp := program.flatMap AsmLine.expand

end Sys2Proof.Machine
end

