-- ==== Sys2Proof/Machine/Frame.lean ====
section
/-! DEFINITION. The frame-level functions of the four codecs (R97, R104, R108, R125, R132), in terms of
which claims about whole commands are stated (R14). -/

namespace Sys2Proof.Machine

/-- hex_encode of a non-empty frame (R97): two symbols a byte, the high nibble's first. -/
def hexSymbols (upper : Bool) (x : List Byte) : List Byte :=
  x.flatMap fun b => [hexLut upper (b.extractLsb' 4 4), hexLut upper (b.extractLsb' 0 4)]

/-- hex_encode(x, u) (R97). -/
def hexEncode (upper : Bool) (x : List Byte) : Except ErrCode (List Byte) :=
  if x.isEmpty then .error .invalidArgument else .ok (hexSymbols upper x)

/-- trim(x) (R104): without leading and trailing whitespace. -/
def trim (p : Params) (x : List Byte) : List Byte :=
  ((x.dropWhile (isWhitespace p)).reverse.dropWhile (isWhitespace p)).reverse

/-- The bytes of successive symbol pairs (R108). -/
def pairBytes : List Byte → List Byte
  | hi :: lo :: rest => pair (nib hi) (nib lo) :: pairBytes rest
  | _ => []

/-- hex_decode(x) (R108). -/
def hexDecode (p : Params) (x : List Byte) : Except ErrCode (List Byte) :=
  if (trim p x).isEmpty then .error .invalidArgument
  else if (trim p x).length % 2 = 1 then .error .invalidLength
  else .ok (pairBytes (trim p x))

/-- The encoder's loop "while n > 13" on `b` and `n` (R125): the digits of the groups it emits, and `b`
and `n` after it. Each round takes at least 13 bits, so `fuel = n` rounds are enough. -/
def groupLoop : Nat → Nat → Nat → List Nat × Nat × Nat
  | 0, b, n => ([], b, n)
  | fuel + 1, b, n =>
    if n > 13 then
      let v := lowBits (gsel b) b
      let r := groupLoop fuel (b >>> gsel b) (n - gsel b)
      (v % 91 :: v / 91 :: r.1, r.2)
    else ([], b, n)

/-- The digits of the leftover bits (R125). -/
def tailDigits (b n : Nat) : List Nat :=
  if n = 0 then [] else if n > 7 ∨ b > 90 then [b % 91, b / 91] else [b % 91]

/-- base91_encode_idx from given accumulator values on (R125). -/
def encodeFrom : List Byte → Nat → Nat → List Nat
  | [], b, n => tailDigits b n
  | c :: rest, b, n =>
    let r := groupLoop (n + 8) (b ||| (c.toNat <<< n)) (n + 8)
    r.1 ++ encodeFrom rest r.2.1 r.2.2

/-- base91_encode_idx(x) (R125). -/
def base91EncodeIdx (x : List Byte) : List Nat := encodeFrom x 0 0

/-- base91_encode(x) (R125): the B91_ENC_ROM entry of each index, all of which are at most 90 (R115). -/
def base91Encode (p : Params) (x : List Byte) : List Byte :=
  (base91EncodeIdx x).filterMap fun k => p.alphabet[k]?

/-- The decoder's loop "while n > 7" on `b` and `n` (R132): the bytes it emits, and `b` and `n` after it.
Each round takes 8 bits, so `fuel = n` rounds are enough. -/
def flushLoop : Nat → Nat → Nat → List Byte × Nat × Nat
  | 0, b, n => ([], b, n)
  | fuel + 1, b, n =>
    if n > 7 then
      let r := flushLoop fuel (b >>> 8) (n - 8)
      (BitVec.ofNat 8 (lowBits 8 b) :: r.1, r.2)
    else ([], b, n)

/-- base91_decode from given accumulator values and pending symbol on (R132). -/
def decodeFrom (p : Params) : List Byte → Nat → Nat → Option Nat → List Byte
  | [], _, _, none => []
  | [], b, n, some v => [BitVec.ofNat 8 ((b ||| (v <<< n)) &&& 255)]
  | c :: rest, b, n, pending =>
    if entryValid (decRom p c) then
      match pending with
      | none => decodeFrom p rest b n (some (entryValue (decRom p c)).toNat)
      | some u =>
        let v := u + 91 * (entryValue (decRom p c)).toNat
        let r := flushLoop (n + gsel v) (b ||| (v <<< n)) (n + gsel v)
        r.1 ++ decodeFrom p rest r.2.1 r.2.2 none
    else decodeFrom p rest b n pending

/-- base91_decode(x) (R132). -/
def base91Decode (p : Params) (x : List Byte) : List Byte := decodeFrom p x 0 0 none

/-- strip(x) (R133): without the symbols whose B91_DEC_ROM entry has VALID = 0. -/
def stripUnknown (p : Params) (x : List Byte) : List Byte :=
  x.filter fun c => entryValid (decRom p c)

end Sys2Proof.Machine
end

