-- ==== Sys2Proof/Machine/Instances.lean ====
section
/-! DEFINITION. A system of `N_INST` instances (R60, R155): each has a state of its own and they share
only the read-only tables. -/

namespace Sys2Proof.Machine

/-- The system right after reset: `N_INST` instances with one configuration, hence the same tables. Each
has its own number, so that its draws are its own (log entries 15 and 27): instances share nothing else. -/
def resetSystem (cfg : Config) : List State :=
  (List.range cfg.nInst).map fun k => { State.resetWith cfg with instIndex := k }

/-- One step of instance `k`. No step of one instance reads or writes another's state (R60). A system
without an instance `k` has no such step, and stays. -/
def stepInstance (k : Nat) (sys : List State) : Host.Outcome (List State) Fault Refusal :=
  match sys[k]? with
  | none => .next sys
  | some s =>
    match step s with
    | .next t => .next (sys.set k t)
    | .fault e => .fault e
    | .refused e => .refused e

end Sys2Proof.Machine
end

