-- ==== Sys2Proof/Safety.lean ====
section
/-! DEFINITION. The terms claims are stated in: the observation of a command (R14, R83), the invariant of
every run, what a CORE step stores, what the CORE depends on (R145), and the host protocol (R164). -/

namespace Sys2Proof.Machine

/-! ## Frames and observations -/

/-- The frame in IN_BUF is `x`: IN_LEN is its length and every byte of it has been written (R45, R163). -/
def State.HoldsFrame (s : State) (x : List Byte) : Prop :=
  s.inLen.toNat = x.length ∧ ∀ k, k < x.length → s.inBuf.read k = x[k]?

/-- Every byte of the frame has been written since reset, so that no read of it is a draw (R61). -/
def State.FrameWritten (s : State) : Prop :=
  ∀ k, k < s.inLen.toNat → (s.inBuf.read k).isSome

/-- OUT_BUF holds `y` at its start and reads elsewhere as it did in `old` (R62). -/
def State.HoldsOutput (s : State) (y : List Byte) (old : State) : Prop :=
  ∀ a, s.outBuf.read a = if a < y.length then y[a]? else old.outBuf.read a

/-- A command has just finished with `e` and `y` as its output (R14, R81, R83): the observation
(ERR, OUT_LEN, OUT_BUF[0 .. OUT_LEN - 1]) and, elsewhere, OUT_BUF as it was in `old`. -/
def State.Finished (s : State) (e : ErrCode) (y : List Byte) (old : State) : Prop :=
  s.seq = .idle ∧ s.status = doneStatus e ∧ s.outLen = BitVec.ofNat 32 y.length ∧ s.HoldsOutput y old

/-- A state that can end a run (R83): the host has nothing left, STATE is IDLE and HOSTFAULT is empty. -/
def State.Final (s : State) : Prop :=
  s.host = [] ∧ s.seq = .idle ∧ s.hostFault = FaultSet.empty

/-! ## The invariant -/

/-- The commands during which each STATE value occurs (R94, R105, R106, R120 to R122, R128 to R130). -/
def Seq.serves (q : Seq) (i : Instr) : Prop :=
  match q with
  | .idle => False
  | .heByte => i = .hexencU ∨ i = .hexencL
  | .hdTrim => i = .hexdec
  | .hdPair => i = .hexdec
  | .beConsume => i = .b91enc
  | .beGroup => i = .b91enc
  | .beTail => i = .b91enc
  | .bdSymbol => i = .b91dec
  | .bdFlush => i = .b91dec
  | .bdTail => i = .b91dec

/-- The accumulator holds at most `bound` bits, and its value has no bit above them (R116). -/
def State.AccBounded (s : State) (bound : Nat) : Prop :=
  s.accN.toNat ≤ bound ∧ s.accB.toNat < 2 ^ s.accN.toNat

/-- The encoder has written whole groups, each of at least 13 of the `8 * I` bits consumed (R126). -/
def State.EncoderRoom (s : State) : Prop :=
  s.o.toNat % 2 = 0 ∧ 13 * (s.o.toNat / 2) + s.accN.toNat ≤ 8 * s.i.toNat

/-- The decoder has taken at most 14 bits from each pair of the `I` symbols consumed (R135). -/
def State.DecoderRoom (s : State) : Prop :=
  8 * s.o.toNat + s.accN.toNat + 7 * s.pvValid.toNat ≤ 7 * s.i.toNat

/-- What holds in each STATE value of the indices and the accumulator (R94, R106, R116, R120, R122, R128, R130). -/
def State.Progress (s : State) : Prop :=
  match s.seq with
  | .idle => True
  | .heByte => s.o.toNat ≤ 2 * s.i.toNat
  | .hdTrim => s.i = 0 ∧ s.o = 0
  | .hdPair =>
    s.i.toNat ≤ s.trimE.toNat ∧ s.trimE.toNat ≤ s.inLen.toNat ∧
      (s.trimE.toNat - s.i.toNat) % 2 = 0 ∧ 2 * s.o.toNat ≤ s.i.toNat
  | .beConsume => s.AccBounded 13 ∧ s.EncoderRoom
  | .beGroup => s.AccBounded 21 ∧ s.EncoderRoom
  | .beTail => s.AccBounded 13 ∧ s.EncoderRoom
  | .bdSymbol => s.AccBounded 7 ∧ s.DecoderRoom
  | .bdFlush => s.AccBounded 21 ∧ s.DecoderRoom
  | .bdTail => s.AccBounded 7 ∧ s.DecoderRoom

/-- The invariant of every run. -/
structure State.Inv (s : State) : Prop where
  /-- IN_BUF is in canonical form and lies below IN_CAP (R37). -/
  inBufWf : s.inBuf.wf s.cfg.inCap = true
  /-- OUT_BUF is in canonical form and lies below OUT_CAP (R37, R144). -/
  outBufWf : s.outBuf.wf s.cfg.outCap = true
  /-- While no command runs STATUS is 0 or reports a finished command, and OUT_LEN is not 0 only after a
  command that succeeded (R20 to R25). -/
  idleStatus : s.seq = .idle →
    (s.status = 0 ∧ s.outLen = 0) ∨
      ∃ e, s.status = doneStatus e ∧ (s.outLen = 0 ∨ (e = .ok ∧ s.outLen.toNat ≤ s.cfg.outCap))
  /-- While a command runs STATUS is BUSY alone, OUT_LEN reads 0, CMD is the word of a command whose STATE
  values include this one, and the input index is inside a frame that fits IN_BUF (R17, R26, R80, R87). -/
  running : s.seq ≠ .idle →
    s.status = busyStatus ∧ s.outLen = 0 ∧ (∃ i, decode s.cmd = .legal i ∧ s.seq.serves i) ∧
      s.i.toNat ≤ s.inLen.toNat ∧ s.inLen.toNat ≤ s.cfg.inCap
  /-- PV holds a symbol value, 0 to 90 (R28). -/
  pvRange : s.pv.toNat ≤ 90
  /-- The indices and the accumulator are where the STATE value says. -/
  progress : s.Progress

/-! ## What a CORE step stores -/

/-- The addresses of OUT_BUF that the CORE's next step stores to (R94, R106, R121, R122, R129, R130). -/
def State.storesAt (s : State) : List Nat :=
  match s.seq with
  | .idle => []
  | .heByte => if s.moreInput then [s.o.toNat, s.o.toNat + 1] else []
  | .hdTrim => []
  | .hdPair => if s.i.toNat < s.trimE.toNat then [s.o.toNat] else []
  | .beConsume => []
  | .beGroup => if s.accN.toNat > 13 then [s.o.toNat, s.o.toNat + 1] else []
  | .beTail =>
    if s.accN = 0 then []
    else if s.accN.toNat > 7 ∨ s.accB.toNat > 90 then [s.o.toNat, (s.o + 1).toNat]
    else [s.o.toNat]
  | .bdSymbol => []
  | .bdFlush => if s.accN.toNat > 7 then [s.o.toNat] else []
  | .bdTail => if s.pvValid then [s.o.toNat] else []

/-! ## What the CORE can see -/

/-- The CORE's side of a state: everything but HOSTFAULT and the model's own fields, which no register of
the CORE holds (R35, R36). -/
def State.coreSide (s : State) : State :=
  { s with
    hostFault := FaultSet.empty, instIndex := 0, draws := 0, rdata := none, host := [], turns := [] }

/-! ## The host protocol (R164) -/

/-- P3: a transaction on a mapped address, with DATA[31:8] = 0 in an IN_BUF write (R49, R88). -/
def Transaction.mapped (p : Params) (t : Transaction) : Bool :=
  match t.sp with
  | .reg => decide (t.addr.toNat < 4)
  | .inBuf => decide (t.addr.toNat < p.inCap) && (!t.write || t.data.extractLsb' 8 24 == 0)
  | .outBuf => !t.write && decide (t.addr.toNat < p.outCap)
  | .reserved => false

/-- A write to CMD (R77). -/
def Transaction.writesCmd (t : Transaction) : Bool :=
  t.write && t.sp == .reg && t.addr == 0

/-- A read of STATUS (R87). -/
def Transaction.readsStatus (t : Transaction) : Bool :=
  !t.write && t.sp == .reg && t.addr == 1

/-- A read of OUT_LEN or of OUT_BUF, where a command's output stands (R83). -/
def Transaction.readsOutput (t : Transaction) : Bool :=
  !t.write && (t.sp == .reg && t.addr == 3 || t.sp == .outBuf)

/-- Where the host stands in the protocol of R164. -/
inductive HostPhase where
  /-- It has written no command since reset, nor has any STATUS read returned DONE = 1. -/
  | noCommand
  /-- It has written CMD, and no STATUS read since has returned DONE = 1. -/
  | waiting
  /-- A STATUS read has returned DONE = 1, and it has not written CMD since. -/
  | ready
  deriving DecidableEq, Repr

/-- The host's operation that the next step performs, if the host moves and has one left. -/
def State.nextOp (s : State) : Option HostOp :=
  match s.mover with
  | .core => none
  | .host => s.host.head?

/-- The phase after the next step. A CMD write begins P1's window, the first STATUS read that returns
DONE = 1 ends it, be it a plain transaction or a round of POLL, and so does the reset input, which R164
does not mention: DESIGN CHOICE (log entry 25). -/
def State.phaseAfter (s : State) (p : HostPhase) : HostPhase :=
  match s.nextOp with
  | none => p
  | some (.tx t) =>
    if t.writesCmd then .waiting
    else if t.readsStatus && statusDone s.status then .ready
    else p
  | some .reset => .noCommand
  | some .poll => if statusDone s.status then .ready else p
  | some .readout => p

/-- P1 at the next step: no write to any space while waiting. -/
def keepsP1 (p : HostPhase) (s : State) : Bool :=
  match s.nextOp with
  | some (.tx t) => !(t.write && p == .waiting)
  | none | some .reset | some .poll | some .readout => true

/-- The next step reads what P2 calls a command's output: OUT_LEN or OUT_BUF, by a transaction or by
READOUT. That every such read counts is the model's choice (log entry 26). -/
def State.takesOutput (s : State) : Bool :=
  match s.nextOp with
  | some (.tx t) => t.readsOutput
  | some .readout => true
  | none | some .reset | some .poll => false

/-- P2 at the next step: output is read only after DONE = 1 has been read and before the next CMD write. -/
def keepsP2 (p : HostPhase) (s : State) : Bool :=
  !s.takesOutput || p == .ready

/-- P3 at the next step: the transaction is mapped. -/
def keepsP3 (_ : HostPhase) (s : State) : Bool :=
  match s.nextOp with
  | some (.tx t) => t.mapped s.cfg.toParams
  | none | some .reset | some .poll | some .readout => true

/-- The host keeps a rule at each of the next `n` steps, from a given phase on. -/
def State.keeps (rule : HostPhase → State → Bool) : Nat → HostPhase → State → Bool
  | 0, _, _ => true
  | n + 1, p, s =>
    rule p s &&
      match step s with
      | .next t => State.keeps rule n (s.phaseAfter p) t
      | .fault _ => true
      | .refused _ => true

/-- The host of a state in which no command has been written conforms (R164): it keeps P1, P2 and P3 for
any number of steps of every run, that is under every schedule. -/
def State.HostConforms (s : State) : Prop :=
  ∀ (turns : List Agent) (n : Nat),
    State.keeps (fun p u => keepsP1 p u && keepsP2 p u && keepsP3 p u) n .noCommand
      { s with turns := turns } = true

end Sys2Proof.Machine
end

