-- ==== Sys2Proof/Certificates/Slice0/Obligations.lean ====
section
/-! DEFINITION. The statements for the provers, from the spec's numbered rules. -/

open Sys2Proof Sys2Proof.Machine

/-! ## Encoding -/

/-- R67, R68, R70: the words of the spec's table decode to their commands, and words of each class of R68
(vectors V90, V91, V92, V93, V93a, V94, V95) are illegal. -/
def Obligations.SpecWordsDecode : Prop :=
  decode 0x00000009 = .legal .hexencU ∧ decode 0x00000001 = .legal .hexencL ∧
  decode 0x00000002 = .legal .hexdec ∧ decode 0x00000003 = .legal .b91enc ∧
  decode 0x00000004 = .legal .b91dec ∧
  decode 0x00000000 = .illegal .reservedOp ∧ decode 0x00000005 = .illegal .reservedOp ∧
  decode 0x00000007 = .illegal .reservedOp ∧
  decode 0x0000000A = .illegal .upperWithoutHexenc ∧ decode 0x0000000B = .illegal .upperWithoutHexenc ∧
  decode 0x00000019 = .illegal .reservedBits ∧ decode 0x80000003 = .illegal .reservedBits

/-- R67, R70: the legal words are exactly the five of the table, each for its own command. -/
def Obligations.LegalWordsAreExactlyFive : Prop :=
  ∀ (w : Word) (i : Instr), decode w = .legal i ↔
    (w = 0x00000009 ∧ i = .hexencU) ∨ (w = 0x00000001 ∧ i = .hexencL) ∨
    (w = 0x00000002 ∧ i = .hexdec) ∨ (w = 0x00000003 ∧ i = .b91enc) ∨
    (w = 0x00000004 ∧ i = .b91dec)

/-- The encoder and the decoder agree, in both directions (R63 to R70). -/
def Obligations.EncodeDecodeAgree : Prop :=
  (∀ i : Instr, decode (encode i) = .legal i) ∧
  ∀ (w : Word) (i : Instr), decode w = .legal i → encode i = w

/-! ## The step runs the command written -/

/-- When it is the host's turn and its next operation writes the word of a command to CMD, the step is
that command's meaning, at the state in which the turn and the operation have been used (R77, R70). -/
def Obligations.StepRunsDecodedCommand : Prop :=
  (∀ (s : State) (w : Word) (i : Instr) (rest : List HostOp),
    decode w = .legal i → s.mover = .host → s.host = .tx (cmdWrite w) :: rest →
    step s = exec i { s with turns := s.turns.tail, host := rest }) ∧
  ∀ (s : State) (i : Instr), step (s.withFetchWord 32 (encode i).toNat) = exec i s

/-! ## Starting a command -/

/-- R77, R79, R80, R139: the whole start step for every word written to CMD while idle, legal or not; and
the step in which the host makes that write, from whose state the turn and the operation have been used
(the model's schedule and host, log entry 7). An error finish leaves the registers that were just cleared
at 0 (the model's choice, log entry 11). -/
def Obligations.StartStepClearsAndDispatches : Prop :=
  ∀ (s : State) (w : Word),
    (s.busy = false →
      transact (cmdWrite w) s = .next
        (let c : State :=
          { s with
            cmd := w, status := 0x00000001, outLen := 0, i := 0, o := 0, trimE := 0, accB := 0, accN := 0,
            pv := 0, pvValid := false }
         match decode w with
         | .illegal _ => { c with status := 0x00000032, seq := .idle }
         | .legal i =>
           if s.inLen.toNat > s.cfg.inCap then { c with status := 0x00000042, seq := .idle }
           else match i with
             | .hexencU | .hexencL =>
               if s.inLen = 0 then { c with status := 0x00000012, seq := .idle } else { c with seq := .heByte }
             | .hexdec => { c with seq := .hdTrim }
             | .b91enc => { c with seq := .beConsume }
             | .b91dec => { c with seq := .bdSymbol })) ∧
    ∀ rest, s.mover = .host → s.host = .tx (cmdWrite w) :: rest →
      step s = transact (cmdWrite w) { s with turns := s.turns.tail, host := rest }

/-- HEXENC.U and HEXENC.L start on a non-empty frame that fits IN_BUF (R95, R96 with R79, R80). -/
def Obligations.HexencStarts : Prop :=
  ∀ s : State, s.busy = false → s.inLen ≠ 0 → s.inLen.toNat ≤ s.cfg.inCap →
    exec .hexencU s = .next
      { s with
        cmd := 0x00000009, status := 0x00000001, outLen := 0, i := 0, o := 0, trimE := 0, accB := 0,
        accN := 0, pv := 0, pvValid := false, seq := .heByte } ∧
    exec .hexencL s = .next
      { s with
        cmd := 0x00000001, status := 0x00000001, outLen := 0, i := 0, o := 0, trimE := 0, accB := 0,
        accN := 0, pv := 0, pvValid := false, seq := .heByte }

/-- HEXDEC, B91ENC and B91DEC start on every frame that fits IN_BUF, the empty one included (R107, R123,
R131 with R79, R80). -/
def Obligations.HexdecAndBase91Start : Prop :=
  ∀ s : State, s.busy = false → s.inLen.toNat ≤ s.cfg.inCap →
    exec .hexdec s = .next
      { s with
        cmd := 0x00000002, status := 0x00000001, outLen := 0, i := 0, o := 0, trimE := 0, accB := 0,
        accN := 0, pv := 0, pvValid := false, seq := .hdTrim } ∧
    exec .b91enc s = .next
      { s with
        cmd := 0x00000003, status := 0x00000001, outLen := 0, i := 0, o := 0, trimE := 0, accB := 0,
        accN := 0, pv := 0, pvValid := false, seq := .beConsume } ∧
    exec .b91dec s = .next
      { s with
        cmd := 0x00000004, status := 0x00000001, outLen := 0, i := 0, o := 0, trimE := 0, accB := 0,
        accN := 0, pv := 0, pvValid := false, seq := .bdSymbol }

/-- R78: a command written while one runs records WRITE_WHILE_BUSY and changes nothing else. -/
def Obligations.CommandWhileBusyOnlyRecords : Prop :=
  ∀ (i : Instr) (s : State), s.busy = true →
    exec i s = .next { s with hostFault := { s.hostFault with writeWhileBusy := true } }

/-- The frame of every command's start: what exec leaves unchanged in each of the five (R54, R62, R79). -/
def Obligations.StartFrame : Prop :=
  ∀ (i : Instr) (s t : State), exec i s = .next t →
    t.cfg = s.cfg ∧ t.inLen = s.inLen ∧
    (∀ a, t.inBuf.read a = s.inBuf.read a) ∧ (∀ a, t.outBuf.read a = s.outBuf.read a) ∧
    t.instIndex = s.instIndex ∧ t.draws = s.draws ∧ t.rdata = s.rdata ∧ t.host = s.host ∧
    t.turns = s.turns ∧
    (∀ r, t.hostFault.has r = (s.hostFault.has r || (s.busy && r == .writeWhileBusy))) ∧
    (s.busy = true →
      t.cmd = s.cmd ∧ t.status = s.status ∧ t.outLen = s.outLen ∧ t.seq = s.seq ∧ t.i = s.i ∧ t.o = s.o ∧
      t.trimE = s.trimE ∧ t.pv = s.pv ∧ t.pvValid = s.pvValid ∧ t.accB = s.accB ∧ t.accN = s.accN)

/-- R81: finish(e), for every error, in numbers. That the internal registers keep their values, where R81
lets a model keep or clear them, is the model's choice (log entry 11). -/
def Obligations.FinishWritesStatusAndLength : Prop :=
  ∀ s : State,
    finish .ok s = { s with status := 0x00000002, outLen := s.o, seq := .idle } ∧
    finish .invalidArgument s = { s with status := 0x00000012, outLen := 0, seq := .idle } ∧
    finish .invalidLength s = { s with status := 0x00000022, outLen := 0, seq := .idle } ∧
    finish .illegalCommand s = { s with status := 0x00000032, outLen := 0, seq := .idle } ∧
    finish .capacity s = { s with status := 0x00000042, outLen := 0, seq := .idle }

/-! ## The step rules -/

/-- R94: HE_BYTE. An unwritten input byte is a draw, as `byteOr` says. That the internal registers keep
their values after the finish is the model's choice (log entry 11). -/
def Obligations.HexEncodeStep : Prop :=
  ∀ s : State, s.seq = .heByte →
    (s.i.toNat < s.inLen.toNat → s.i.toNat < s.cfg.inCap → s.o.toNat + 1 < s.cfg.outCap →
      ∀ b u, s.byteOr (s.inBuf.read s.i.toNat) = (b, u) →
      coreStep s = .next
        { u with
          outBuf := (u.outBuf.write s.o.toNat (hexLut (s.cmd.getLsbD 3) (b.extractLsb' 4 4))).write
            (s.o.toNat + 1) (hexLut (s.cmd.getLsbD 3) (b.extractLsb' 0 4))
          i := s.i + 1
          o := s.o + 2 }) ∧
    (s.inLen.toNat ≤ s.i.toNat →
      coreStep s = .next { s with status := 0x00000002, outLen := s.o, seq := .idle })

/-- R105: HD_TRIM. `v k` is the byte read at index k: the written one, or a draw; a frame whose bytes are
all written takes no draw. The model's choices in it: a draw is `freeByte` at the CORE's number and the
counter (log entries 5 and 27), each byte is read once (log entry 17), and the internal registers keep
their values after an error finish (log entry 11). -/
def Obligations.HexTrimStep : Prop :=
  ∀ s : State, s.seq = .hdTrim → s.inLen.toNat ≤ s.cfg.inCap →
    ∃ (v : Nat → Byte) (d : Nat), s.draws ≤ d ∧ (s.FrameWritten → d = s.draws) ∧
      (∀ k, k < s.inLen.toNat → ∀ b, s.inBuf.read k = some b → v k = b) ∧
      (∀ k, k < s.inLen.toNat → s.inBuf.read k = none →
        ∃ n, s.draws ≤ n ∧ n < d ∧ v k = Config.freeByte s.instIndex n) ∧
      (((∀ k, k < s.inLen.toNat → v k ∈ s.cfg.whitespace) ∧
          coreStep s = .next { s with draws := d, status := 0x00000012, outLen := 0, seq := .idle }) ∨
        ∃ S E, S < E ∧ E ≤ s.inLen.toNat ∧ v S ∉ s.cfg.whitespace ∧ v (E - 1) ∉ s.cfg.whitespace ∧
          (∀ k, k < s.inLen.toNat → k < S ∨ E ≤ k → v k ∈ s.cfg.whitespace) ∧
          coreStep s = .next
            (if (E - S) % 2 = 1 then
              { s with draws := d, status := 0x00000022, outLen := 0, seq := .idle }
            else
              { s with draws := d, i := BitVec.ofNat 32 S, trimE := BitVec.ofNat 32 E, seq := .hdPair }))

/-- R106 with R101 and R102: HD_PAIR. That the internal registers keep their values after the finish is
the model's choice (log entry 11). -/
def Obligations.HexPairStep : Prop :=
  ∀ s : State, s.seq = .hdPair →
    (s.i.toNat < s.trimE.toNat → s.i.toNat + 1 < s.cfg.inCap → s.o.toNat < s.cfg.outCap →
      ∀ hi t lo u, s.byteOr (s.inBuf.read s.i.toNat) = (hi, t) →
      t.byteOr (t.inBuf.read (s.i.toNat + 1)) = (lo, u) →
      coreStep s = .next
        { u with
          outBuf := u.outBuf.write s.o.toNat (BitVec.ofNat 8 ((((
            (hi.toNat &&& 0xF) + ((hi.toNat &&& 0x40) >>> 6) * 9) <<< 4) |||
            ((lo.toNat &&& 0xF) + ((lo.toNat &&& 0x40) >>> 6) * 9)) &&& 0xFF))
          i := s.i + 2
          o := s.o + 1 }) ∧
    (s.trimE.toNat ≤ s.i.toNat →
      coreStep s = .next { s with status := 0x00000002, outLen := s.o, seq := .idle })

/-- R120: BE_CONSUME. -/
def Obligations.Base91ConsumeStep : Prop :=
  ∀ s : State, s.seq = .beConsume →
    (s.i.toNat < s.inLen.toNat → s.i.toNat < s.cfg.inCap →
      ∀ b u, s.byteOr (s.inBuf.read s.i.toNat) = (b, u) →
      coreStep s = .next
        { u with
          accB := BitVec.ofNat 32 (s.accB.toNat ||| (b.toNat <<< s.accN.toNat))
          accN := BitVec.ofNat 5 (s.accN.toNat + 8)
          i := s.i + 1
          seq := .beGroup }) ∧
    (s.inLen.toNat ≤ s.i.toNat → coreStep s = .next { s with seq := .beTail })

/-- R121: BE_GROUP, with the masks, the shifts and the digits of the rule. -/
def Obligations.Base91GroupStep : Prop :=
  ∀ s : State, s.seq = .beGroup →
    (s.accN.toNat > 13 → s.o.toNat + 1 < s.cfg.outCap →
      ∀ v w x y,
      (v, w) = (if (s.accB.toNat &&& 8191) > 88 then (s.accB.toNat &&& 8191, 13)
        else (s.accB.toNat &&& 16383, 14)) →
      s.cfg.alphabet[v % 91]? = some x → s.cfg.alphabet[v / 91]? = some y →
      coreStep s = .next
        { s with
          accB := BitVec.ofNat 32 (s.accB.toNat >>> w)
          accN := BitVec.ofNat 5 (s.accN.toNat - w)
          outBuf := (s.outBuf.write s.o.toNat x).write (s.o.toNat + 1) y
          o := s.o + 2 }) ∧
    (s.accN.toNat ≤ 13 → coreStep s = .next { s with seq := .beConsume })

/-- R122: BE_TAIL, in its three cases: no leftover bit, one symbol, two symbols. That the internal
registers keep their values after the finish is the model's choice (log entry 11). -/
def Obligations.Base91TailStep : Prop :=
  ∀ s : State, s.seq = .beTail →
    (s.accN = 0 → coreStep s = .next { s with status := 0x00000002, outLen := s.o, seq := .idle }) ∧
    (s.accN ≠ 0 → s.accN.toNat ≤ 7 → s.accB.toNat ≤ 90 → s.o.toNat < s.cfg.outCap →
      ∀ x, s.cfg.alphabet[s.accB.toNat % 91]? = some x →
      coreStep s = .next
        { s with
          outBuf := s.outBuf.write s.o.toNat x, o := s.o + 1
          status := 0x00000002, outLen := s.o + 1, seq := .idle }) ∧
    (s.accN.toNat > 7 ∨ (s.accN ≠ 0 ∧ s.accB.toNat > 90) → s.o.toNat < s.cfg.outCap →
      (s.o + 1).toNat < s.cfg.outCap →
      ∀ x y, s.cfg.alphabet[s.accB.toNat % 91]? = some x → s.cfg.alphabet[s.accB.toNat / 91]? = some y →
      coreStep s = .next
        { s with
          outBuf := (s.outBuf.write s.o.toNat x).write (s.o + 1).toNat y, o := s.o + 2
          status := 0x00000002, outLen := s.o + 2, seq := .idle })

/-- R128: BD_SYMBOL, in its four cases: an unknown symbol, a first half, a second half, no more input. -/
def Obligations.Base91SymbolStep : Prop :=
  ∀ s : State, s.seq = .bdSymbol →
    (s.i.toNat < s.inLen.toNat → s.i.toNat < s.cfg.inCap →
      ∀ b u, s.byteOr (s.inBuf.read s.i.toNat) = (b, u) →
      (b ∉ s.cfg.alphabet → coreStep s = .next { u with i := s.i + 1 }) ∧
      (∀ c, s.cfg.alphabet[c]? = some b →
        (s.pvValid = false →
          coreStep s = .next { u with i := s.i + 1, pv := BitVec.ofNat 7 c, pvValid := true }) ∧
        (s.pvValid = true → ∀ v w, v = s.pv.toNat + 91 * c → w = (if (v &&& 8191) > 88 then 13 else 14) →
          coreStep s = .next
            { u with
              i := s.i + 1
              accB := BitVec.ofNat 32 (s.accB.toNat ||| (v <<< s.accN.toNat))
              accN := BitVec.ofNat 5 (s.accN.toNat + w)
              pv := 0, pvValid := false, seq := .bdFlush }))) ∧
    (s.inLen.toNat ≤ s.i.toNat → coreStep s = .next { s with seq := .bdTail })

/-- R129: BD_FLUSH. -/
def Obligations.Base91FlushStep : Prop :=
  ∀ s : State, s.seq = .bdFlush →
    (s.accN.toNat > 7 → s.o.toNat < s.cfg.outCap →
      coreStep s = .next
        { s with
          outBuf := s.outBuf.write s.o.toNat (BitVec.ofNat 8 (s.accB.toNat &&& 255))
          accB := BitVec.ofNat 32 (s.accB.toNat >>> 8)
          accN := BitVec.ofNat 5 (s.accN.toNat - 8)
          o := s.o + 1 }) ∧
    (s.accN.toNat ≤ 7 → coreStep s = .next { s with seq := .bdSymbol })

/-- R130: BD_TAIL. That the internal registers keep their values after the finish is the model's choice
(log entry 11). -/
def Obligations.Base91PendingStep : Prop :=
  ∀ s : State, s.seq = .bdTail →
    (s.pvValid = true → s.o.toNat < s.cfg.outCap →
      coreStep s = .next
        { s with
          outBuf := s.outBuf.write s.o.toNat
            (BitVec.ofNat 8 ((s.accB.toNat ||| (s.pv.toNat <<< s.accN.toNat)) &&& 255))
          o := s.o + 1
          status := 0x00000002, outLen := s.o + 1, seq := .idle }) ∧
    (s.pvValid = false →
      coreStep s = .next { s with status := 0x00000002, outLen := s.o, seq := .idle })

/-- The frame of every CORE step (R54, R62): it writes no host-side state, no CMD, IN_LEN or IN_BUF, and
of OUT_BUF only the bytes whose addresses `storesAt` computes. -/
def Obligations.CoreStepFrame : Prop :=
  ∀ s t : State, coreStep s = .next t →
    t.cfg = s.cfg ∧ t.cmd = s.cmd ∧ t.inLen = s.inLen ∧ t.hostFault = s.hostFault ∧
    t.instIndex = s.instIndex ∧ t.rdata = s.rdata ∧ t.host = s.host ∧ t.turns = s.turns ∧
    (∀ a, t.inBuf.read a = s.inBuf.read a) ∧
    (∀ a, a ∉ s.storesAt → t.outBuf.read a = s.outBuf.read a) ∧
    (∀ a, a ∈ s.storesAt → (t.outBuf.read a).isSome)

/-! ## The host's transactions -/

/-- R85, R86: writes to IN_LEN, STATUS and OUT_LEN, busy or not. -/
def Obligations.RegisterWrites : Prop :=
  ∀ (s : State) (v : Word),
    transact { sp := .reg, write := true, addr := 2, data := v } s = .next
      (if s.busy then { s with hostFault := { s.hostFault with writeWhileBusy := true } }
      else { s with inLen := v }) ∧
    transact { sp := .reg, write := true, addr := 1, data := v } s = .next
      (if s.busy then { s with hostFault := { s.hostFault with writeWhileBusy := true } } else s) ∧
    transact { sp := .reg, write := true, addr := 3, data := v } s = .next
      (if s.busy then { s with hostFault := { s.hostFault with writeWhileBusy := true } } else s)

/-- R147 (first row), R146, R78, R85, R86, R88: any write while busy records WRITE_WHILE_BUSY and nothing
else, whatever its space, address and data. -/
def Obligations.AnyWriteWhileBusyOnlyRecords : Prop :=
  ∀ (s : State) (t : Transaction), s.busy = true → t.write = true →
    transact t s = .next { s with hostFault := { s.hostFault with writeWhileBusy := true } }

/-- R88: the write of an IN_BUF byte, in its four cases and in their order. -/
def Obligations.InBufWriteCases : Prop :=
  ∀ (s : State) (a : BitVec 32) (d : Word),
    transact { sp := .inBuf, write := true, addr := a, data := d } s = .next
      (if s.busy then { s with hostFault := { s.hostFault with writeWhileBusy := true } }
      else if s.cfg.inCap ≤ a.toNat then { s with hostFault := { s.hostFault with badAddress := true } }
      else if d.toNat ≥ 256 then { s with hostFault := { s.hostFault with badData := true } }
      else { s with inBuf := s.inBuf.write a.toNat (BitVec.ofNat 8 d.toNat) })

/-- R87, R49, R146: register reads, at any time; and OUT_LEN reads 0 while a command runs, in every state
that satisfies the invariant. The model's choices in it: a read that faults leaves no value for the host
(log entry 6), and the DATA field of a read is ignored (log entry 19). -/
def Obligations.RegisterReads : Prop :=
  ∀ (s : State) (r : BitVec 32) (d : Word),
    transact { sp := .reg, write := false, addr := r, data := d } s = .next
      (if r = 0 then { s with rdata := some s.cmd }
      else if r = 1 then { s with rdata := some s.status }
      else if r = 2 then { s with rdata := some s.inLen }
      else if r = 3 then { s with rdata := some s.outLen }
      else { s with rdata := none, hostFault := { s.hostFault with badAddress := true } }) ∧
    (s.Inv → s.busy = true →
      transact { sp := .reg, write := false, addr := 3, data := d } s = .next { s with rdata := some 0 })

/-- R89, R55, R61, R146: buffer reads: a bad address, a byte written since reset, and the draws. The
model's choices in it: a draw is `freeByte` at the CORE's number and the counter (log entries 5 and 27), a
read that faults leaves no value for the host (log entry 6), the DATA field of a read is ignored (log entry
19), and every read of an unwritten byte of either buffer is a fresh draw (log entry 20). -/
def Obligations.BufferReads : Prop :=
  ∀ (s : State) (a : BitVec 32) (d : Word),
    (transact { sp := .inBuf, write := false, addr := a, data := d } s = .next
      (if s.cfg.inCap ≤ a.toNat then
        { s with rdata := none, hostFault := { s.hostFault with badAddress := true } }
      else match s.inBuf.read a.toNat with
        | some b => { s with rdata := some (b.setWidth 32) }
        | none =>
          { s with rdata := some ((Config.freeByte s.instIndex s.draws).setWidth 32), draws := s.draws + 1 })) ∧
    (transact { sp := .outBuf, write := false, addr := a, data := d } s = .next
      (if s.cfg.outCap ≤ a.toNat then
        { s with rdata := none, hostFault := { s.hostFault with badAddress := true } }
      else match s.busy, s.outBuf.read a.toNat with
        | false, some b => { s with rdata := some (b.setWidth 32) }
        | _, _ =>
          { s with rdata := some ((Config.freeByte s.instIndex s.draws).setWidth 32), draws := s.draws + 1 }))

/-- R49, R147: the rest of the out-of-map accesses, which record BAD_ADDRESS and have no other effect: a
register index from 4 on, a write to OUT_BUF, and SP = 11. -/
def Obligations.OutOfMapAccessesOnlyRecord : Prop :=
  ∀ (s : State) (a : BitVec 32) (d : Word),
    (s.busy = false → 4 ≤ a.toNat →
      transact { sp := .reg, write := true, addr := a, data := d } s =
        .next { s with hostFault := { s.hostFault with badAddress := true } }) ∧
    (s.busy = false →
      transact { sp := .outBuf, write := true, addr := a, data := d } s =
        .next { s with hostFault := { s.hostFault with badAddress := true } } ∧
      transact { sp := .reserved, write := true, addr := a, data := d } s =
        .next { s with hostFault := { s.hostFault with badAddress := true } }) ∧
    transact { sp := .reserved, write := false, addr := a, data := d } s =
      .next { s with rdata := none, hostFault := { s.hostFault with badAddress := true } }

/-- R75: one round of POLL and the expansion of READOUT. -/
def Obligations.PollAndReadoutMoves : Prop :=
  ∀ (s : State) (rest : List HostOp),
    (s.host = .poll :: rest → s.status.getLsbD 1 = true →
      hostMove s = .next { s with rdata := some s.status, host := rest }) ∧
    (s.host = .poll :: rest → s.status.getLsbD 1 = false →
      hostMove s = .next { s with rdata := some s.status }) ∧
    (s.host = .readout :: rest →
      ∃ t, hostMove s = .next t ∧ t.rdata = some s.outLen ∧ t.coreSide = s.coreSide ∧
        t.instIndex = s.instIndex ∧ t.draws = s.draws ∧ t.hostFault = s.hostFault ∧ t.turns = s.turns ∧
        t.host.length = s.outLen.toNat + rest.length ∧
        (∀ k, k < s.outLen.toNat → t.host[k]? =
          some (.tx { sp := .outBuf, write := false, addr := BitVec.ofNat 32 k, data := 0 })) ∧
        t.host.drop s.outLen.toNat = rest)

/-- R158: the reset input, at any time. Unwritten buffer bytes are what makes every read of them a draw.
That the host's remaining operations stay is the model's choice (log entry 18). -/
def Obligations.ResetInputClears : Prop :=
  ∀ (s : State) (rest : List HostOp), s.host = .reset :: rest →
    ∃ t, hostMove s = .next t ∧
      t.cmd = 0 ∧ t.status = 0 ∧ t.inLen = 0 ∧ t.outLen = 0 ∧ t.seq = .idle ∧ t.i = 0 ∧ t.o = 0 ∧
      t.trimE = 0 ∧ t.pv = 0 ∧ t.pvValid = false ∧ t.accB = 0 ∧ t.accN = 0 ∧
      (∀ a, t.inBuf.read a = none) ∧ (∀ a, t.outBuf.read a = none) ∧
      t.hostFault = s.hostFault ∧ t.cfg = s.cfg ∧ t.host = rest

/-- R162, R158: every well-formed configuration boots into the reset state, with an empty HOSTFAULT (R35)
and no buffer byte written; any other is refused; and well formed is exactly what R6, R103 and decision D4
ask. That a model refuses on the conditions that R6 states in its table, and on D4's, and not only on the
two that R6 names in so many words, is the model's inference (log entry 4). -/
def Obligations.BootStartsInReset : Prop :=
  (∀ p : Params, p.wf = true → ∃ s, State.boot p = .next s ∧ s.cfg.toParams = p ∧
    s.cmd = 0 ∧ s.status = 0 ∧ s.inLen = 0 ∧ s.outLen = 0 ∧ s.seq = .idle ∧ s.i = 0 ∧ s.o = 0 ∧
    s.trimE = 0 ∧ s.pv = 0 ∧ s.pvValid = false ∧ s.accB = 0 ∧ s.accN = 0 ∧
    (∀ a, s.inBuf.read a = none ∧ s.outBuf.read a = none) ∧ ∀ r, s.hostFault.has r = false) ∧
  (∀ p : Params, p.wf = false → State.boot p = .refused .illFormedConfig) ∧
  ∀ p : Params, p.wf = true ↔
    0 < p.inCap ∧ p.inCap < 2 ^ 32 ∧ 2 * p.inCap ≤ p.outCap ∧
    p.alphabet.length = 91 ∧ p.alphabet.Nodup ∧
    0x20 ∈ p.whitespace ∧ (∀ (upper : Bool) (k : BitVec 4), hexLut upper k ∉ p.whitespace) ∧
    1 ≤ p.nInst

/-! ## The tables and the arithmetic -/

/-- R93: the closed form of the two hex tables; R101: NIB of every code, by its formula and by its table,
and NIB inverts both hex tables. -/
def Obligations.HexTablesAndNib : Prop :=
  (∀ k : BitVec 4,
    (hexLut true k).toNat = (if k.toNat < 10 then 0x30 + k.toNat else 0x41 + (k.toNat - 10)) ∧
    (hexLut false k).toNat = (if k.toNat < 10 then 0x30 + k.toNat else 0x61 + (k.toNat - 10)) ∧
    nib (hexLut true k) = k.toNat ∧ nib (hexLut false k) = k.toNat) ∧
  ∀ c : Byte,
    nib c = (c.toNat &&& 0xF) + (((c.toNat &&& 0x40) >>> 6) * 9) ∧
    nib c = (c.extractLsb' 0 4).toNat + (if c.getLsbD 6 then 9 else 0) ∧ nib c ≤ 24

/-- R127, R72: B91_DEC_ROM of every well-formed configuration. -/
def Obligations.DecodeRomInvertsAlphabet : Prop :=
  ∀ (c : Config) (symbol : Byte),
    (∀ k, c.alphabet[k]? = some symbol →
      decRom c.toParams symbol = (1 : BitVec 1) ++ BitVec.ofNat 7 k ∧ k ≤ 90) ∧
    (symbol ∉ c.alphabet → decRom c.toParams symbol = 0x00)

/-- R111: with the caller's guarantees PUSH loses no bit, and its OR is an addition. -/
def Obligations.PushIsExact : Prop :=
  ∀ (s : State) (x w : Nat), s.accB.toNat < 2 ^ s.accN.toNat → x < 2 ^ w → s.accN.toNat + w ≤ 31 →
    (push x w s).accB.toNat = s.accB.toNat + x * 2 ^ s.accN.toNat ∧
    (push x w s).accB.toNat = s.accB.toNat ||| (x <<< s.accN.toNat) ∧
    (push x w s).accN.toNat = s.accN.toNat + w ∧
    (push x w s).accB.toNat < 2 ^ (push x w s).accN.toNat

/-- R112, R113: LOW reads the low bits, whatever ACC_N is; POP discards them and reduces the held bit
count by exactly the width. -/
def Obligations.LowAndPopSplitTheAccumulator : Prop :=
  (∀ (s : State) (k : Nat),
    low k s = s.accB.toNat &&& (2 ^ k - 1) ∧ low k s = s.accB.toNat % 2 ^ k) ∧
  ∀ (s : State) (w : Nat), w ≤ s.accN.toNat →
    (pop w s).accB.toNat = s.accB.toNat >>> w ∧ (pop w s).accN.toNat = s.accN.toNat - w ∧
    s.accB.toNat = (pop w s).accB.toNat * 2 ^ w + low w s ∧
    (s.accB.toNat < 2 ^ s.accN.toNat → (pop w s).accB.toNat < 2 ^ (pop w s).accN.toNat)

/-- R115: the range of a group value, and that the decoder sees the encoder's width. -/
def Obligations.GroupValueRange : Prop :=
  ∀ b v : Nat, v = lowBits (gsel b) b →
    v ≤ 8280 ∧ v % 91 ≤ 90 ∧ v / 91 ≤ 90 ∧ gsel v = gsel b ∧ v < 2 ^ gsel v ∧
    (gsel b = 13 → v = b % 8192 ∧ 89 ≤ v ∧ v ≤ 8191) ∧
    (gsel b = 14 → v = b % 8192 + 8192 * (b / 8192 % 2) ∧ b % 8192 ≤ 88) ∧
    (gsel b = 13 ∨ gsel b = 14)

/-! ## The frame-level functions and their laws -/

/-- R98, R99: the length law and the case law. -/
def Obligations.HexEncodeLengthAndCase : Prop :=
  (∀ (upper : Bool) (x y : List Byte), hexEncode upper x = .ok y → y.length = 2 * x.length) ∧
  ∀ x : List Byte, hexSymbols true x =
    (hexSymbols false x).map fun c => if 0x61 ≤ c.toNat ∧ c.toNat ≤ 0x66 then c - 0x20 else c

/-- R109: the hex round trip, for every well-formed whitespace set. -/
def Obligations.HexRoundTrip : Prop :=
  ∀ (c : Config) (upper : Bool) (x : List Byte), x ≠ [] →
    ∃ y, hexEncode upper x = .ok y ∧ hexDecode c.toParams y = .ok x

/-- R104: trim keeps a contiguous part that neither begins nor ends with whitespace, and drops only
whitespace. -/
def Obligations.TrimSplitsTheFrame : Prop :=
  ∀ (p : Params) (x : List Byte), ∃ pre post, x = pre ++ trim p x ++ post ∧
    (∀ b, b ∈ pre ∨ b ∈ post → b ∈ p.whitespace) ∧
    (∀ b, (trim p x).head? = some b ∨ (trim p x).getLast? = some b → b ∉ p.whitespace)

/-- R126: the output length bound of base91 encode, and that every index is a digit. The quotient is
the ceiling of `8 * len(x) / 13`. -/
def Obligations.Base91EncodeLength : Prop :=
  ∀ x : List Byte, (base91EncodeIdx x).length ≤ 2 * ((8 * x.length + 12) / 13) ∧
    (base91EncodeIdx x).length ≤ 2 * x.length ∧
    (∀ k, k ∈ base91EncodeIdx x → k ≤ 90) ∧
    ∀ c : Config, (base91Encode c.toParams x).length = (base91EncodeIdx x).length

/-- R133: the tolerance law. -/
def Obligations.Base91DecodeIgnoresUnknown : Prop :=
  ∀ (p : Params) (x : List Byte), base91Decode p x = base91Decode p (stripUnknown p x)

/-- R134: the base91 round trip, for every well-formed alphabet and every frame, the empty one included. -/
def Obligations.Base91RoundTrip : Prop :=
  ∀ (c : Config) (x : List Byte), base91Decode c.toParams (base91Encode c.toParams x) = x

/-- R135: the output length bound of base91 decode. -/
def Obligations.Base91DecodeLength : Prop :=
  ∀ (p : Params) (x : List Byte), (base91Decode p x).length ≤ (stripUnknown p x).length

/-! ## Whole commands -/

/-- R97 for HEXENC.U and HEXENC.L, with the step count of R84 and R169 and OUT_BUF elsewhere untouched
(R62): on a written, non-empty frame that fits
IN_BUF, with the CORE left to run, the command finishes after `len(x) + 1` steps with hex_encode of the
frame. The premise on `2 * len(x)` is what the 32-bit OUT_LEN can hold (log entry 9). -/
def Obligations.HexencRunsToCompletion : Prop :=
  ∀ (s : State) (x : List Byte), s.busy = false → s.turns = [] → s.HoldsFrame x → x ≠ [] →
    x.length ≤ s.cfg.inCap → 2 * x.length < 2 ^ 32 →
    (∃ s1 t, exec .hexencU s = .next s1 ∧ Host.Core.run Sys2Proof.core (x.length + 1) s1 = .next t ∧
      t.Finished .ok (hexSymbols true x) s) ∧
    (∃ s1 t, exec .hexencL s = .next s1 ∧ Host.Core.run Sys2Proof.core (x.length + 1) s1 = .next t ∧
      t.Finished .ok (hexSymbols false x) s)

/-- R108 for HEXDEC, with the step counts of R84 and R169 and OUT_BUF elsewhere untouched (R62): the
decoded bytes after `1 + T/2 + 1` steps, or the error after one. -/
def Obligations.HexdecRunsToCompletion : Prop :=
  ∀ (s : State) (x : List Byte), s.busy = false → s.turns = [] → s.HoldsFrame x →
    x.length ≤ s.cfg.inCap →
    ∃ s1, exec .hexdec s = .next s1 ∧
      (∀ y, hexDecode s.cfg.toParams x = .ok y →
        ∃ t, Host.Core.run Sys2Proof.core ((trim s.cfg.toParams x).length / 2 + 2) s1 = .next t ∧
          t.Finished .ok y s) ∧
      ∀ e, hexDecode s.cfg.toParams x = .error e →
        ∃ t, Host.Core.run Sys2Proof.core 1 s1 = .next t ∧ t.Finished e [] s

/-- R125 for B91ENC, with the step bound of R84 and OUT_BUF elsewhere untouched (R62): on a written frame
that fits IN_BUF, the empty one included, the command finishes within `3 * len(x) + 3` steps with
base91_encode of the frame. The premise on the output length is what the 32-bit OUT_LEN can hold (log
entry 9). -/
def Obligations.B91encRunsToCompletion : Prop :=
  ∀ (s : State) (x : List Byte), s.busy = false → s.turns = [] → s.HoldsFrame x →
    x.length ≤ s.cfg.inCap → (base91EncodeIdx x).length < 2 ^ 32 →
    ∃ s1 n t, exec .b91enc s = .next s1 ∧ n ≤ 3 * x.length + 3 ∧
      Host.Core.run Sys2Proof.core n s1 = .next t ∧ t.Finished .ok (base91Encode s.cfg.toParams x) s

/-- R132 for B91DEC, with the step bound of R84 and OUT_BUF elsewhere untouched (R62): on a written frame
that fits IN_BUF, the empty one included, the command finishes within `3 * len(x) + 3` steps with
base91_decode of the frame. -/
def Obligations.B91decRunsToCompletion : Prop :=
  ∀ (s : State) (x : List Byte), s.busy = false → s.turns = [] → s.HoldsFrame x →
    x.length ≤ s.cfg.inCap →
    ∃ s1 n t, exec .b91dec s = .next s1 ∧ n ≤ 3 * x.length + 3 ∧
      Host.Core.run Sys2Proof.core n s1 = .next t ∧ t.Finished .ok (base91Decode s.cfg.toParams x) s

/-- R84: every command finishes within `3 * IN_LEN + 3` steps, whatever the frame contents, draws
included. -/
def Obligations.EveryCommandFinishes : Prop :=
  ∀ (i : Instr) (s s1 : State), s.Inv → s.busy = false → s.turns = [] → exec i s = .next s1 →
    ∃ n t, n ≤ 3 * s.inLen.toNat + 3 ∧ Host.Core.run Sys2Proof.core n s1 = .next t ∧
      t.seq = .idle ∧ t.status.getLsbD 1 = true ∧ t.status.getLsbD 0 = false

/-! ## The invariant and the whole machine -/

/-- The invariant holds in the reset state of every configuration (R158, R162). -/
def Obligations.InvariantAtReset : Prop :=
  (∀ c : Config, (State.resetWith c).Inv) ∧ State.reset.Inv

/-- Every step keeps the invariant, whatever the host does and whoever moves. -/
def Obligations.StepKeepsInvariant : Prop :=
  ∀ s t : State, s.Inv → step s = .next t → t.Inv

/-- R136, R144: from a state that satisfies the invariant no step faults and none is refused. -/
def Obligations.NoStepFaults : Prop :=
  ∀ s : State, s.Inv → ∃ t, step s = .next t

/-- R116: the accumulator's bound during every base91 command, in every state that satisfies the
invariant, and after the step from it. -/
def Obligations.AccumulatorWidthBound : Prop :=
  ∀ s t : State, s.Inv → decode s.cmd = .legal .b91enc ∨ decode s.cmd = .legal .b91dec →
    s.seq ≠ .idle → coreStep s = .next t →
    (s.accN.toNat ≤ 21 ∧ s.accB.toNat < 2 ^ s.accN.toNat) ∧
    t.accN.toNat ≤ 21 ∧ t.accB.toNat < 2 ^ t.accN.toNat ∧ t.accB.toNat < 2 ^ 21

/-- R20, R26: STATUS.BUSY is 1 exactly when STATE is not IDLE, BUSY and DONE are never 1 together, and
the reserved bits of STATUS read 0, in every state that satisfies the invariant. -/
def Obligations.StatusBitsAreConsistent : Prop :=
  ∀ s : State, s.Inv →
    (s.busy = true ↔ s.seq ≠ .idle) ∧ ¬(s.status.getLsbD 0 = true ∧ s.status.getLsbD 1 = true) ∧
    (∀ k, k = 2 ∨ k = 3 ∨ 7 ≤ k → s.status.getLsbD k = false) ∧
    (s.status.extractLsb' 4 3).toNat ≤ 4

/-- R35: nothing ever removes a reason from HOSTFAULT; and no step changes the configuration, hence none
of the read-only tables (R41), nor the model's own number of the CORE (log entry 27). -/
def Obligations.HostFaultOnlyGrows : Prop :=
  ∀ s t : State, step s = .next t →
    (∀ r, s.hostFault.has r = true → t.hostFault.has r = true) ∧ t.cfg = s.cfg ∧
    t.instIndex = s.instIndex

/-- R77, R82, R90: a step out of IDLE is the write of a legal command word to CMD, and nothing else. -/
def Obligations.OnlyCommandWritesLeaveIdle : Prop :=
  ∀ s t : State, s.seq = .idle → step s = .next t → t.seq ≠ .idle →
    ∃ x rest i, s.mover = .host ∧ s.host = .tx x :: rest ∧ x.writesCmd = true ∧
      decode x.data = .legal i ∧ t.cmd = x.data ∧ t.seq.serves i ∧ s.busy = false

/-- R22, R25, R53: once a command has finished, its STATUS, OUT_LEN and output stay, and CMD with them,
until the host writes CMD or resets the CORE. -/
def Obligations.ResultStaysUntilNextCommand : Prop :=
  ∀ s t : State, s.seq = .idle → step s = .next t →
    (∀ x rest, s.host = .tx x :: rest → x.writesCmd = false) →
    (∀ rest, s.host ≠ .reset :: rest) →
    t.cmd = s.cmd ∧ t.status = s.status ∧ t.outLen = s.outLen ∧ t.seq = .idle ∧
    ∀ a, t.outBuf.read a = s.outBuf.read a

/-- R145: with every frame byte written, what a CORE step does to the CORE's side is a function of the
CORE's side alone: not of HOSTFAULT, of the host or of the draws. -/
def Obligations.CoreStepDependsOnCoreSideOnly : Prop :=
  ∀ s t s' : State, s.Inv → s.coreSide = t.coreSide → s.FrameWritten → coreStep s = .next s' →
    ∃ t', coreStep t = .next t' ∧ t'.coreSide = s'.coreSide

/-- R145, R51, R54: while a command runs on a written frame, no host program without a reset and no
schedule changes what it computes: after any number of steps the CORE's side is that of the command run
alone for some number of steps. -/
def Obligations.ScheduleCannotChangeTheResult : Prop :=
  ∀ (n : Nat) (s t : State), s.Inv → s.seq ≠ .idle → s.FrameWritten → HostOp.reset ∉ s.host →
    (∀ m u, m < n → Host.Core.run Sys2Proof.core m s = .next u → u.seq ≠ .idle) →
    Host.Core.run Sys2Proof.core n s = .next t →
    ∃ k u, k ≤ n ∧ Host.Core.run Sys2Proof.core k { s with turns := [] } = .next u ∧
      t.coreSide = u.coreSide

/-- R164: from a phase that fits the state, a host that keeps P1 and P3 for `n` steps leaves HOSTFAULT
empty; a host that keeps P2 reads OUT_LEN and OUT_BUF only when no command runs and DONE = 1; and a step
that breaks P3, or writes while a command runs, leaves HOSTFAULT not empty (R146, R147); and both hold along
every run of a host that conforms in every run. `keeps` covers every way of waiting, by plain STATUS reads
or by POLL, and `s` any schedule. The model's choices in it: the
reset input ends P1's window (log entry 25), and every read of OUT_LEN or OUT_BUF counts as taking output
(log entry 26). -/
def Obligations.ConformingHostNeverFaults : Prop :=
  (∀ (n : Nat) (p : HostPhase) (s t : State),
    s.Inv → s.hostFault = FaultSet.empty → (s.busy = true → p = .waiting) →
    State.keeps (fun q u => keepsP1 q u && keepsP3 q u) n p s = true →
    Host.Core.run Sys2Proof.core n s = .next t → t.hostFault = FaultSet.empty) ∧
  (∀ (n : Nat) (p : HostPhase) (s t : State),
    s.Inv → (s.busy = true → p = .waiting) → (p = .ready → s.status.getLsbD 1 = true) →
    State.keeps keepsP2 (n + 1) p s = true →
    Host.Core.run Sys2Proof.core n s = .next t → t.takesOutput = true →
    t.busy = false ∧ t.status.getLsbD 1 = true) ∧
  (∀ (s t : State) (x : Transaction), s.nextOp = some (.tx x) →
    x.mapped s.cfg.toParams = false ∨ (x.write = true ∧ s.busy = true) →
    step s = .next t → t.hostFault ≠ FaultSet.empty) ∧
  ∀ s : State, s.Inv → s.busy = false → s.hostFault = FaultSet.empty → s.HostConforms →
    ∀ (turns : List Agent) (n : Nat) (t : State),
      Host.Core.run Sys2Proof.core n { s with turns := turns } = .next t →
      t.hostFault = FaultSet.empty ∧
      (t.takesOutput = true → t.busy = false ∧ t.status.getLsbD 1 = true)

/-- R60, R155: a step of one instance is that instance's own step, and every other instance keeps its
state; the reset system has `N_INST` instances, each in the reset state of the one configuration and with
a number of its own, by which its draws are its own (R61). That a system is a list of States, and that a
CORE has a number, is the model's choice (log entries 15 and 27). -/
def Obligations.InstancesAreIndependent : Prop :=
  (∀ c : Config, (resetSystem c).length = c.nInst ∧
    ∀ k, k < c.nInst → (resetSystem c)[k]? = some { State.resetWith c with instIndex := k }) ∧
  ∀ (k : Nat) (s : State) (sys sys' : List State), sys[k]? = some s → stepInstance k sys = .next sys' →
    ∃ t, step s = .next t ∧ t.instIndex = s.instIndex ∧ sys'[k]? = some t ∧ sys'.length = sys.length ∧
      ∀ j, j ≠ k → sys'[j]? = sys[j]?

/-- Reading a buffer byte after a write (R39, R47): the written byte there, and the old byte elsewhere;
and a write keeps the canonical form. -/
def Obligations.BufferReadAfterWrite : Prop :=
  ∀ (cap a : Nat) (v : Byte) (m : Memory), m.wf cap = true → a < cap →
    (m.write a v).read a = some v ∧ (∀ b, b ≠ a → (m.write a v).read b = m.read b) ∧
    (m.write a v).wf cap = true

/-- R75 with R85 and R88: on an idle machine LOADIN writes the frame in one step a byte and one for IN_LEN;
bytes beyond it and everything else of the CORE's side stay. -/
def Obligations.LoadinStoresTheFrame : Prop :=
  ∀ (s : State) (x : List Byte) (rest : List HostOp), s.seq = .idle → s.busy = false → s.turns = [] →
    s.host = (AsmLine.loadin x).expand ++ rest → x.length ≤ s.cfg.inCap →
    ∃ t, Host.Core.run Sys2Proof.core (x.length + 1) s = .next t ∧ t.HoldsFrame x ∧ t.host = rest ∧
      t.hostFault = s.hostFault ∧ (∀ a, x.length ≤ a → t.inBuf.read a = s.inBuf.read a) ∧
      t.coreSide = { s.coreSide with inLen := t.inLen, inBuf := t.inBuf }
end

