-- ==== Sys2Proof/Laws/Memory.lean ====
section
/-! SUPPORT. Buffer memory: what a read sees after a write, and that a write keeps the canonical form. -/

namespace Sys2Proof.Machine

@[simp] theorem Memory.read_nil (a : Nat) : Memory.read [] a = none := rfl

theorem Memory.read_write_same (m : Memory) (a : Nat) (v : Byte) :
    (Memory.write m a v).read a = some v := by
  induction m with
  | nil => simp [Memory.write, Memory.read]
  | cons c m ih =>
    obtain ⟨b, w⟩ := c
    simp only [Memory.write]
    split_ifs with h₁ h₂ <;> simp [Memory.read, *]

theorem Memory.read_write_other (m : Memory) {a b : Nat} (v : Byte) (h : b ≠ a) :
    (Memory.write m a v).read b = m.read b := by
  induction m with
  | nil => simp [Memory.write, Memory.read, h.symm]
  | cons c m ih =>
    obtain ⟨d, w⟩ := c
    simp only [Memory.write]
    split_ifs with h₁ h₂
    · simp [Memory.read, h.symm]
    · subst h₂; simp [Memory.read, h.symm]
    · simp [Memory.read, ih]

/-- A read after a write, at any address. -/
theorem Memory.read_write (m : Memory) (a b : Nat) (v : Byte) :
    (Memory.write m a v).read b = if b = a then some v else m.read b := by
  split_ifs with h
  · rw [h, read_write_same]
  · exact read_write_other m v h

theorem Memory.mem_write {m : Memory} {a : Nat} {v : Byte} {c : Host.Cell}
    (h : c ∈ Memory.write m a v) : c = (a, v) ∨ c ∈ m := by
  induction m with
  | nil => simpa [Memory.write] using h
  | cons d m ih =>
    obtain ⟨b, w⟩ := d
    simp only [Memory.write] at h
    split_ifs at h with h₁ h₂
    · simpa using h
    · simp only [List.mem_cons] at h ⊢; tauto
    · simp only [List.mem_cons] at h ⊢
      rcases h with h | h
      · tauto
      · rcases ih h with h | h <;> tauto

theorem Memory.wf_iff {cap : Nat} {m : Memory} :
    m.wf cap = true ↔ m.Pairwise (fun x y => x.1 < y.1) ∧ ∀ c ∈ m, c.1 < cap := by
  simp [Memory.wf]

theorem Memory.wf_nil (cap : Nat) : Memory.wf cap [] = true := by simp [Memory.wf]

/-- A write below the capacity keeps the canonical form. -/
theorem Memory.wf_write {cap : Nat} {m : Memory} {a : Nat} (v : Byte)
    (hm : m.wf cap = true) (ha : a < cap) : (m.write a v).wf cap = true := by
  rw [Memory.wf_iff] at hm ⊢
  refine ⟨?_, fun c hc => ?_⟩
  · have hp := hm.1
    clear hm
    induction m with
    | nil => simp [Memory.write]
    | cons d m ih =>
      obtain ⟨b, w⟩ := d
      rw [List.pairwise_cons] at hp
      simp only [Memory.write]
      split_ifs with h₁ h₂
      · refine List.pairwise_cons.2 ⟨fun c hc => ?_, List.pairwise_cons.2 hp⟩
        rcases List.mem_cons.1 hc with rfl | hc
        · exact h₁
        · exact lt_trans h₁ (hp.1 c hc)
      · subst h₂; exact List.pairwise_cons.2 ⟨hp.1, hp.2⟩
      · refine List.pairwise_cons.2 ⟨fun c hc => ?_, ih hp.2⟩
        rcases Memory.mem_write hc with rfl | hc
        · exact lt_of_le_of_ne (Nat.le_of_not_lt h₁) h₂
        · exact hp.1 c hc
  · rcases Memory.mem_write hc with rfl | hc
    · exact ha
    · exact hm.2 c hc

theorem Memory.read_eq_some_mem {m : Memory} {a : Nat} {v : Byte} (h : m.read a = some v) : (a, v) ∈ m := by
  induction m with
  | nil => simp at h
  | cons c m ih =>
    obtain ⟨b, w⟩ := c
    simp only [Memory.read] at h
    split_ifs at h with hb
    · simp_all
    · exact List.mem_cons_of_mem _ (ih h)

/-- In canonical form nothing is written at or above the capacity. -/
theorem Memory.read_eq_none_of_wf {cap : Nat} {m : Memory} (hm : m.wf cap = true) {a : Nat} (ha : cap ≤ a) :
    m.read a = none := by
  rw [Memory.wf_iff] at hm
  by_contra h
  obtain ⟨v, hv⟩ := Option.ne_none_iff_exists'.1 h
  exact absurd (hm.2 _ (Memory.read_eq_some_mem hv)) (Nat.not_lt.2 ha)

end Sys2Proof.Machine
end

