-- ==== Sys2Proof/Laws/State.lean ====
section
/-! SUPPORT. One lemma per field of State per update, each true by definition, so that no later proof
unfolds a record update. -/

namespace Sys2Proof.Machine

/-! ## startClear -/

@[simp] theorem startClear_cfg (w : Word) (s : State) : (startClear w s).cfg = s.cfg := rfl
@[simp] theorem startClear_cmd (w : Word) (s : State) : (startClear w s).cmd = w := rfl
@[simp] theorem startClear_status (w : Word) (s : State) : (startClear w s).status = busyStatus := rfl
@[simp] theorem startClear_inLen (w : Word) (s : State) : (startClear w s).inLen = s.inLen := rfl
@[simp] theorem startClear_outLen (w : Word) (s : State) : (startClear w s).outLen = 0 := rfl
@[simp] theorem startClear_seq (w : Word) (s : State) : (startClear w s).seq = s.seq := rfl
@[simp] theorem startClear_i (w : Word) (s : State) : (startClear w s).i = 0 := rfl
@[simp] theorem startClear_o (w : Word) (s : State) : (startClear w s).o = 0 := rfl
@[simp] theorem startClear_trimE (w : Word) (s : State) : (startClear w s).trimE = 0 := rfl
@[simp] theorem startClear_pv (w : Word) (s : State) : (startClear w s).pv = 0 := rfl
@[simp] theorem startClear_pvValid (w : Word) (s : State) : (startClear w s).pvValid = false := rfl
@[simp] theorem startClear_accB (w : Word) (s : State) : (startClear w s).accB = 0 := rfl
@[simp] theorem startClear_accN (w : Word) (s : State) : (startClear w s).accN = 0 := rfl
@[simp] theorem startClear_inBuf (w : Word) (s : State) : (startClear w s).inBuf = s.inBuf := rfl
@[simp] theorem startClear_outBuf (w : Word) (s : State) : (startClear w s).outBuf = s.outBuf := rfl
@[simp] theorem startClear_hostFault (w : Word) (s : State) : (startClear w s).hostFault = s.hostFault := rfl
@[simp] theorem startClear_instIndex (w : Word) (s : State) : (startClear w s).instIndex = s.instIndex := rfl
@[simp] theorem startClear_draws (w : Word) (s : State) : (startClear w s).draws = s.draws := rfl
@[simp] theorem startClear_rdata (w : Word) (s : State) : (startClear w s).rdata = s.rdata := rfl
@[simp] theorem startClear_host (w : Word) (s : State) : (startClear w s).host = s.host := rfl
@[simp] theorem startClear_turns (w : Word) (s : State) : (startClear w s).turns = s.turns := rfl

/-! ## finish -/

@[simp] theorem finish_cfg (e : ErrCode) (s : State) : (finish e s).cfg = s.cfg := rfl
@[simp] theorem finish_cmd (e : ErrCode) (s : State) : (finish e s).cmd = s.cmd := rfl
@[simp] theorem finish_status (e : ErrCode) (s : State) : (finish e s).status = doneStatus e := rfl
@[simp] theorem finish_inLen (e : ErrCode) (s : State) : (finish e s).inLen = s.inLen := rfl
@[simp] theorem finish_outLen (e : ErrCode) (s : State) :
    (finish e s).outLen = if e = .ok then s.o else 0 := rfl
@[simp] theorem finish_seq (e : ErrCode) (s : State) : (finish e s).seq = .idle := rfl
@[simp] theorem finish_i (e : ErrCode) (s : State) : (finish e s).i = s.i := rfl
@[simp] theorem finish_o (e : ErrCode) (s : State) : (finish e s).o = s.o := rfl
@[simp] theorem finish_trimE (e : ErrCode) (s : State) : (finish e s).trimE = s.trimE := rfl
@[simp] theorem finish_pv (e : ErrCode) (s : State) : (finish e s).pv = s.pv := rfl
@[simp] theorem finish_pvValid (e : ErrCode) (s : State) : (finish e s).pvValid = s.pvValid := rfl
@[simp] theorem finish_accB (e : ErrCode) (s : State) : (finish e s).accB = s.accB := rfl
@[simp] theorem finish_accN (e : ErrCode) (s : State) : (finish e s).accN = s.accN := rfl
@[simp] theorem finish_inBuf (e : ErrCode) (s : State) : (finish e s).inBuf = s.inBuf := rfl
@[simp] theorem finish_outBuf (e : ErrCode) (s : State) : (finish e s).outBuf = s.outBuf := rfl
@[simp] theorem finish_hostFault (e : ErrCode) (s : State) : (finish e s).hostFault = s.hostFault := rfl
@[simp] theorem finish_instIndex (e : ErrCode) (s : State) : (finish e s).instIndex = s.instIndex := rfl
@[simp] theorem finish_draws (e : ErrCode) (s : State) : (finish e s).draws = s.draws := rfl
@[simp] theorem finish_rdata (e : ErrCode) (s : State) : (finish e s).rdata = s.rdata := rfl
@[simp] theorem finish_host (e : ErrCode) (s : State) : (finish e s).host = s.host := rfl
@[simp] theorem finish_turns (e : ErrCode) (s : State) : (finish e s).turns = s.turns := rfl

/-! ## raiseHostFault -/

@[simp] theorem raiseHostFault_cfg (r : HostFault) (s : State) : (raiseHostFault r s).cfg = s.cfg := rfl
@[simp] theorem raiseHostFault_cmd (r : HostFault) (s : State) : (raiseHostFault r s).cmd = s.cmd := rfl
@[simp] theorem raiseHostFault_status (r : HostFault) (s : State) :
    (raiseHostFault r s).status = s.status := rfl
@[simp] theorem raiseHostFault_inLen (r : HostFault) (s : State) : (raiseHostFault r s).inLen = s.inLen := rfl
@[simp] theorem raiseHostFault_outLen (r : HostFault) (s : State) :
    (raiseHostFault r s).outLen = s.outLen := rfl
@[simp] theorem raiseHostFault_seq (r : HostFault) (s : State) : (raiseHostFault r s).seq = s.seq := rfl
@[simp] theorem raiseHostFault_i (r : HostFault) (s : State) : (raiseHostFault r s).i = s.i := rfl
@[simp] theorem raiseHostFault_o (r : HostFault) (s : State) : (raiseHostFault r s).o = s.o := rfl
@[simp] theorem raiseHostFault_trimE (r : HostFault) (s : State) : (raiseHostFault r s).trimE = s.trimE := rfl
@[simp] theorem raiseHostFault_pv (r : HostFault) (s : State) : (raiseHostFault r s).pv = s.pv := rfl
@[simp] theorem raiseHostFault_pvValid (r : HostFault) (s : State) :
    (raiseHostFault r s).pvValid = s.pvValid := rfl
@[simp] theorem raiseHostFault_accB (r : HostFault) (s : State) : (raiseHostFault r s).accB = s.accB := rfl
@[simp] theorem raiseHostFault_accN (r : HostFault) (s : State) : (raiseHostFault r s).accN = s.accN := rfl
@[simp] theorem raiseHostFault_inBuf (r : HostFault) (s : State) : (raiseHostFault r s).inBuf = s.inBuf := rfl
@[simp] theorem raiseHostFault_outBuf (r : HostFault) (s : State) :
    (raiseHostFault r s).outBuf = s.outBuf := rfl
@[simp] theorem raiseHostFault_hostFault (r : HostFault) (s : State) :
    (raiseHostFault r s).hostFault = s.hostFault.add r := rfl
@[simp] theorem raiseHostFault_instIndex (r : HostFault) (s : State) :
    (raiseHostFault r s).instIndex = s.instIndex := rfl
@[simp] theorem raiseHostFault_draws (r : HostFault) (s : State) : (raiseHostFault r s).draws = s.draws := rfl
@[simp] theorem raiseHostFault_rdata (r : HostFault) (s : State) : (raiseHostFault r s).rdata = s.rdata := rfl
@[simp] theorem raiseHostFault_host (r : HostFault) (s : State) : (raiseHostFault r s).host = s.host := rfl
@[simp] theorem raiseHostFault_turns (r : HostFault) (s : State) : (raiseHostFault r s).turns = s.turns := rfl

/-! ## draw -/

@[simp] theorem draw_cfg (s : State) : s.draw.2.cfg = s.cfg := rfl
@[simp] theorem draw_cmd (s : State) : s.draw.2.cmd = s.cmd := rfl
@[simp] theorem draw_status (s : State) : s.draw.2.status = s.status := rfl
@[simp] theorem draw_inLen (s : State) : s.draw.2.inLen = s.inLen := rfl
@[simp] theorem draw_outLen (s : State) : s.draw.2.outLen = s.outLen := rfl
@[simp] theorem draw_seq (s : State) : s.draw.2.seq = s.seq := rfl
@[simp] theorem draw_i (s : State) : s.draw.2.i = s.i := rfl
@[simp] theorem draw_o (s : State) : s.draw.2.o = s.o := rfl
@[simp] theorem draw_trimE (s : State) : s.draw.2.trimE = s.trimE := rfl
@[simp] theorem draw_pv (s : State) : s.draw.2.pv = s.pv := rfl
@[simp] theorem draw_pvValid (s : State) : s.draw.2.pvValid = s.pvValid := rfl
@[simp] theorem draw_accB (s : State) : s.draw.2.accB = s.accB := rfl
@[simp] theorem draw_accN (s : State) : s.draw.2.accN = s.accN := rfl
@[simp] theorem draw_inBuf (s : State) : s.draw.2.inBuf = s.inBuf := rfl
@[simp] theorem draw_outBuf (s : State) : s.draw.2.outBuf = s.outBuf := rfl
@[simp] theorem draw_hostFault (s : State) : s.draw.2.hostFault = s.hostFault := rfl
@[simp] theorem draw_instIndex (s : State) : s.draw.2.instIndex = s.instIndex := rfl
@[simp] theorem draw_draws (s : State) : s.draw.2.draws = s.draws + 1 := rfl
@[simp] theorem draw_rdata (s : State) : s.draw.2.rdata = s.rdata := rfl
@[simp] theorem draw_host (s : State) : s.draw.2.host = s.host := rfl
@[simp] theorem draw_turns (s : State) : s.draw.2.turns = s.turns := rfl

/-! ## push -/

@[simp] theorem push_cfg (x w : Nat) (s : State) : (push x w s).cfg = s.cfg := rfl
@[simp] theorem push_cmd (x w : Nat) (s : State) : (push x w s).cmd = s.cmd := rfl
@[simp] theorem push_status (x w : Nat) (s : State) : (push x w s).status = s.status := rfl
@[simp] theorem push_inLen (x w : Nat) (s : State) : (push x w s).inLen = s.inLen := rfl
@[simp] theorem push_outLen (x w : Nat) (s : State) : (push x w s).outLen = s.outLen := rfl
@[simp] theorem push_seq (x w : Nat) (s : State) : (push x w s).seq = s.seq := rfl
@[simp] theorem push_i (x w : Nat) (s : State) : (push x w s).i = s.i := rfl
@[simp] theorem push_o (x w : Nat) (s : State) : (push x w s).o = s.o := rfl
@[simp] theorem push_trimE (x w : Nat) (s : State) : (push x w s).trimE = s.trimE := rfl
@[simp] theorem push_pv (x w : Nat) (s : State) : (push x w s).pv = s.pv := rfl
@[simp] theorem push_pvValid (x w : Nat) (s : State) : (push x w s).pvValid = s.pvValid := rfl
@[simp] theorem push_accB (x w : Nat) (s : State) :
    (push x w s).accB = BitVec.ofNat 32 (s.accB.toNat ||| (x <<< s.accN.toNat)) := rfl
@[simp] theorem push_accN (x w : Nat) (s : State) :
    (push x w s).accN = BitVec.ofNat 5 (s.accN.toNat + w) := rfl
@[simp] theorem push_inBuf (x w : Nat) (s : State) : (push x w s).inBuf = s.inBuf := rfl
@[simp] theorem push_outBuf (x w : Nat) (s : State) : (push x w s).outBuf = s.outBuf := rfl
@[simp] theorem push_hostFault (x w : Nat) (s : State) : (push x w s).hostFault = s.hostFault := rfl
@[simp] theorem push_instIndex (x w : Nat) (s : State) : (push x w s).instIndex = s.instIndex := rfl
@[simp] theorem push_draws (x w : Nat) (s : State) : (push x w s).draws = s.draws := rfl
@[simp] theorem push_rdata (x w : Nat) (s : State) : (push x w s).rdata = s.rdata := rfl
@[simp] theorem push_host (x w : Nat) (s : State) : (push x w s).host = s.host := rfl
@[simp] theorem push_turns (x w : Nat) (s : State) : (push x w s).turns = s.turns := rfl

/-! ## pop -/

@[simp] theorem pop_cfg (w : Nat) (s : State) : (pop w s).cfg = s.cfg := rfl
@[simp] theorem pop_cmd (w : Nat) (s : State) : (pop w s).cmd = s.cmd := rfl
@[simp] theorem pop_status (w : Nat) (s : State) : (pop w s).status = s.status := rfl
@[simp] theorem pop_inLen (w : Nat) (s : State) : (pop w s).inLen = s.inLen := rfl
@[simp] theorem pop_outLen (w : Nat) (s : State) : (pop w s).outLen = s.outLen := rfl
@[simp] theorem pop_seq (w : Nat) (s : State) : (pop w s).seq = s.seq := rfl
@[simp] theorem pop_i (w : Nat) (s : State) : (pop w s).i = s.i := rfl
@[simp] theorem pop_o (w : Nat) (s : State) : (pop w s).o = s.o := rfl
@[simp] theorem pop_trimE (w : Nat) (s : State) : (pop w s).trimE = s.trimE := rfl
@[simp] theorem pop_pv (w : Nat) (s : State) : (pop w s).pv = s.pv := rfl
@[simp] theorem pop_pvValid (w : Nat) (s : State) : (pop w s).pvValid = s.pvValid := rfl
@[simp] theorem pop_accB (w : Nat) (s : State) : (pop w s).accB = BitVec.ofNat 32 (s.accB.toNat >>> w) := rfl
@[simp] theorem pop_accN (w : Nat) (s : State) : (pop w s).accN = BitVec.ofNat 5 (s.accN.toNat - w) := rfl
@[simp] theorem pop_inBuf (w : Nat) (s : State) : (pop w s).inBuf = s.inBuf := rfl
@[simp] theorem pop_outBuf (w : Nat) (s : State) : (pop w s).outBuf = s.outBuf := rfl
@[simp] theorem pop_hostFault (w : Nat) (s : State) : (pop w s).hostFault = s.hostFault := rfl
@[simp] theorem pop_instIndex (w : Nat) (s : State) : (pop w s).instIndex = s.instIndex := rfl
@[simp] theorem pop_draws (w : Nat) (s : State) : (pop w s).draws = s.draws := rfl
@[simp] theorem pop_rdata (w : Nat) (s : State) : (pop w s).rdata = s.rdata := rfl
@[simp] theorem pop_host (w : Nat) (s : State) : (pop w s).host = s.host := rfl
@[simp] theorem pop_turns (w : Nat) (s : State) : (pop w s).turns = s.turns := rfl

/-! ## resetInput -/

@[simp] theorem resetInput_cfg (s : State) : (resetInput s).cfg = s.cfg := rfl
@[simp] theorem resetInput_cmd (s : State) : (resetInput s).cmd = 0 := rfl
@[simp] theorem resetInput_status (s : State) : (resetInput s).status = 0 := rfl
@[simp] theorem resetInput_inLen (s : State) : (resetInput s).inLen = 0 := rfl
@[simp] theorem resetInput_outLen (s : State) : (resetInput s).outLen = 0 := rfl
@[simp] theorem resetInput_seq (s : State) : (resetInput s).seq = .idle := rfl
@[simp] theorem resetInput_i (s : State) : (resetInput s).i = 0 := rfl
@[simp] theorem resetInput_o (s : State) : (resetInput s).o = 0 := rfl
@[simp] theorem resetInput_trimE (s : State) : (resetInput s).trimE = 0 := rfl
@[simp] theorem resetInput_pv (s : State) : (resetInput s).pv = 0 := rfl
@[simp] theorem resetInput_pvValid (s : State) : (resetInput s).pvValid = false := rfl
@[simp] theorem resetInput_accB (s : State) : (resetInput s).accB = 0 := rfl
@[simp] theorem resetInput_accN (s : State) : (resetInput s).accN = 0 := rfl
@[simp] theorem resetInput_inBuf (s : State) : (resetInput s).inBuf = [] := rfl
@[simp] theorem resetInput_outBuf (s : State) : (resetInput s).outBuf = [] := rfl
@[simp] theorem resetInput_hostFault (s : State) : (resetInput s).hostFault = s.hostFault := rfl
@[simp] theorem resetInput_instIndex (s : State) : (resetInput s).instIndex = s.instIndex := rfl
@[simp] theorem resetInput_draws (s : State) : (resetInput s).draws = s.draws := rfl
@[simp] theorem resetInput_rdata (s : State) : (resetInput s).rdata = s.rdata := rfl
@[simp] theorem resetInput_host (s : State) : (resetInput s).host = s.host := rfl
@[simp] theorem resetInput_turns (s : State) : (resetInput s).turns = s.turns := rfl

/-! ## returnWord -/

@[simp] theorem returnWord_cfg (v : Word) (s : State) : (returnWord v s).cfg = s.cfg := rfl
@[simp] theorem returnWord_cmd (v : Word) (s : State) : (returnWord v s).cmd = s.cmd := rfl
@[simp] theorem returnWord_status (v : Word) (s : State) : (returnWord v s).status = s.status := rfl
@[simp] theorem returnWord_inLen (v : Word) (s : State) : (returnWord v s).inLen = s.inLen := rfl
@[simp] theorem returnWord_outLen (v : Word) (s : State) : (returnWord v s).outLen = s.outLen := rfl
@[simp] theorem returnWord_seq (v : Word) (s : State) : (returnWord v s).seq = s.seq := rfl
@[simp] theorem returnWord_i (v : Word) (s : State) : (returnWord v s).i = s.i := rfl
@[simp] theorem returnWord_o (v : Word) (s : State) : (returnWord v s).o = s.o := rfl
@[simp] theorem returnWord_trimE (v : Word) (s : State) : (returnWord v s).trimE = s.trimE := rfl
@[simp] theorem returnWord_pv (v : Word) (s : State) : (returnWord v s).pv = s.pv := rfl
@[simp] theorem returnWord_pvValid (v : Word) (s : State) : (returnWord v s).pvValid = s.pvValid := rfl
@[simp] theorem returnWord_accB (v : Word) (s : State) : (returnWord v s).accB = s.accB := rfl
@[simp] theorem returnWord_accN (v : Word) (s : State) : (returnWord v s).accN = s.accN := rfl
@[simp] theorem returnWord_inBuf (v : Word) (s : State) : (returnWord v s).inBuf = s.inBuf := rfl
@[simp] theorem returnWord_outBuf (v : Word) (s : State) : (returnWord v s).outBuf = s.outBuf := rfl
@[simp] theorem returnWord_hostFault (v : Word) (s : State) : (returnWord v s).hostFault = s.hostFault := rfl
@[simp] theorem returnWord_instIndex (v : Word) (s : State) : (returnWord v s).instIndex = s.instIndex := rfl
@[simp] theorem returnWord_draws (v : Word) (s : State) : (returnWord v s).draws = s.draws := rfl
@[simp] theorem returnWord_rdata (v : Word) (s : State) : (returnWord v s).rdata = some v := rfl
@[simp] theorem returnWord_host (v : Word) (s : State) : (returnWord v s).host = s.host := rfl
@[simp] theorem returnWord_turns (v : Word) (s : State) : (returnWord v s).turns = s.turns := rfl

/-! ## nextTurn -/

@[simp] theorem nextTurn_cfg (s : State) : s.nextTurn.cfg = s.cfg := rfl
@[simp] theorem nextTurn_cmd (s : State) : s.nextTurn.cmd = s.cmd := rfl
@[simp] theorem nextTurn_status (s : State) : s.nextTurn.status = s.status := rfl
@[simp] theorem nextTurn_inLen (s : State) : s.nextTurn.inLen = s.inLen := rfl
@[simp] theorem nextTurn_outLen (s : State) : s.nextTurn.outLen = s.outLen := rfl
@[simp] theorem nextTurn_seq (s : State) : s.nextTurn.seq = s.seq := rfl
@[simp] theorem nextTurn_i (s : State) : s.nextTurn.i = s.i := rfl
@[simp] theorem nextTurn_o (s : State) : s.nextTurn.o = s.o := rfl
@[simp] theorem nextTurn_trimE (s : State) : s.nextTurn.trimE = s.trimE := rfl
@[simp] theorem nextTurn_pv (s : State) : s.nextTurn.pv = s.pv := rfl
@[simp] theorem nextTurn_pvValid (s : State) : s.nextTurn.pvValid = s.pvValid := rfl
@[simp] theorem nextTurn_accB (s : State) : s.nextTurn.accB = s.accB := rfl
@[simp] theorem nextTurn_accN (s : State) : s.nextTurn.accN = s.accN := rfl
@[simp] theorem nextTurn_inBuf (s : State) : s.nextTurn.inBuf = s.inBuf := rfl
@[simp] theorem nextTurn_outBuf (s : State) : s.nextTurn.outBuf = s.outBuf := rfl
@[simp] theorem nextTurn_hostFault (s : State) : s.nextTurn.hostFault = s.hostFault := rfl
@[simp] theorem nextTurn_instIndex (s : State) : s.nextTurn.instIndex = s.instIndex := rfl
@[simp] theorem nextTurn_draws (s : State) : s.nextTurn.draws = s.draws := rfl
@[simp] theorem nextTurn_rdata (s : State) : s.nextTurn.rdata = s.rdata := rfl
@[simp] theorem nextTurn_host (s : State) : s.nextTurn.host = s.host := rfl
@[simp] theorem nextTurn_turns (s : State) : s.nextTurn.turns = s.turns.tail := rfl

end Sys2Proof.Machine
end

