-- ==== Sys2Proof/Laws/Ops.lean ====
section
/-! SUPPORT. One lemma per shared operation, saying once everything it can do; and the facts a
well-formed configuration carries. -/

namespace Sys2Proof

/-! ## Well-formed configurations (R6, R103) -/

theorem Config.checks (c : Config) :
    c.toParams.capacitiesOk = true ∧ c.toParams.alphabetOk = true ∧ c.toParams.whitespaceOk = true ∧
      c.toParams.instancesOk = true := by
  have h := c.ok
  simp only [Params.wf, Bool.and_eq_true] at h
  tauto

theorem Config.inCap_pos (c : Config) : 0 < c.inCap := by
  have h := c.checks.1; simp [Params.capacitiesOk] at h; exact h.1.1

theorem Config.inCap_lt (c : Config) : c.inCap < 2 ^ 32 := by
  have h := c.checks.1; simp [Params.capacitiesOk] at h; exact h.1.2

theorem Config.two_inCap_le (c : Config) : 2 * c.inCap ≤ c.outCap := by
  have h := c.checks.1; simp [Params.capacitiesOk] at h; exact h.2

theorem Config.alphabet_length (c : Config) : c.alphabet.length = 91 := by
  have h := c.checks.2.1; simp [Params.alphabetOk] at h; exact h.1

theorem Config.alphabet_nodup (c : Config) : c.alphabet.Nodup := by
  have h := c.checks.2.1; simp [Params.alphabetOk] at h; exact h.2

theorem Config.not_hex_of_whitespace (c : Config) {b : Byte} (hb : b ∈ c.whitespace) :
    isHexCode b = false := by
  have h := c.checks.2.2.1
  simp only [Params.whitespaceOk, Bool.and_eq_true, List.all_eq_true] at h
  simpa using h.2 b hb

/-- B91_ENC_ROM has an entry at every digit (R31). -/
theorem Config.rom_entry (c : Config) {k : Nat} (h : k ≤ 90) : ∃ b, c.alphabet[k]? = some b := by
  have hk : k < c.alphabet.length := by rw [c.alphabet_length]; omega
  exact ⟨_, List.getElem?_eq_getElem hk⟩

namespace Machine

/-! ## STATUS -/

theorem statusBusy_busyStatus : statusBusy busyStatus = true := by decide

theorem statusDone_busyStatus : statusDone busyStatus = false := by decide

theorem statusBusy_doneStatus (e : ErrCode) : statusBusy (doneStatus e) = false := by
  cases e <;> decide

theorem statusDone_doneStatus (e : ErrCode) : statusDone (doneStatus e) = true := by
  cases e <;> decide

/-! ## Reads of a buffer byte -/

theorem byteOr_some (b : Byte) (s : State) : s.byteOr (some b) = (b, s) := rfl

theorem byteOr_none (s : State) :
    s.byteOr none = (Config.freeByte s.instIndex s.draws, { s with draws := s.draws + 1 }) := rfl

/-- A read changes nothing but the count of draws, and not even that when the byte has been written. -/
theorem byteOr_cases (m : Option Byte) (s : State) :
    ∃ b d, s.byteOr m = (b, { s with draws := d }) ∧ s.draws ≤ d ∧ ∀ c, m = some c → b = c ∧ d = s.draws := by
  cases m with
  | none => exact ⟨_, s.draws + 1, rfl, Nat.le_succ _, fun c h => by cases h⟩
  | some b => exact ⟨b, s.draws, rfl, le_refl _, fun c h => by cases h; exact ⟨rfl, rfl⟩⟩

/-! ## The CORE's accesses -/

@[simp] theorem andThen_next (s : State) (f : State → Answer) : andThen (.next s) f = f s := rfl

theorem andThen_eq_next {r : Answer} {f : State → Answer} {t : State} :
    andThen r f = .next t ↔ ∃ s, r = .next s ∧ f s = .next t := by
  cases r <;> simp [andThen]

theorem withIn_of_lt {k : Nat} {s : State} (h : k < s.cfg.inCap) (f : Byte → State → Answer) :
    withIn k s f = f (s.byteOr (s.inBuf.read k)).1 (s.byteOr (s.inBuf.read k)).2 := by
  simp [withIn, h]

theorem withIn_eq_next {k : Nat} {s t : State} {f : Byte → State → Answer} :
    withIn k s f = .next t ↔
      k < s.cfg.inCap ∧ f (s.byteOr (s.inBuf.read k)).1 (s.byteOr (s.inBuf.read k)).2 = .next t := by
  unfold withIn; split_ifs with h <;> simp [h]

theorem writeOut_of_lt {k : Nat} {s : State} (h : k < s.cfg.outCap) (v : Byte) :
    writeOut k v s = .next { s with outBuf := s.outBuf.write k v } := by
  simp [writeOut, h]

theorem writeOut_eq_next {k : Nat} {v : Byte} {s t : State} :
    writeOut k v s = .next t ↔ k < s.cfg.outCap ∧ t = { s with outBuf := s.outBuf.write k v } := by
  unfold writeOut; split_ifs with h <;> simp [h, eq_comm]

theorem withRom_eq_next {k : Nat} {s t : State} {f : Byte → Answer} :
    withRom k s f = .next t ↔ ∃ b, s.cfg.alphabet[k]? = some b ∧ f b = .next t := by
  unfold withRom; split <;> simp_all

theorem withRom_of_entry {k : Nat} {s : State} {b : Byte} (h : s.cfg.alphabet[k]? = some b)
    (f : Byte → Answer) : withRom k s f = f b := by
  simp [withRom, h]

theorem emit_of_lt {v : Byte} {s : State} (h : s.o.toNat < s.cfg.outCap) :
    emit v s = .next { s with outBuf := s.outBuf.write s.o.toNat v, o := s.o + 1 } := by
  simp [emit, writeOut_of_lt h]

theorem emit_eq_next {v : Byte} {s t : State} :
    emit v s = .next t ↔ s.o.toNat < s.cfg.outCap ∧
      t = { s with outBuf := s.outBuf.write s.o.toNat v, o := s.o + 1 } := by
  constructor
  · intro h
    obtain ⟨u, hu, ht⟩ := andThen_eq_next.1 h
    obtain ⟨hlt, rfl⟩ := writeOut_eq_next.1 hu
    exact ⟨hlt, by simpa using ht.symm⟩
  · rintro ⟨h, rfl⟩; exact emit_of_lt h

theorem emitPair_of_lt {v w : Byte} {s : State} (h : s.o.toNat + 1 < s.cfg.outCap) :
    emitPair v w s = .next
      { s with outBuf := (s.outBuf.write s.o.toNat v).write (s.o.toNat + 1) w, o := s.o + 2 } := by
  simp [emitPair, writeOut, h, Nat.lt_of_succ_lt h]

theorem emitPair_eq_next {v w : Byte} {s t : State} :
    emitPair v w s = .next t ↔ s.o.toNat + 1 < s.cfg.outCap ∧
      t = { s with outBuf := (s.outBuf.write s.o.toNat v).write (s.o.toNat + 1) w, o := s.o + 2 } := by
  constructor
  · intro h
    obtain ⟨u, hu, ht⟩ := andThen_eq_next.1 h
    obtain ⟨-, rfl⟩ := writeOut_eq_next.1 hu
    obtain ⟨x, hx, ht⟩ := andThen_eq_next.1 ht
    obtain ⟨hlt, rfl⟩ := writeOut_eq_next.1 hx
    exact ⟨hlt, by simpa using ht.symm⟩
  · rintro ⟨h, rfl⟩; exact emitPair_of_lt h

/-! ## Host faults -/

theorem FaultSet.has_add (h : FaultSet) (r q : HostFault) :
    (h.add r).has q = (h.has q || q == r) := by
  cases r <;> cases q <;> simp [FaultSet.add, FaultSet.has]

/-! ## Starting a command -/

/-- Everything the start step of a legal command can do (R77 to R80). -/
theorem startCommand_cases (w : Word) (f : State → State) (s : State) :
    (s.busy = true ∧ startCommand w f s = raiseHostFault .writeWhileBusy s) ∨
    (s.busy = false ∧ s.cfg.inCap < s.inLen.toNat ∧
      startCommand w f s = finish .capacity (startClear w s)) ∨
    (s.busy = false ∧ s.inLen.toNat ≤ s.cfg.inCap ∧ startCommand w f s = f (startClear w s)) := by
  unfold startCommand
  cases s.busy
  · by_cases h : s.cfg.inCap < s.inLen.toNat
    · simp [h]
    · simp [h, Nat.le_of_not_lt h]
  · simp

end Machine

end Sys2Proof
end

