-- ==== Sys2Proof/Laws/Frame.lean ====
section
/-! SUPPORT. Closed forms of the frame-level loops, so that no proof about a whole frame unfolds them. -/

namespace Sys2Proof.Machine

theorem lowBits_eq_mod (k x : Nat) : lowBits k x = x % 2 ^ k := by
  rw [lowBits, Nat.and_two_pow_sub_one_eq_mod]

theorem gsel_cases (x : Nat) : gsel x = 13 ∨ gsel x = 14 := by
  unfold gsel; split_ifs <;> simp

/-- With at most 21 bits held the encoder's loop takes no group or one. -/
theorem groupLoop_of_le (b n : Nat) (hn : n ≤ 21) :
    groupLoop n b n =
      if 13 < n then ([lowBits (gsel b) b % 91, lowBits (gsel b) b / 91], b >>> gsel b, n - gsel b)
      else ([], b, n) := by
  have stop : ∀ fuel b' m, m ≤ 13 → groupLoop fuel b' m = ([], b', m) := by
    intro fuel b' m hm
    cases fuel with
    | zero => rfl
    | succ fuel => rw [groupLoop, if_neg (by omega)]
  cases n with
  | zero => rfl
  | succ n =>
    by_cases h : 13 < n + 1
    · have hg := gsel_cases b
      rw [groupLoop, if_pos h, if_pos h]
      simp only [stop _ _ _ (show n + 1 - gsel b ≤ 13 by omega)]
    · rw [groupLoop, if_neg h, if_neg h]

/-- The `k` low bytes of a number, the lowest first. -/
def bytesOf : Nat → Nat → List Byte
  | _, 0 => []
  | x, k + 1 => BitVec.ofNat 8 x :: bytesOf (x / 256) k

/-- The decoder's loop takes the whole bytes, and leaves the bits above them. -/
theorem flushLoop_eq (fuel b n : Nat) (h : n ≤ fuel) :
    flushLoop fuel b n = (bytesOf b (n / 8), b / 256 ^ (n / 8), n % 8) := by
  induction fuel generalizing b n with
  | zero =>
    obtain rfl : n = 0 := by omega
    simp [flushLoop, bytesOf]
  | succ fuel ih =>
    unfold flushLoop
    split_ifs with h7
    · have hb : BitVec.ofNat 8 (lowBits 8 b) = BitVec.ofNat 8 b := by
        rw [← BitVec.toNat_inj]; simp [lowBits_eq_mod]
      have e : n / 8 = (n - 8) / 8 + 1 := by omega
      have e' : (n - 8) % 8 = n % 8 := by omega
      simp only [ih (b >>> 8) (n - 8) (by omega), hb]
      rw [e, e', bytesOf, Nat.shiftRight_eq_div_pow, Nat.div_div_eq_div_mul,
        show (2 : Nat) ^ 8 = 256 by norm_num, pow_succ, Nat.mul_comm 256]
    · have e : n / 8 = 0 := by omega
      have e' : n % 8 = n := by omega
      simp [e, e', bytesOf]

end Sys2Proof.Machine
end

