-- ==== Sys2Proof/Laws/PerInstr.lean ====
section
/-! SUPPORT. Statements made of every command, one lemma per constructor of `Instr`. -/

namespace Sys2Proof.Laws

namespace EncodedWord

/-- The fields of a command's own word (R63 to R66): RSV is zero, OP is the command's, UPPER is the
command's, and UPPER is 1 with OP 001 only; the word is also what the table row is decoded from. -/
def Statement (i : Instr) : Prop :=
  rsvField (encode i) = 0 ∧ opField (encode i) = i.op ∧ upperField (encode i) = (i.upper == 1) ∧
    (upperField (encode i) = true → opField (encode i) = 1) ∧ i.wellFormed = true ∧
    decodeTableWord 32 (encode i).toNat = some i

theorem hexencU : Statement .hexencU := by unfold Statement; decide

theorem hexencL : Statement .hexencL := by unfold Statement; decide

theorem hexdec : Statement .hexdec := by unfold Statement; decide

theorem b91enc : Statement .b91enc := by unfold Statement; decide

theorem b91dec : Statement .b91dec := by unfold Statement; decide

end EncodedWord

end Sys2Proof.Laws
end

