-- ==== Sys2Proof/Laws/Port.lean ====
section
/-! SUPPORT. What the host's transactions can do: a read changes nothing of the CORE's side, and a write
is one of few cases. -/

namespace Sys2Proof.Machine

/-! ## Reads -/

theorem returnByte_byteOr_coreSide (m : Option Byte) (s : State) :
    (returnByte (s.byteOr m)).coreSide = s.coreSide := by
  cases m <;> rfl

/-- A read changes only HOSTFAULT, the count of draws and what the host has read (R48). -/
theorem hostRead_coreSide (x : Transaction) (s : State) : (hostRead x s).coreSide = s.coreSide := by
  unfold hostRead
  split
  · unfold readRegister; split <;> rfl
  · unfold readInBuf
    split_ifs
    · exact returnByte_byteOr_coreSide _ s
    · rfl
  · unfold readOutBuf
    split_ifs
    · rfl
    · exact returnByte_byteOr_coreSide _ s
    · rfl
  · rfl

theorem hostRead_host_turns (x : Transaction) (s : State) :
    (hostRead x s).host = s.host ∧ (hostRead x s).turns = s.turns := by
  have h : ∀ m, (returnByte (s.byteOr m)).host = s.host ∧ (returnByte (s.byteOr m)).turns = s.turns := by
    intro m; cases m <;> exact ⟨rfl, rfl⟩
  unfold hostRead
  split
  · unfold readRegister; split <;> exact ⟨rfl, rfl⟩
  · unfold readInBuf
    split_ifs
    · exact h _
    · exact ⟨rfl, rfl⟩
  · unfold readOutBuf
    split_ifs
    · exact ⟨rfl, rfl⟩
    · exact h _
    · exact ⟨rfl, rfl⟩
  · exact ⟨rfl, rfl⟩

/-- A read leaves the number of the CORE alone. -/
theorem hostRead_instIndex (x : Transaction) (s : State) : (hostRead x s).instIndex = s.instIndex := by
  have h : ∀ m, (returnByte (s.byteOr m)).instIndex = s.instIndex := by intro m; cases m <;> rfl
  unfold hostRead
  split
  · unfold readRegister; split <;> rfl
  · unfold readInBuf
    split_ifs
    · exact h _
    · rfl
  · unfold readOutBuf
    split_ifs
    · rfl
    · exact h _
    · rfl
  · rfl

/-! ## Writes -/

/-- Everything a write transaction can do: record a reason, start a command, set IN_LEN, store a byte,
or nothing (R77, R78, R85, R86, R88, R147). -/
theorem hostWrite_cases {x : Transaction} {s t : State} (h : hostWrite x s = .next t) :
    (∃ r, t = raiseHostFault r s) ∨
    (s.busy = false ∧ x.sp = .reg ∧ x.addr = 0 ∧ writeCmd x.data s = .next t) ∨
    (s.busy = false ∧ x.sp = .reg ∧ x.addr = 2 ∧ t = { s with inLen := x.data }) ∨
    (s.busy = false ∧ x.sp = .inBuf ∧ x.addr.toNat < s.cfg.inCap ∧
      t = { s with inBuf := s.inBuf.write x.addr.toNat (x.data.extractLsb' 0 8) }) ∨
    t = s := by
  unfold hostWrite at h
  split_ifs at h with hb
  · cases h; exact .inl ⟨_, rfl⟩
  · have hb' : s.busy = false := by simpa using hb
    split at h
    · rename_i hsp
      unfold writeRegister at h
      split at h
      · rename_i ha
        exact .inr (.inl ⟨hb', hsp, by rw [← BitVec.toNat_inj]; exact ha, h⟩)
      · cases h; exact .inr (.inr (.inr (.inr rfl)))
      · rename_i ha
        cases h
        exact .inr (.inr (.inl ⟨hb', hsp, by rw [← BitVec.toNat_inj]; exact ha, rfl⟩))
      · cases h; exact .inr (.inr (.inr (.inr rfl)))
      · cases h; exact .inl ⟨_, rfl⟩
    · rename_i hsp
      cases h
      unfold writeInBuf
      split_ifs with h₁ h₂
      · exact .inr (.inr (.inr (.inl ⟨hb', hsp, h₁, rfl⟩)))
      · exact .inl ⟨_, rfl⟩
      · exact .inl ⟨_, rfl⟩
    · cases h; exact .inl ⟨_, rfl⟩
    · cases h; exact .inl ⟨_, rfl⟩

end Sys2Proof.Machine
end

