-- ==== Sys2Proof/Laws/Protocol.lean ====
section
/-! SUPPORT. The phase of the host protocol after a step, one lemma per operation of the host, so that no
proof about a run unfolds `phaseAfter`. -/

namespace Sys2Proof.Machine

theorem nextOp_of_core {s : State} (h : s.mover = .core) : s.nextOp = none := by
  unfold State.nextOp; rw [h]

theorem nextOp_of_host {s : State} (h : s.mover = .host) : s.nextOp = s.host.head? := by
  unfold State.nextOp; rw [h]

theorem phaseAfter_none {s : State} (p : HostPhase) (h : s.nextOp = none) : s.phaseAfter p = p := by
  unfold State.phaseAfter; rw [h]

theorem phaseAfter_cmdWrite {s : State} {t : Transaction} (p : HostPhase) (h : s.nextOp = some (.tx t))
    (ht : t.writesCmd = true) : s.phaseAfter p = .waiting := by
  unfold State.phaseAfter; rw [h]; simp only [ht, if_true]

theorem phaseAfter_tx {s : State} {t : Transaction} (p : HostPhase) (h : s.nextOp = some (.tx t))
    (ht : t.writesCmd = false) :
    s.phaseAfter p = if t.readsStatus && statusDone s.status then .ready else p := by
  unfold State.phaseAfter; rw [h]; simp only [ht, Bool.false_eq_true, if_false]

theorem phaseAfter_reset {s : State} (p : HostPhase) (h : s.nextOp = some .reset) :
    s.phaseAfter p = .noCommand := by
  unfold State.phaseAfter; rw [h]

theorem phaseAfter_poll {s : State} (p : HostPhase) (h : s.nextOp = some .poll) :
    s.phaseAfter p = if statusDone s.status then .ready else p := by
  unfold State.phaseAfter; rw [h]

theorem phaseAfter_readout {s : State} (p : HostPhase) (h : s.nextOp = some .readout) :
    s.phaseAfter p = p := by
  unfold State.phaseAfter; rw [h]

end Sys2Proof.Machine
end

