-- ==== Sys2Proof/Laws/Run.lean ====
section
/-! SUPPORT. Runs of several steps, one step at a time, and the step of a busy machine left to itself. -/

namespace Sys2Proof.Machine

theorem run_zero (s : State) : Host.Core.run Sys2Proof.core 0 s = .next s := rfl

theorem core_run_succ (M : Host.Core) (n : Nat) {s t : M.State} (h : M.step s = .next t) :
    M.run (n + 1) s = M.run n t := by
  rw [Host.Core.run, h]

/-- A run goes on from the first step's state. -/
theorem run_succ (n : Nat) {s t : State} (h : step s = .next t) :
    Host.Core.run Sys2Proof.core (n + 1) s = Host.Core.run Sys2Proof.core n t :=
  core_run_succ Sys2Proof.core n h

theorem core_run_add (M : Host.Core) (m n : Nat) {s t : M.State} (h : M.run m s = .next t) :
    M.run (m + n) s = M.run n t := by
  induction m generalizing s with
  | zero => cases h; rw [Nat.zero_add]
  | succ m ih =>
    rw [Nat.succ_add]
    cases e : M.step s with
    | next u =>
      rw [core_run_succ M m e] at h
      exact (core_run_succ M (m + n) e).trans (ih h)
    | fault r => rw [Host.Core.run, e] at h; cases h
    | refused r => rw [Host.Core.run, e] at h; cases h

/-- Two runs, one after the other. -/
theorem run_add (m n : Nat) {s t : State} (h : Host.Core.run Sys2Proof.core m s = .next t) :
    Host.Core.run Sys2Proof.core (m + n) s = Host.Core.run Sys2Proof.core n t :=
  core_run_add Sys2Proof.core m n h

/-- With no schedule left, a machine whose STATE is not IDLE takes a CORE step (R167). -/
theorem step_of_running {s : State} (hs : s.seq ≠ .idle) (ht : s.turns = []) : step s = coreStep s := by
  have hm : s.mover = .core := by simp [State.mover, ht, hs]
  have hn : s.nextTurn = s := by
    cases s; simp only at ht; simp [State.nextTurn, ht]
  unfold step; rw [hm, hn]

/-- With no schedule left and STATE in IDLE, it is the host that moves (R82). -/
theorem step_of_idle {s : State} (hs : s.seq = .idle) (ht : s.turns = []) : step s = hostMove s := by
  have hm : s.mover = .host := by simp [State.mover, ht, hs]
  have hn : s.nextTurn = s := by
    cases s; simp only at ht; simp [State.nextTurn, ht]
  unfold step; rw [hm, hn]

end Sys2Proof.Machine
end

