-- ==== Sys2Proof/Laws/Steps.lean ====
section
/-! SUPPORT. What each CORE step can do, one lemma per step: "if it answers next t, then one of these
cases holds", and in which states it answers. Later proofs cite these and unfold no step. -/

namespace Sys2Proof.Machine

/-! ## The step that STATE names -/

theorem coreStep_idle {s : State} (h : s.seq = .idle) : coreStep s = .next s := by
  unfold coreStep; rw [h]

theorem coreStep_heByte {s : State} (h : s.seq = .heByte) : coreStep s = heByte s := by
  unfold coreStep; rw [h]

theorem coreStep_hdTrim {s : State} (h : s.seq = .hdTrim) : coreStep s = hdTrim s := by
  unfold coreStep; rw [h]

theorem coreStep_hdPair {s : State} (h : s.seq = .hdPair) : coreStep s = hdPair s := by
  unfold coreStep; rw [h]

theorem coreStep_beConsume {s : State} (h : s.seq = .beConsume) : coreStep s = beConsume s := by
  unfold coreStep; rw [h]

theorem coreStep_beGroup {s : State} (h : s.seq = .beGroup) : coreStep s = beGroup s := by
  unfold coreStep; rw [h]

theorem coreStep_beTail {s : State} (h : s.seq = .beTail) : coreStep s = beTail s := by
  unfold coreStep; rw [h]

theorem coreStep_bdSymbol {s : State} (h : s.seq = .bdSymbol) : coreStep s = bdSymbol s := by
  unfold coreStep; rw [h]

theorem coreStep_bdFlush {s : State} (h : s.seq = .bdFlush) : coreStep s = bdFlush s := by
  unfold coreStep; rw [h]

theorem coreStep_bdTail {s : State} (h : s.seq = .bdTail) : coreStep s = bdTail s := by
  unfold coreStep; rw [h]

/-! ## What each step can do -/

/-- HE_BYTE consumes a byte and stores two symbols, or finishes. -/
theorem heByte_eq_next {s t : State} :
    heByte s = .next t ↔
      (s.i.toNat < s.inLen.toNat ∧ s.i.toNat < s.cfg.inCap ∧ s.o.toNat + 1 < s.cfg.outCap ∧
        ∃ b d, s.byteOr (s.inBuf.read s.i.toNat) = (b, { s with draws := d }) ∧
          t = { s with
                draws := d
                outBuf := (s.outBuf.write s.o.toNat (hexLut s.upper (b.extractLsb' 4 4))).write
                  (s.o.toNat + 1) (hexLut s.upper (b.extractLsb' 0 4))
                i := s.i + 1
                o := s.o + 2 }) ∨
      (s.inLen.toNat ≤ s.i.toNat ∧ t = finish .ok s) := by
  unfold heByte
  simp only [State.moreInput, decide_eq_true_eq]
  split_ifs with h
  · obtain ⟨b, d, hb, -⟩ := byteOr_cases (s.inBuf.read s.i.toNat) s
    simp only [withInput, withIn_eq_next, hb, andThen_eq_next, emitPair_eq_next, h, true_and,
      Nat.not_le.2 h, false_and, or_false, Host.Outcome.next.injEq]
    constructor
    · rintro ⟨h₁, u, ⟨h₂, rfl⟩, rfl⟩
      exact ⟨h₁, h₂, b, d, rfl, rfl⟩
    · rintro ⟨h₁, h₂, c, e, hc, rfl⟩
      cases hc
      exact ⟨h₁, _, ⟨h₂, rfl⟩, rfl⟩
  · simp [h, eq_comm, Nat.le_of_not_lt h]

/-- HD_PAIR consumes two symbols and stores a byte, or finishes. -/
theorem hdPair_eq_next {s t : State} :
    hdPair s = .next t ↔
      (s.i.toNat < s.trimE.toNat ∧ s.i.toNat + 1 < s.cfg.inCap ∧ s.o.toNat < s.cfg.outCap ∧
        ∃ hi d lo e, s.byteOr (s.inBuf.read s.i.toNat) = (hi, { s with draws := d }) ∧
          State.byteOr (s.inBuf.read (s.i.toNat + 1)) { s with draws := d } = (lo, { s with draws := e }) ∧
          t = { s with
                draws := e
                outBuf := s.outBuf.write s.o.toNat (pair (nib hi) (nib lo))
                i := s.i + 2
                o := s.o + 1 }) ∨
      (s.trimE.toNat ≤ s.i.toNat ∧ t = finish .ok s) := by
  unfold hdPair
  split_ifs with h
  · obtain ⟨hi, d, hd, -⟩ := byteOr_cases (s.inBuf.read s.i.toNat) s
    obtain ⟨lo, e, he, -⟩ := byteOr_cases (s.inBuf.read (s.i.toNat + 1)) { s with draws := d }
    simp only [withInput, withNextInput, withIn_eq_next, andThen_eq_next, emit_eq_next, hd, he, h,
      true_and, Nat.not_le.2 h, false_and, or_false, Host.Outcome.next.injEq]
    constructor
    · rintro ⟨-, h₁, u, ⟨h₂, rfl⟩, rfl⟩
      exact ⟨h₁, h₂, hi, d, lo, e, rfl, he, rfl⟩
    · rintro ⟨h₁, h₂, hi', d', lo', e', hb, hc, rfl⟩
      cases hb
      cases he.symm.trans hc
      exact ⟨Nat.lt_of_succ_lt h₁, h₁, _, ⟨h₂, rfl⟩, rfl⟩
  · simp [h, eq_comm, Nat.le_of_not_lt h]

/-- BE_CONSUME pushes a byte, or goes to the tail. -/
theorem beConsume_eq_next {s t : State} :
    beConsume s = .next t ↔
      (s.i.toNat < s.inLen.toNat ∧ s.i.toNat < s.cfg.inCap ∧
        ∃ b d, s.byteOr (s.inBuf.read s.i.toNat) = (b, { s with draws := d }) ∧
          t = { push b.toNat 8 s with draws := d, i := s.i + 1, seq := .beGroup }) ∨
      (s.inLen.toNat ≤ s.i.toNat ∧ t = { s with seq := .beTail }) := by
  unfold beConsume
  simp only [State.moreInput, decide_eq_true_eq]
  split_ifs with h
  · obtain ⟨b, d, hb, -⟩ := byteOr_cases (s.inBuf.read s.i.toNat) s
    simp only [withInput, withIn_eq_next, hb, h, true_and, Nat.not_le.2 h, false_and, or_false,
      Host.Outcome.next.injEq]
    constructor
    · rintro ⟨h₁, rfl⟩
      exact ⟨h₁, b, d, rfl, rfl⟩
    · rintro ⟨h₁, c, e, hc, rfl⟩
      cases hc
      exact ⟨h₁, rfl⟩
  · simp [h, eq_comm, Nat.le_of_not_lt h]

/-- BE_GROUP stores the two symbols of a group, or goes back for the next byte. -/
theorem beGroup_eq_next {s t : State} :
    beGroup s = .next t ↔
      (13 < s.accN.toNat ∧ s.o.toNat + 1 < s.cfg.outCap ∧
        ∃ x y, s.cfg.alphabet[low (gsel s.accB.toNat) s % 91]? = some x ∧
          s.cfg.alphabet[low (gsel s.accB.toNat) s / 91]? = some y ∧
          t = { pop (gsel s.accB.toNat) s with
                outBuf := (s.outBuf.write s.o.toNat x).write (s.o.toNat + 1) y
                o := s.o + 2 }) ∨
      (s.accN.toNat ≤ 13 ∧ t = { s with seq := .beConsume }) := by
  unfold beGroup
  split_ifs with h
  · have h' : 13 < s.accN.toNat := h
    simp only [emitGroup, withRom_eq_next, emitPair_eq_next, pop_cfg, pop_o, pop_outBuf, h', true_and,
      Nat.not_le.2 h', false_and, or_false]
    constructor
    · rintro ⟨x, hx, y, hy, h₁, rfl⟩; exact ⟨h₁, x, y, hx, hy, rfl⟩
    · rintro ⟨h₁, x, y, hx, hy, rfl⟩; exact ⟨x, hx, y, hy, h₁, rfl⟩
  · have h' : ¬13 < s.accN.toNat := h
    simp [h', eq_comm, Nat.le_of_not_lt h']

/-- BE_TAIL stores no, one or two symbols, and finishes. -/
theorem beTail_eq_next {s t : State} :
    beTail s = .next t ↔
      (s.accN = 0 ∧ t = finish .ok s) ∨
      (s.accN ≠ 0 ∧ s.o.toNat < s.cfg.outCap ∧
        ∃ x, s.cfg.alphabet[s.accB.toNat % 91]? = some x ∧
          ((¬(s.accN.toNat > 7 ∨ s.accB.toNat > 90) ∧
              t = finish .ok { s with outBuf := s.outBuf.write s.o.toNat x, o := s.o + 1 }) ∨
            ((s.accN.toNat > 7 ∨ s.accB.toNat > 90) ∧ (s.o + 1).toNat < s.cfg.outCap ∧
              ∃ y, s.cfg.alphabet[s.accB.toNat / 91]? = some y ∧
                t = finish .ok
                  { s with
                    outBuf := (s.outBuf.write s.o.toNat x).write (s.o + 1).toNat y
                    o := s.o + 1 + 1 }))) := by
  unfold beTail
  by_cases h : s.accN = 0
  · simp [h, eq_comm]
  · rw [if_neg h]
    simp only [h, false_and, false_or, ne_eq, not_false_eq_true, true_and, andThen_eq_next, emitSymbol,
      withRom_eq_next, emit_eq_next]
    constructor
    · rintro ⟨u, ⟨x, hx, h₁, rfl⟩, hu⟩
      refine ⟨h₁, x, hx, ?_⟩
      split_ifs at hu with hc
      · obtain ⟨v, hv', hv⟩ := andThen_eq_next.1 hu
        obtain ⟨y, hy, hv'⟩ := withRom_eq_next.1 hv'
        obtain ⟨h₂, rfl⟩ := emit_eq_next.1 hv'
        simp only [Host.Outcome.next.injEq] at hv
        exact .inr ⟨hc, h₂, y, hy, hv.symm⟩
      · simp only [Host.Outcome.next.injEq] at hu
        exact .inl ⟨hc, hu.symm⟩
    · rintro ⟨h₁, x, hx, ⟨hc, rfl⟩ | ⟨hc, h₂, y, hy, rfl⟩⟩
      · exact ⟨_, ⟨x, hx, h₁, rfl⟩, by rw [if_neg hc]⟩
      · refine ⟨_, ⟨x, hx, h₁, rfl⟩, ?_⟩
        rw [if_pos hc]
        exact andThen_eq_next.2 ⟨_, withRom_eq_next.2 ⟨y, hy, emit_eq_next.2 ⟨h₂, rfl⟩⟩, rfl⟩

/-- BD_SYMBOL takes a symbol, or goes to the tail. -/
theorem bdSymbol_eq_next {s t : State} :
    bdSymbol s = .next t ↔
      (s.i.toNat < s.inLen.toNat ∧ s.i.toNat < s.cfg.inCap ∧
        ∃ b d, s.byteOr (s.inBuf.read s.i.toNat) = (b, { s with draws := d }) ∧
          t = takeSymbol (decRom s.cfg.toParams b) { s with draws := d, i := s.i + 1 }) ∨
      (s.inLen.toNat ≤ s.i.toNat ∧ t = { s with seq := .bdTail }) := by
  unfold bdSymbol
  simp only [State.moreInput, decide_eq_true_eq]
  split_ifs with h
  · obtain ⟨b, d, hb, -⟩ := byteOr_cases (s.inBuf.read s.i.toNat) s
    simp only [withInput, withIn_eq_next, hb, h, true_and, Nat.not_le.2 h, false_and, or_false,
      Host.Outcome.next.injEq]
    constructor
    · rintro ⟨h₁, rfl⟩
      exact ⟨h₁, b, d, rfl, rfl⟩
    · rintro ⟨h₁, c, e, hc, rfl⟩
      cases hc
      exact ⟨h₁, rfl⟩
  · simp [h, eq_comm, Nat.le_of_not_lt h]

/-- BD_FLUSH stores a byte, or goes back for the next symbol. -/
theorem bdFlush_eq_next {s t : State} :
    bdFlush s = .next t ↔
      (7 < s.accN.toNat ∧ s.o.toNat < s.cfg.outCap ∧
        t = { pop 8 s with
              outBuf := s.outBuf.write s.o.toNat (BitVec.ofNat 8 (low 8 s))
              o := s.o + 1 }) ∨
      (s.accN.toNat ≤ 7 ∧ t = { s with seq := .bdSymbol }) := by
  unfold bdFlush
  split_ifs with h
  · have h' : 7 < s.accN.toNat := h
    simp only [emit_eq_next, pop_cfg, pop_o, pop_outBuf, h', true_and, Nat.not_le.2 h', false_and,
      or_false]
  · have h' : ¬7 < s.accN.toNat := h
    simp [h', eq_comm, Nat.le_of_not_lt h']

/-- BD_TAIL stores the byte of a pending symbol, or nothing, and finishes. -/
theorem bdTail_eq_next {s t : State} :
    bdTail s = .next t ↔
      (s.pvValid = true ∧ s.o.toNat < s.cfg.outCap ∧
        t = finish .ok { s with outBuf := s.outBuf.write s.o.toNat (tailByte s), o := s.o + 1 }) ∨
      (s.pvValid = false ∧ t = finish .ok s) := by
  unfold bdTail
  by_cases hp : s.pvValid = true
  · rw [if_pos hp, andThen_eq_next]
    simp only [emit_eq_next, hp, true_and, Bool.true_eq_false, false_and, or_false,
      Host.Outcome.next.injEq]
    constructor
    · rintro ⟨u, ⟨h₁, rfl⟩, rfl⟩; exact ⟨h₁, rfl⟩
    · rintro ⟨h₁, rfl⟩; exact ⟨_, ⟨h₁, rfl⟩, rfl⟩
  · rw [if_neg hp]
    simp [hp, eq_comm]

end Sys2Proof.Machine
end

