-- ==== Sys2Proof/Laws/Trim.lean ====
section
/-! SUPPORT. The scan of HD_TRIM: it reads every frame byte once and keeps the bounds of what is not
whitespace. -/

namespace Sys2Proof.Machine

/-- The bounds after the `n` bytes `v k`, `v (k + 1)`, … . -/
def scanBounds (p : Params) (v : Nat → Byte) : Nat → Nat → Option (Nat × Nat) → Option (Nat × Nat)
  | 0, _, bounds => bounds
  | n + 1, k, bounds => scanBounds p v n (k + 1) (trimBounds p bounds k (v k))

theorem scanBounds_congr (p : Params) {v w : Nat → Byte} (n k : Nat) (bounds : Option (Nat × Nat))
    (h : ∀ j, k ≤ j → j < k + n → v j = w j) : scanBounds p v n k bounds = scanBounds p w n k bounds := by
  induction n generalizing k bounds with
  | zero => rfl
  | succ n ih =>
    simp only [scanBounds]
    rw [h k (le_refl k) (by omega)]
    exact ih _ _ fun j h₁ h₂ => h j (by omega) (by omega)

/-- The scan of a frame that lies inside IN_BUF goes on with the bounds of the bytes it read: the written
ones, and fresh draws for the others. -/
theorem scanFrame_spec (n k : Nat) (bounds : Option (Nat × Nat)) (s : State)
    (f : Option (Nat × Nat) → State → Answer) (hk : k + n ≤ s.cfg.inCap) :
    ∃ (v : Nat → Byte) (d : Nat), s.draws ≤ d ∧
      (∀ j, k ≤ j → j < k + n → ∀ b, s.inBuf.read j = some b → v j = b) ∧
      (∀ j, k ≤ j → j < k + n → s.inBuf.read j = none →
        ∃ m, s.draws ≤ m ∧ m < d ∧ v j = Config.freeByte s.instIndex m) ∧
      ((∀ j, k ≤ j → j < k + n → (s.inBuf.read j).isSome) → d = s.draws) ∧
      scanFrame n k bounds s f = f (scanBounds s.cfg.toParams v n k bounds) { s with draws := d } := by
  induction n generalizing k bounds s with
  | zero => exact ⟨fun _ => 0, s.draws, le_refl _, fun j h₁ h₂ => by omega, fun j h₁ h₂ => by omega,
      fun _ => rfl, rfl⟩
  | succ n ih =>
    simp only [scanFrame, withIn_of_lt (show k < s.cfg.inCap by omega)]
    cases hr : s.inBuf.read k with
    | some b =>
      rw [byteOr_some]
      obtain ⟨v, d, hd, hw, hn, hz, he⟩ := ih (k + 1) (trimBounds s.cfg.toParams bounds k b) s (by omega)
      refine ⟨fun j => if j = k then b else v j, d, hd, fun j h₁ h₂ c hc => ?_, fun j h₁ h₂ hj => ?_,
        fun h => hz fun j h₁ h₂ => h j (by omega) (by omega), ?_⟩
      · by_cases hjk : j = k
        · subst hjk; simp_all
        · simpa [hjk] using hw j (by omega) (by omega) c hc
      · have hjk : j ≠ k := by rintro rfl; simp [hr] at hj
        simpa [hjk] using hn j (by omega) (by omega) hj
      · simp only [he, scanBounds, if_true]
        congr 1
        exact scanBounds_congr _ _ _ _ fun j h₁ h₂ => by simp [show j ≠ k by omega]
    | none =>
      rw [byteOr_none]
      obtain ⟨v, d, hd, hw, hn, -, he⟩ := ih (k + 1)
        (trimBounds s.cfg.toParams bounds k (Config.freeByte s.instIndex s.draws)) { s with draws := s.draws + 1 } (by simpa using by omega)
      simp only at hd
      refine ⟨fun j => if j = k then Config.freeByte s.instIndex s.draws else v j, d, by omega,
        fun j h₁ h₂ c hc => ?_, fun j h₁ h₂ hj => ?_, fun h => ?_, ?_⟩
      · have hjk : j ≠ k := by rintro rfl; simp [hr] at hc
        simpa [hjk] using hw j (by omega) (by omega) c hc
      · by_cases hjk : j = k
        · exact ⟨s.draws, le_refl _, by omega, by simp [hjk]⟩
        · obtain ⟨m, h₃, h₄, h₅⟩ := hn j (by omega) (by omega) hj
          exact ⟨m, by simp only at h₃; omega, h₄, by simpa [hjk] using h₅⟩
      · have := h k (le_refl k) (by omega)
        simp [hr] at this
      · simp only [he, scanBounds, if_true]
        congr 1
        exact scanBounds_congr _ _ _ _ fun j h₁ h₂ => by simp [show j ≠ k by omega]

/-- A scan answers only if its frame lies inside IN_BUF. -/
theorem scanFrame_eq_next {n k : Nat} {bounds : Option (Nat × Nat)} {s t : State}
    {f : Option (Nat × Nat) → State → Answer} (h : scanFrame n k bounds s f = .next t) (hn : n ≠ 0) :
    k + n ≤ s.cfg.inCap := by
  induction n generalizing k bounds s with
  | zero => exact absurd rfl hn
  | succ n ih =>
    simp only [scanFrame, withIn_eq_next] at h
    by_cases h0 : n = 0
    · omega
    · obtain ⟨b, d, hb, -⟩ := byteOr_cases (s.inBuf.read k) s
      rw [hb] at h
      have := ih h.2 h0
      simp only at this
      omega

/-- What HD_TRIM does on a frame that lies inside IN_BUF. -/
theorem hdTrim_spec {s : State} (h : s.inLen.toNat ≤ s.cfg.inCap) :
    ∃ (v : Nat → Byte) (d : Nat), s.draws ≤ d ∧
      (∀ j, j < s.inLen.toNat → ∀ b, s.inBuf.read j = some b → v j = b) ∧
      (∀ j, j < s.inLen.toNat → s.inBuf.read j = none →
        ∃ m, s.draws ≤ m ∧ m < d ∧ v j = Config.freeByte s.instIndex m) ∧
      (s.FrameWritten → d = s.draws) ∧
      hdTrim s = .next
        (trimDecision (scanBounds s.cfg.toParams v s.inLen.toNat 0 none) { s with draws := d }) := by
  obtain ⟨v, d, hd, hw, hn, hz, he⟩ := scanFrame_spec s.inLen.toNat 0 none s
    (fun bounds t => .next (trimDecision bounds t)) (by omega)
  exact ⟨v, d, hd, fun j hj => hw j (Nat.zero_le _) (by omega), fun j hj => hn j (Nat.zero_le _) (by omega),
    fun hf => hz fun j _ hj => hf j (by omega), he⟩

/-- HD_TRIM answers only on a frame that lies inside IN_BUF. -/
theorem hdTrim_inCap {s t : State} (h : hdTrim s = .next t) : s.inLen.toNat ≤ s.cfg.inCap := by
  by_cases h0 : s.inLen.toNat = 0
  · omega
  · have := scanFrame_eq_next h h0
    omega

/-- The bounds are none exactly when everything scanned is whitespace; otherwise they enclose what is
not, from its first index to one past its last. -/
theorem scanBounds_cases (p : Params) (v : Nat → Byte) (n : Nat) :
    (scanBounds p v n 0 none = none ∧ ∀ j, j < n → isWhitespace p (v j) = true) ∨
    ∃ S E, scanBounds p v n 0 none = some (S, E) ∧ S < E ∧ E ≤ n ∧
      isWhitespace p (v S) = false ∧ isWhitespace p (v (E - 1)) = false ∧
      ∀ j, j < n → j < S ∨ E ≤ j → isWhitespace p (v j) = true := by
  have step : ∀ m k bounds, scanBounds p v (m + 1) k bounds =
      trimBounds p (scanBounds p v m k bounds) (k + m) (v (k + m)) := by
    intro m
    induction m with
    | zero => intro k bounds; rfl
    | succ m ih =>
      intro k bounds
      rw [scanBounds, ih, scanBounds]
      simp only [Nat.add_assoc, Nat.add_comm 1 m]
  induction n with
  | zero => exact .inl ⟨rfl, fun j h => absurd h (Nat.not_lt_zero j)⟩
  | succ n ih =>
    rw [step n 0 none, Nat.zero_add]
    rcases ih with ⟨hb, hall⟩ | ⟨S, E, hb, h₁, h₂, h₃, h₄, h₅⟩
    · rw [hb]
      by_cases hw : isWhitespace p (v n) = true
      · refine .inl ⟨by simp [trimBounds, hw], fun j hj => ?_⟩
        rcases Nat.lt_succ_iff_lt_or_eq.1 hj with hj | rfl
        · exact hall j hj
        · exact hw
      · refine .inr ⟨n, n + 1, by simp [trimBounds, hw], by omega, le_refl _, by simpa using hw,
          by simpa using hw, fun j hj h => hall j (by omega)⟩
    · rw [hb]
      by_cases hw : isWhitespace p (v n) = true
      · refine .inr ⟨S, E, by simp [trimBounds, hw], h₁, by omega, h₃, h₄, fun j hj h => ?_⟩
        rcases Nat.lt_succ_iff_lt_or_eq.1 hj with hj | rfl
        · exact h₅ j hj h
        · exact hw
      · exact .inr ⟨S, n + 1, by simp [trimBounds, hw], by omega, le_refl _, h₃, by simpa using hw,
          fun j hj h => h₅ j (by omega) (by omega)⟩

end Sys2Proof.Machine
end

