-- ==== Sys2Proof/Tests/Slice0.lean ====
section
/-! SUPPORT. The model's own tests: expected values are those of spec/95's vectors V<n> or of the rules,
by hand. The `witness_` theorems show states and operands that meet the hypotheses of the obligations. -/

open Sys2Proof Sys2Proof.Machine

namespace Sys2Proof.Tests

/-! ## Small states -/

/-- The cells of a frame from address `a` on. -/
def cellsFrom : Nat → List Byte → Memory
  | _, [] => []
  | a, b :: rest => (a, b) :: cellsFrom (a + 1) rest

/-- The reset state with a frame loaded. -/
def loaded (x : List Byte) : State :=
  { State.reset with inLen := BitVec.ofNat 32 x.length, inBuf := cellsFrom 0 x }

/-- A command's word in CMD, its STATE value, and a frame, with the indices and accumulator at 0. -/
def running (w : Word) (q : Seq) (x : List Byte) : State :=
  { loaded x with cmd := w, status := busyStatus, seq := q }

/-- The answer is a next state that passes the check. -/
def sees (r : Answer) (check : State → Bool) : Bool :=
  match r with
  | .next s => check s
  | _ => false

/-- "test", and "fPNKd", its base91 encoding under the default alphabet (V48). -/
def testBytes : List Byte := [0x74, 0x65, 0x73, 0x74]
def testSymbols : List Byte := [0x66, 0x50, 0x4E, 0x4B, 0x64]

/-! ## Well-formedness: the ill-formed parameters that each check refuses (R6, R103) -/

theorem test_wf_standard : standardParams.wf = true := by decide

theorem test_wf_rejects_zero_capacity :
    Params.capacitiesOk { standardParams with inCap := 0 } = false := by decide

theorem test_wf_rejects_capacity_above_32_bits :
    Params.capacitiesOk { standardParams with inCap := 2 ^ 32, outCap := 2 ^ 40 } = false := by decide

theorem test_wf_rejects_small_output :
    Params.capacitiesOk { standardParams with outCap := 127 } = false := by decide

theorem test_wf_rejects_short_alphabet :
    Params.alphabetOk { standardParams with alphabet := defaultAlphabet.drop 1 } = false := by decide

theorem test_wf_rejects_repeated_symbol :
    Params.alphabetOk { standardParams with alphabet := 0x42 :: defaultAlphabet.drop 1 } = false := by
  decide

theorem test_wf_rejects_hex_whitespace :
    Params.whitespaceOk { standardParams with whitespace := [0x20, 0x30] } = false ∧
    Params.whitespaceOk { standardParams with whitespace := [0x20, 0x46] } = false ∧
    Params.whitespaceOk { standardParams with whitespace := [0x61, 0x20] } = false ∧
    Params.whitespaceOk { standardParams with whitespace := [0x47, 0x40, 0x3A, 0x20, 0x67] } = true := by
  decide

/-- D4: the set must contain 0x20. -/
theorem test_wf_rejects_whitespace_without_space :
    Params.whitespaceOk { standardParams with whitespace := [0x09, 0x0A] } = false ∧
    Params.whitespaceOk { standardParams with whitespace := [] } = false ∧
    Params.whitespaceOk { standardParams with whitespace := [0x20] } = true := by decide

theorem test_wf_rejects_no_instance :
    Params.instancesOk { standardParams with nInst := 0 } = false := by decide

/-- 93 item 6: an ill-formed configuration does not boot. -/
theorem test_boot_refuses_ill_formed :
    State.boot { standardParams with nInst := 0 } = .refused .illFormedConfig := by rfl

/-- State.reset is what the standard parameters boot into (log entry 2). -/
theorem test_boot_standard : State.boot standardParams = .next State.reset := by rfl

/-- An instruction is never ill formed, since no command has an operand (R69); a word can be (V94). -/
theorem test_wf_instructions :
    Instr.hexencU.wellFormed = true ∧ Instr.hexencL.wellFormed = true ∧ Instr.hexdec.wellFormed = true ∧
    Instr.b91enc.wellFormed = true ∧ Instr.b91dec.wellFormed = true ∧ decodeTableWord 32 0x19 = none := by
  decide

/-! ## Decoding: words written out bit by bit from R63 to R66: RSV (28 bits), UPPER, OP -/

theorem test_decode_hexencU : decode 0b0000000000000000000000000000_1_001 = .legal .hexencU := by decide

theorem test_decode_hexencL : decode 0b0000000000000000000000000000_0_001 = .legal .hexencL := by decide

theorem test_decode_hexdec : decode 0b0000000000000000000000000000_0_010 = .legal .hexdec := by decide

theorem test_decode_b91enc : decode 0b0000000000000000000000000000_0_011 = .legal .b91enc := by decide

theorem test_decode_b91dec : decode 0b0000000000000000000000000000_0_100 = .legal .b91dec := by decide

/-- R68: one word of each illegal class, and both reserved OP values with UPPER set. -/
theorem test_decode_illegal :
    decode 0b1000000000000000000000000000_0_011 = .illegal .reservedBits ∧
    decode 0b0000000000000000000000000001_1_001 = .illegal .reservedBits ∧
    decode 0b0000000000000000000000000000_0_000 = .illegal .reservedOp ∧
    decode 0b0000000000000000000000000000_0_101 = .illegal .reservedOp ∧
    decode 0b0000000000000000000000000000_0_110 = .illegal .reservedOp ∧
    decode 0b0000000000000000000000000000_1_111 = .illegal .reservedOp ∧
    decode 0b0000000000000000000000000000_1_100 = .illegal .upperWithoutHexenc := by decide

theorem test_decode_table_word :
    decodeTableWord 32 9 = some .hexencU ∧ decodeTableWord 32 4 = some .b91dec ∧
    decodeTableWord 32 5 = none ∧ decodeTableWord 64 9 = none := by decide

/-- R71, R23, R73: the codes of STATE, ERR and SP. -/
theorem test_codes :
    [Seq.idle, .heByte, .hdTrim, .hdPair, .beConsume, .beGroup, .beTail, .bdSymbol, .bdFlush, .bdTail].map
      Seq.code = [0, 1, 2, 3, 4, 5, 6, 7, 8, 9] ∧
    [ErrCode.ok, .invalidArgument, .invalidLength, .illegalCommand, .capacity].map ErrCode.code =
      [0, 1, 2, 3, 4] ∧
    [Space.reg, .inBuf, .outBuf, .reserved].map Space.code = [0, 1, 2, 3] ∧
    [0, 1, 2, 3].map Space.ofCode = [Space.reg, .inBuf, .outBuf, .reserved] := by decide

/-! ## Starting -/

/-- P1's HEXENC.U: the start step leaves STATUS = 1 and STATE = HE_BYTE. -/
theorem test_start_hexencU :
    sees (exec .hexencU (loaded [0x00, 0xFF, 0x1A])) (fun s =>
      s.cmd == 9 && s.status == 1 && s.outLen == 0 && s.seq == .heByte) = true := by decide

/-- V99, V26: an empty HEXENC finishes in the start step. -/
theorem test_start_hexencL_empty :
    sees (exec .hexencL State.reset) (fun s =>
      s.cmd == 1 && s.status == 0x12 && s.outLen == 0 && s.seq == .idle) = true := by decide

/-- V98: CAPACITY comes before anything HEXDEC would find. -/
theorem test_start_hexdec_capacity :
    sees (exec .hexdec { State.reset with inLen := 65 }) (fun s =>
      s.status == 0x42 && s.seq == .idle) = true := by decide

/-- V100: an empty B91ENC runs. -/
theorem test_start_b91enc_empty :
    sees (exec .b91enc State.reset) (fun s =>
      s.status == 1 && s.seq == .beConsume) = true := by decide

/-- V101: an empty B91DEC runs. -/
theorem test_start_b91dec_empty :
    sees (exec .b91dec State.reset) (fun s =>
      s.status == 1 && s.seq == .bdSymbol) = true := by decide

/-- V96: ILLEGAL_COMMAND comes before CAPACITY, and CMD keeps the illegal word (R19). -/
theorem test_start_illegal :
    sees (transact (cmdWrite 5) { State.reset with inLen := 65 }) (fun s =>
      s.cmd == 5 && s.status == 0x32 && s.outLen == 0 && s.seq == .idle) = true := by decide

/-! ## Hex -/

/-- V30, step 3: 0x1A gives OUT[4] = 0x31, OUT[5] = 0x41 in upper case. -/
theorem test_heByte_upper :
    sees (coreStep { running 9 .heByte [0x00, 0xFF, 0x1A] with i := 2, o := 4 }) (fun s =>
      s.outBuf == [(4, 0x31), (5, 0x41)] && s.i == 3 && s.o == 6) = true := by decide

/-- V21: the same byte in lower case. -/
theorem test_heByte_lower :
    sees (coreStep { running 1 .heByte [0x00, 0xFF, 0x1A] with i := 2, o := 4 }) (fun s =>
      s.outBuf == [(4, 0x31), (5, 0x61)]) = true := by decide

/-- V39j, step 1: "  0a  " gives S = 2 and E = 4. -/
theorem test_hdTrim :
    sees (coreStep (running 2 .hdTrim [0x20, 0x20, 0x30, 0x61, 0x20, 0x20])) (fun s =>
      s.i == 2 && s.trimE == 4 && s.seq == .hdPair) = true := by decide

/-- V36: the trimmed "0 1" has length 3. -/
theorem test_hdTrim_odd :
    sees (coreStep (running 2 .hdTrim [0x30, 0x20, 0x31, 0x20])) (fun s =>
      s.status == 0x22 && s.outLen == 0 && s.seq == .idle) = true := by decide

/-- V39c: "OO" is 0x98. -/
theorem test_hdPair_masks :
    sees (coreStep { running 2 .hdPair [0x4F, 0x4F] with trimE := 2 }) (fun s =>
      s.outBuf == [(0, 0x98)] && s.i == 2 && s.o == 1) = true := by decide

/-- V12. -/
theorem test_nib :
    [0x30, 0x39, 0x41, 0x61, 0x46, 0x66, 0x47, 0x67, 0x4F, 0x7A, 0x40, 0x2E, 0x20, 0x00, 0x7F, 0x80, 0xC0,
      0xFF].map nib = [0, 9, 10, 10, 15, 15, 16, 16, 24, 19, 9, 14, 0, 0, 24, 0, 9, 24] := by decide

/-- V13. -/
theorem test_pair :
    [pair 0 10, pair 15 15, pair 9 9, pair 16 16, pair 24 24, pair 16 0, pair 0 16, pair 0 24, pair 19 19] =
      [0x0A, 0xFF, 0x99, 0x10, 0x98, 0x00, 0x10, 0x18, 0x33] := by decide

/-! ## The accumulator -/

/-- V70, V71, V76, V78. -/
theorem test_push :
    (fun s => (s.accB, s.accN)) (push 0x74 8 State.reset) = (0x74, 8) ∧
    (fun s => (s.accB, s.accN)) (push 0x65 8 { State.reset with accB := 0x74, accN := 8 }) = (0x6574, 16) ∧
    (fun s => (s.accB, s.accN)) (push 8280 14 State.reset) = (0x2058, 14) ∧
    (fun s => (s.accB, s.accN)) (push 1396 13 { State.reset with accB := 5, accN := 5 }) = (0xAE85, 18) := by
  decide

/-- V72 to V75, V77. -/
theorem test_low_pop :
    low 13 { State.reset with accB := 0x6574, accN := 16 } = 1396 ∧
    (fun s => (s.accB, s.accN)) (pop 13 { State.reset with accB := 0x6574, accN := 16 }) = (0x3, 3) ∧
    low 14 { State.reset with accB := 0x3FFFF, accN := 18 } = 16383 ∧
    (fun s => (s.accB, s.accN)) (pop 14 { State.reset with accB := 0x3FFFF, accN := 18 }) = (0xF, 4) ∧
    low 8 { State.reset with accB := 0x2058, accN := 14 } = 0x58 ∧
    (fun s => (s.accB, s.accN)) (pop 8 { State.reset with accB := 0x2058, accN := 14 }) = (0x20, 6) := by
  decide

/-- V79 to V85. -/
theorem test_gsel : [0, 88, 89, 8191, 8192, 8280, 0x6574].map gsel = [14, 14, 13, 13, 14, 14, 13] := by decide

/-! ## Base91 -/

/-- V50e, step 3. -/
theorem test_beConsume :
    sees (coreStep { running 3 .beConsume testBytes with i := 1, accB := 0x74, accN := 8 }) (fun s =>
      s.accB == 0x6574 && s.accN == 16 && s.i == 2 && s.seq == .beGroup) = true := by decide

/-- V50e, step 4: the group 1396 is [31, 15], "fP". -/
theorem test_beGroup :
    sees (coreStep { running 3 .beGroup testBytes with i := 2, accB := 0x6574, accN := 16 }) (fun s =>
      s.accB == 3 && s.accN == 3 && s.o == 2 && s.outBuf == [(0, 0x66), (1, 0x50)] && s.seq == .beGroup) = true := by decide

/-- V50b: the tail (127, 7) takes two symbols, [36, 1]. -/
theorem test_beTail_two :
    sees (coreStep { running 3 .beTail [0] with i := 1, o := 6, accB := 127, accN := 7 }) (fun s =>
      s.outBuf == [(6, 0x6B), (7, 0x42)] && s.outLen == 8 && s.status == 2) = true := by decide

/-- V67, step 2: the pair (31, 15). -/
theorem test_bdSymbol_second :
    sees (coreStep { running 4 .bdSymbol testSymbols with i := 1, pv := 31, pvValid := true }) (fun s =>
      s.pv == 0 && s.pvValid == false && s.accB == 0x574 && s.accN == 13 && s.seq == .bdFlush) = true := by decide

/-- V67, step 7. -/
theorem test_bdFlush :
    sees (coreStep { running 4 .bdFlush testSymbols with o := 1, accB := 0x7365, accN := 18 }) (fun s =>
      s.accB == 0x73 && s.accN == 10 && s.o == 2 && s.outBuf == [(1, 0x65)]) = true := by decide

/-- V67, step 12. -/
theorem test_bdTail :
    sees (coreStep { running 4 .bdTail testSymbols with i := 5, o := 3, accN := 2, pv := 29, pvValid := true }) (fun s =>
      s.outBuf == [(3, 0x74)] && s.outLen == 4 && s.status == 2 && s.seq == .idle) = true := by decide

/-- V68. -/
theorem test_decRom :
    [0x41, 0x61, 0x30, 0x21, 0x22, 0x20, 0x27, 0x2D, 0x5C, 0x7F, 0xFF].map (decRom standardParams) =
      [0x80, 0x9A, 0xB4, 0xBE, 0xDA, 0x00, 0x00, 0x00, 0x00, 0x00, 0x00] := by decide

/-- V48, V62, V20, V39c as whole frames. -/
theorem test_frames :
    base91Encode standardParams testBytes = testSymbols ∧
    base91Decode standardParams testSymbols = testBytes ∧
    hexSymbols true [0x00, 0xFF, 0x1A] = [0x30, 0x30, 0x46, 0x46, 0x31, 0x41] ∧
    hexDecode standardParams [0x4F, 0x4F] = .ok [0x98] := by decide

/-! ## The host -/

/-- What a transaction leaves of IN_LEN, IN_BUF, HOSTFAULT and the value read. -/
def leaves (s : State) (t : Transaction) (n : Word) (m : Memory) (h : FaultSet) (v : Option Word) : Bool :=
  sees (transact t s) fun u => u.inLen == n && u.inBuf == m && u.hostFault == h && u.rdata == v

/-- The three single-reason sets. -/
def wwb : FaultSet := { FaultSet.empty with writeWhileBusy := true }
def badAddr : FaultSet := { FaultSet.empty with badAddress := true }
def badByte : FaultSet := { FaultSet.empty with badData := true }

/-- V110, V114, V115, V116, V117: writes while idle. -/
theorem test_writes_idle :
    leaves State.reset ⟨.reg, true, 2, 4⟩ 4 [] FaultSet.empty none = true ∧
    leaves State.reset ⟨.inBuf, true, 64, 0x30⟩ 0 [] badAddr none = true ∧
    leaves State.reset ⟨.inBuf, true, 0, 0x100⟩ 0 [] badByte none = true ∧
    leaves State.reset ⟨.inBuf, true, 63, 0xFF⟩ 0 [(63, 0xFF)] FaultSet.empty none = true ∧
    leaves State.reset ⟨.outBuf, true, 0, 0x41⟩ 0 [] badAddr none = true := by decide

/-- V113, V118, V119, V128: reads while idle. -/
theorem test_reads_idle :
    leaves State.reset ⟨.reg, false, 4, 0⟩ 0 [] badAddr none = true ∧
    leaves State.reset ⟨.outBuf, false, 128, 0⟩ 0 [] badAddr none = true ∧
    leaves State.reset ⟨.reserved, false, 0, 0⟩ 0 [] badAddr none = true ∧
    leaves State.reset ⟨.reg, false, 1, 0⟩ 0 [] FaultSet.empty (some 0) = true := by decide

/-- B91ENC running on one byte. -/
def oneByte : State := running 3 .beConsume [0x74]

/-- V120, V121: writes while a command runs. -/
theorem test_writes_busy :
    leaves oneByte ⟨.reg, true, 0, 2⟩ 1 [(0, 0x74)] wwb none = true ∧
    leaves oneByte ⟨.inBuf, true, 64, 0x100⟩ 1 [(0, 0x74)] wwb none = true := by decide

/-- V123 to V126: reads while a command runs. -/
theorem test_reads_busy :
    leaves oneByte ⟨.reg, false, 3, 0⟩ 1 [(0, 0x74)] FaultSet.empty (some 0) = true ∧
    leaves oneByte ⟨.reg, false, 1, 0⟩ 1 [(0, 0x74)] FaultSet.empty (some 1) = true ∧
    leaves oneByte ⟨.inBuf, false, 0, 0⟩ 1 [(0, 0x74)] FaultSet.empty (some 0x74) = true ∧
    leaves oneByte ⟨.reg, false, 4, 0⟩ 1 [(0, 0x74)] badAddr none = true := by decide

/-- V122, V127: the value read is the next draw, whatever it is. -/
theorem test_draws :
    transact ⟨.inBuf, false, 5, 0⟩ State.reset =
      .next { State.reset with rdata := some ((Config.freeByte 0 0).setWidth 32), draws := 1 } ∧
    transact ⟨.outBuf, false, 0, 0⟩ oneByte =
      .next { oneByte with rdata := some ((Config.freeByte 0 0).setWidth 32), draws := 1 } := ⟨rfl, rfl⟩

/-- V130: reset while a command runs, HOSTFAULT stays. -/
theorem test_reset_input :
    sees (hostMove { running 3 .beGroup testBytes with
      i := 2, o := 2, accB := 3, accN := 3, outBuf := [(0, 0x66), (1, 0x50)], hostFault := wwb,
      host := [.reset] }) (fun s => s.coreSide == State.reset && s.hostFault == wwb) = true := by
  decide

/-- P2's LOADIN and RUN as transactions. -/
theorem test_assemble :
    assemble [.loadin [0x74, 0x65], .run .b91enc] =
      [.tx ⟨.inBuf, true, 0, 0x74⟩, .tx ⟨.inBuf, true, 1, 0x65⟩, .tx ⟨.reg, true, 2, 2⟩,
        .tx ⟨.reg, true, 0, 3⟩, .poll] := by decide

/-- `HEXENC` without a suffix assembles UPPER = 1 (R65). -/
theorem test_assemble_hexenc : assemble [.hexenc] = [.tx ⟨.reg, true, 0, 9⟩] := by decide

/-! ## Witnesses: states and operands that meet the hypotheses of each obligation -/

/-- The two states of the invariant's witnesses: B91ENC and B91DEC in the middle of "test" (V50e after
step 3, V67 after step 2). -/
def encoding : State :=
  { running 3 .beGroup testBytes with i := 2, accB := 0x6574, accN := 16 }

def decoding : State :=
  { running 4 .bdFlush testSymbols with i := 2, accB := 0x574, accN := 13 }

theorem encoding_inv : encoding.Inv := by
  refine ⟨by decide, by decide, fun h => absurd h (by decide), fun _ => ⟨by decide, by decide,
    ⟨.b91enc, by decide, rfl⟩, by decide, by decide⟩, by decide, ?_⟩
  show encoding.AccBounded 21 ∧ encoding.EncoderRoom
  unfold State.AccBounded State.EncoderRoom; decide

theorem decoding_inv : decoding.Inv := by
  refine ⟨by decide, by decide, fun h => absurd h (by decide), fun _ => ⟨by decide, by decide,
    ⟨.b91dec, by decide, rfl⟩, by decide, by decide⟩, by decide, ?_⟩
  show decoding.AccBounded 21 ∧ decoding.DecoderRoom
  unfold State.AccBounded State.DecoderRoom; decide

/-- The invariant in a loaded machine that no command has run on. -/
theorem loaded_inv : (loaded testBytes).Inv := by
  refine ⟨by decide, by decide, fun _ => .inl ⟨by decide, by decide⟩, fun h => absurd rfl h, by decide, trivial⟩

theorem loaded_holds (x : List Byte) (h : ∀ k, k < x.length → (cellsFrom 0 x : Memory).read k = x[k]?)
    (hx : x.length < 2 ^ 32) : (loaded x).HoldsFrame x :=
  ⟨by simp [loaded]; omega, h⟩

/-- LegalWordsAreExactlyFive, EncodeDecodeAgree: each of the five words, and a command for each. -/
theorem witness_legal_words :
    decode 9 = .legal .hexencU ∧ decode 1 = .legal .hexencL ∧ decode 2 = .legal .hexdec ∧
    decode 3 = .legal .b91enc ∧ decode 4 = .legal .b91dec := by decide

/-- StepRunsDecodedCommand: reset with a command word placed. -/
theorem witness_step_runs :
    decode 9 = .legal .hexencU ∧ (State.reset.withFetchWord 32 9).mover = .host ∧
    (State.reset.withFetchWord 32 9).host = .tx (cmdWrite 9) :: [] := by decide

/-- StartStepClearsAndDispatches, in each of its cases: an illegal word, a frame that is too long, an empty
frame, one byte, and one that fills IN_BUF; and the host's turn to write an illegal word. -/
theorem witness_start_step :
    State.busy { State.reset with inLen := 65 } = false ∧ State.busy { State.reset with inLen := 64 } = false ∧
    decode 5 = .illegal .reservedOp ∧ (65 : Word).toNat > State.reset.cfg.inCap ∧
    ¬(64 : Word).toNat > State.reset.cfg.inCap ∧ (0 : Word).toNat ≤ State.reset.cfg.inCap ∧
    (State.reset.withFetchWord 32 5).mover = .host ∧
    (State.reset.withFetchWord 32 5).host = .tx (cmdWrite 5) :: [] := by decide

/-- HexencStarts and HexdecAndBase91Start: one byte, the empty frame, and one that fills IN_BUF. -/
theorem witness_starts :
    (loaded [0x41]).busy = false ∧ (loaded [0x41]).inLen ≠ 0 ∧
    (loaded [0x41]).inLen.toNat ≤ (loaded [0x41]).cfg.inCap ∧
    (loaded []).busy = false ∧ (loaded []).inLen.toNat ≤ (loaded []).cfg.inCap ∧
    (State.busy { State.reset with inLen := 64 } = false ∧ (64 : Word) ≠ 0 ∧
      (64 : Word).toNat ≤ State.reset.cfg.inCap) := by decide

/-- CommandWhileBusyOnlyRecords, AnyWriteWhileBusyOnlyRecords: a running command. -/
theorem witness_busy : encoding.busy = true ∧ (cmdWrite 9).write = true := by decide

/-- StartFrame: a start while idle and one while busy. -/
theorem witness_start_frame :
    (∃ t, exec .hexdec (loaded [0x41]) = .next t) ∧ ∃ t, exec .b91dec encoding = .next t :=
  ⟨⟨_, rfl⟩, ⟨_, rfl⟩⟩

/-- HexEncodeStep, first clause: the first byte, and the last of a frame that fills IN_BUF. -/
theorem witness_hexEncode_byte :
    (∃ (s : State) (b : Byte) (u : State), s.seq = .heByte ∧ s.i.toNat < s.inLen.toNat ∧ s.i.toNat < s.cfg.inCap ∧
      s.o.toNat + 1 < s.cfg.outCap ∧ s.byteOr (s.inBuf.read s.i.toNat) = (b, u) ∧ s.i = 0) ∧
    ∃ (s : State) (b : Byte) (u : State), s.seq = .heByte ∧ s.i.toNat < s.inLen.toNat ∧ s.i.toNat < s.cfg.inCap ∧
      s.o.toNat + 1 < s.cfg.outCap ∧ s.byteOr (s.inBuf.read s.i.toNat) = (b, u) ∧
      s.i.toNat + 1 = s.cfg.inCap ∧ s.o.toNat + 2 = s.cfg.outCap :=
  ⟨⟨running 9 .heByte [0x41], _, _, rfl, by decide, by decide, by decide, rfl, rfl⟩,
    ⟨{ running 9 .heByte [] with inLen := 64, i := 63, o := 126 }, _, _, rfl, by decide, by decide, by decide,
      rfl, by decide, by decide⟩⟩

/-- HexEncodeStep, second clause: right after the last byte. -/
theorem witness_hexEncode_end :
    (State.seq { running 9 .heByte [0x41] with i := 1, o := 2 }) = .heByte ∧
    (State.inLen { running 9 .heByte [0x41] with i := 1, o := 2 }).toNat ≤ (1 : Word).toNat := by decide

/-- HexTrimStep: an empty frame, and one that fills IN_BUF, of which nothing has been written. -/
theorem witness_hexTrim :
    (running 2 .hdTrim []).seq = .hdTrim ∧ (running 2 .hdTrim []).inLen.toNat ≤ State.reset.cfg.inCap ∧
    (State.seq { running 2 .hdTrim [] with inLen := 64 }) = .hdTrim ∧
    (64 : Word).toNat ≤ State.reset.cfg.inCap := by decide

/-- HexTrimStep on written frames, one for each outcome: whitespace only, an odd and an even length. -/
theorem witness_hexTrim_outcomes :
    (running 2 .hdTrim [0x20, 0x20]).FrameWritten ∧ (running 2 .hdTrim [0x20, 0x30, 0x20]).FrameWritten ∧
    (running 2 .hdTrim [0x20, 0x30, 0x61]).FrameWritten ∧
    sees (coreStep (running 2 .hdTrim [0x20, 0x20])) (fun t => t.status == 0x12 && t.draws == 0) = true ∧
    sees (coreStep (running 2 .hdTrim [0x20, 0x30, 0x20])) (fun t => t.status == 0x22 && t.draws == 0) = true ∧
    sees (coreStep (running 2 .hdTrim [0x20, 0x30, 0x61])) (fun t =>
      t.i == 1 && t.trimE == 3 && t.draws == 0) = true := by
  unfold State.FrameWritten; decide

/-- RegisterReads, last clause: a command that runs, in a state that satisfies the invariant. -/
theorem witness_outLen_busy : encoding.Inv ∧ encoding.busy = true := ⟨encoding_inv, by decide⟩

/-- HexPairStep, first clause: the last pair of a frame that fills IN_BUF. -/
theorem witness_hexPair :
    ∃ (s : State) (hi : Byte) (t : State) (lo : Byte) (u : State), s.seq = .hdPair ∧ s.i.toNat < s.trimE.toNat ∧
      s.i.toNat + 1 < s.cfg.inCap ∧ s.o.toNat < s.cfg.outCap ∧ s.byteOr (s.inBuf.read s.i.toNat) = (hi, t) ∧
      t.byteOr (t.inBuf.read (s.i.toNat + 1)) = (lo, u) ∧ s.i.toNat + 2 = s.cfg.inCap :=
  ⟨{ running 2 .hdPair [] with inLen := 64, i := 62, trimE := 64, o := 31 }, _, _, _, _, rfl, by decide,
    by decide, by decide, rfl, rfl, by decide⟩

/-- HexPairStep, second clause: the pairs are used up. -/
theorem witness_hexPair_end :
    (State.seq { running 2 .hdPair [0x30, 0x31] with i := 2, trimE := 2 }) = .hdPair ∧
    (2 : Word).toNat ≤ (2 : Word).toNat := by decide

/-- Base91ConsumeStep: a byte to consume, and none. -/
theorem witness_consume :
    (∃ (s : State) (b : Byte) (u : State), s.seq = .beConsume ∧ s.i.toNat < s.inLen.toNat ∧ s.i.toNat < s.cfg.inCap ∧
      s.byteOr (s.inBuf.read s.i.toNat) = (b, u)) ∧
    ∃ s : State, s.seq = .beConsume ∧ s.inLen.toNat ≤ s.i.toNat :=
  ⟨⟨running 3 .beConsume [0x41], _, _, rfl, by decide, by decide, rfl⟩, ⟨running 3 .beConsume [], rfl, by decide⟩⟩

/-- Base91GroupStep: the least and the greatest ACC_N of a group, of 13 and of 14 bits, at both ends of the
two digits; and the greatest ACC_N without a group. -/
theorem witness_group :
    (∃ (s : State) (v w : Nat) (x y : Byte), s.seq = .beGroup ∧ s.accN.toNat > 13 ∧ s.accN = 14 ∧
      s.o.toNat + 1 < s.cfg.outCap ∧
      (v, w) = (if (s.accB.toNat &&& 8191) > 88 then (s.accB.toNat &&& 8191, 13)
        else (s.accB.toNat &&& 16383, 14)) ∧ w = 14 ∧
      s.cfg.alphabet[v % 91]? = some x ∧ s.cfg.alphabet[v / 91]? = some y) ∧
    (∃ (s : State) (v w : Nat) (x y : Byte), s.seq = .beGroup ∧ s.accN.toNat > 13 ∧ s.accN = 21 ∧
      s.o.toNat + 1 < s.cfg.outCap ∧
      (v, w) = (if (s.accB.toNat &&& 8191) > 88 then (s.accB.toNat &&& 8191, 13)
        else (s.accB.toNat &&& 16383, 14)) ∧ w = 13 ∧
      s.cfg.alphabet[v % 91]? = some x ∧ s.cfg.alphabet[v / 91]? = some y) ∧
    ∃ s : State, s.seq = .beGroup ∧ s.accN.toNat ≤ 13 ∧ s.accN = 13 :=
  ⟨⟨{ running 3 .beGroup [] with accB := 8280, accN := 14 }, 8280, 14, 0x22, 0x22, rfl, by decide, rfl, by decide,
      by decide, rfl, by decide, by decide⟩,
    ⟨{ running 3 .beGroup [] with accB := 0x1FFFFF, accN := 21 }, 8191, 13, 0x42, 0x22, rfl, by decide, rfl,
      by decide, by decide, rfl, by decide, by decide⟩,
    ⟨{ running 3 .beGroup [] with accN := 13 }, rfl, by decide, rfl⟩⟩

/-- Base91TailStep: no bit; at most 7 bits with a value of at most 90; 7 bits with 91; 8 bits. -/
theorem witness_tail :
    (∃ s : State, s.seq = .beTail ∧ s.accN = 0) ∧
    (∃ (s : State) (x : Byte), s.seq = .beTail ∧ s.accN ≠ 0 ∧ s.accN.toNat ≤ 7 ∧ s.accB.toNat ≤ 90 ∧
      s.o.toNat < s.cfg.outCap ∧ s.cfg.alphabet[s.accB.toNat % 91]? = some x ∧ s.accB = 90 ∧ s.accN = 7) ∧
    (∃ (s : State) (x y : Byte), s.seq = .beTail ∧ (s.accN ≠ 0 ∧ s.accB.toNat > 90) ∧
      s.o.toNat < s.cfg.outCap ∧ (s.o + 1).toNat < s.cfg.outCap ∧
      s.cfg.alphabet[s.accB.toNat % 91]? = some x ∧ s.cfg.alphabet[s.accB.toNat / 91]? = some y ∧
      s.accB = 91 ∧ s.accN = 7) ∧
    ∃ (s : State) (x y : Byte), s.seq = .beTail ∧ s.accN.toNat > 7 ∧
      s.o.toNat < s.cfg.outCap ∧ (s.o + 1).toNat < s.cfg.outCap ∧
      s.cfg.alphabet[s.accB.toNat % 91]? = some x ∧ s.cfg.alphabet[s.accB.toNat / 91]? = some y ∧
      s.accB = 0 ∧ s.accN = 8 :=
  ⟨⟨running 3 .beTail [], rfl, rfl⟩,
    ⟨{ running 3 .beTail [] with accB := 90, accN := 7 }, 0x22, rfl, by decide, by decide, by decide, by decide,
      by decide, rfl, rfl⟩,
    ⟨{ running 3 .beTail [] with accB := 91, accN := 7 }, 0x41, 0x42, rfl, by decide, by decide, by decide,
      by decide, by decide, rfl, rfl⟩,
    ⟨{ running 3 .beTail [] with accN := 8 }, 0x41, 0x41, rfl, by decide, by decide, by decide, by decide,
      by decide, rfl, rfl⟩⟩

/-- Base91SymbolStep: an unknown symbol, a first half, a second half of either width, and no more input. -/
theorem witness_symbol :
    (∃ (s : State) (b : Byte) (u : State), s.seq = .bdSymbol ∧ s.i.toNat < s.inLen.toNat ∧
      s.i.toNat < s.cfg.inCap ∧ s.byteOr (s.inBuf.read s.i.toNat) = (b, u) ∧ b ∉ s.cfg.alphabet) ∧
    (∃ (s : State) (b : Byte) (u : State) (c : Nat), s.seq = .bdSymbol ∧ s.i.toNat < s.inLen.toNat ∧
      s.i.toNat < s.cfg.inCap ∧ s.byteOr (s.inBuf.read s.i.toNat) = (b, u) ∧ s.cfg.alphabet[c]? = some b ∧ c = 90 ∧
      s.pvValid = false) ∧
    (∃ (s : State) (b : Byte) (u : State) (c : Nat), s.seq = .bdSymbol ∧ s.i.toNat < s.inLen.toNat ∧
      s.i.toNat < s.cfg.inCap ∧ s.byteOr (s.inBuf.read s.i.toNat) = (b, u) ∧ s.cfg.alphabet[c]? = some b ∧ c = 90 ∧
      s.pvValid = true ∧ s.pv = 90) ∧
    ∃ s : State, s.seq = .bdSymbol ∧ s.inLen.toNat ≤ s.i.toNat :=
  ⟨⟨running 4 .bdSymbol [0x20], _, _, rfl, by decide, by decide, rfl, by decide⟩,
    ⟨running 4 .bdSymbol [0x22], _, _, 90, rfl, by decide, by decide, rfl, by decide, rfl, rfl⟩,
    ⟨{ running 4 .bdSymbol [0x22] with pv := 90, pvValid := true }, _, _, 90, rfl, by decide, by decide, rfl,
      by decide, rfl, rfl, rfl⟩,
    ⟨running 4 .bdSymbol [], rfl, by decide⟩⟩

/-- Base91FlushStep: 8 bits, and 7. -/
theorem witness_flush :
    (∃ s : State, s.seq = .bdFlush ∧ s.accN.toNat > 7 ∧ s.accN = 8 ∧ s.o.toNat < s.cfg.outCap) ∧
    ∃ s : State, s.seq = .bdFlush ∧ s.accN.toNat ≤ 7 ∧ s.accN = 7 :=
  ⟨⟨{ running 4 .bdFlush [] with accN := 8 }, rfl, by decide, rfl, by decide⟩,
    ⟨{ running 4 .bdFlush [] with accN := 7 }, rfl, by decide, rfl⟩⟩

/-- Base91PendingStep: a pending symbol, and none. -/
theorem witness_pending :
    (∃ s : State, s.seq = .bdTail ∧ s.pvValid = true ∧ s.o.toNat < s.cfg.outCap) ∧
    ∃ s : State, s.seq = .bdTail ∧ s.pvValid = false :=
  ⟨⟨{ running 4 .bdTail [] with pvValid := true }, rfl, rfl, by decide⟩, ⟨running 4 .bdTail [], rfl, rfl⟩⟩

/-- CoreStepFrame: a step that stores two bytes, and one that stores none. -/
theorem witness_core_step :
    (∃ t, coreStep encoding = .next t ∧ encoding.storesAt = [0, 1]) ∧
    ∃ t, coreStep oneByte = .next t ∧ oneByte.storesAt = [] :=
  ⟨⟨_, rfl, by decide⟩, ⟨_, rfl, by decide⟩⟩

/-- OutOfMapAccessesOnlyRecord: while idle; and the addresses and data at the ends of InBufWriteCases' cases. -/
theorem witness_idle :
    State.reset.busy = false ∧ 4 ≤ (4 : BitVec 32).toNat ∧ 4 ≤ (0xFFFFFFFF : BitVec 32).toNat ∧
    State.reset.cfg.inCap ≤ (64 : BitVec 32).toNat ∧ ¬State.reset.cfg.inCap ≤ (63 : BitVec 32).toNat ∧
    (256 : Word).toNat ≥ 256 ∧ ¬(255 : Word).toNat ≥ 256 := by decide

/-- PollAndReadoutMoves: POLL of a finished and of a running command, and READOUT. -/
theorem witness_poll :
    (∃ (s : State) (rest : List HostOp), s.host = .poll :: rest ∧ s.status.getLsbD 1 = true) ∧
    (∃ (s : State) (rest : List HostOp), s.host = .poll :: rest ∧ s.status.getLsbD 1 = false) ∧
    ∃ (s : State) (rest : List HostOp), s.host = .readout :: rest :=
  ⟨⟨{ State.reset with status := 2, host := [.poll] }, _, rfl, by decide⟩,
    ⟨{ oneByte with host := [.poll] }, _, rfl, by decide⟩, ⟨{ State.reset with host := [.readout] }, _, rfl⟩⟩

/-- ResetInputClears: the reset input while a command runs. -/
theorem witness_reset : ∃ (s : State) (rest : List HostOp), s.host = HostOp.reset :: rest ∧ s.busy = true :=
  ⟨{ encoding with host := [.reset] }, _, rfl, by decide⟩

/-- BootStartsInReset: parameters that boot and parameters that do not. -/
theorem witness_boot :
    standardParams.wf = true ∧ Params.wf { standardParams with nInst := 0 } = false ∧
    Params.wf { standardParams with whitespace := [] } = false := by decide

/-- DecodeRomInvertsAlphabet: the last symbol of the alphabet, and an unknown one. -/
theorem witness_decRom :
    standardConfig.alphabet[90]? = some 0x22 ∧ (0x20 : Byte) ∉ standardConfig.alphabet := by decide

/-- PushIsExact: the encoder's widest push and the decoder's. -/
theorem witness_push :
    (∃ (s : State) (x w : Nat), s.accB.toNat < 2 ^ s.accN.toNat ∧ x < 2 ^ w ∧ s.accN.toNat + w ≤ 31 ∧
      s.accN = 13 ∧ x = 255 ∧ w = 8) ∧
    ∃ (s : State) (x w : Nat), s.accB.toNat < 2 ^ s.accN.toNat ∧ x < 2 ^ w ∧ s.accN.toNat + w ≤ 31 ∧
      s.accN = 7 ∧ x = 8280 ∧ w = 14 :=
  ⟨⟨{ State.reset with accB := 8191, accN := 13 }, 255, 8, by decide, by decide, by decide, rfl, rfl, rfl⟩,
    ⟨{ State.reset with accB := 127, accN := 7 }, 8280, 14, by decide, by decide, by decide, rfl, rfl, rfl⟩⟩

/-- LowAndPopSplitTheAccumulator: all bits of a full accumulator. -/
theorem witness_pop :
    ∃ (s : State) (w : Nat), w ≤ s.accN.toNat ∧ s.accB.toNat < 2 ^ s.accN.toNat ∧ w = 14 ∧ s.accN = 14 :=
  ⟨{ State.reset with accB := 8280, accN := 14 }, 14, by decide, by decide, rfl, rfl⟩

/-- GroupValueRange: a 13-bit group at both ends, and a 14-bit one at its top. -/
theorem witness_group_value :
    89 = lowBits (gsel 89) 89 ∧ gsel 89 = 13 ∧ 8191 = lowBits (gsel 8191) 8191 ∧
    8280 = lowBits (gsel 8280) 8280 ∧ gsel 8280 = 14 := by decide

/-- HexEncodeLengthAndCase, HexRoundTrip: a frame that encodes. -/
theorem witness_hexEncode :
    hexEncode true [0x1A] = .ok [0x31, 0x41] ∧ ([0x1A] : List Byte) ≠ [] :=
  ⟨rfl, by decide⟩

/-- HexencRunsToCompletion, B91encRunsToCompletion, B91decRunsToCompletion: a loaded machine. -/
theorem witness_runs :
    (loaded testBytes).busy = false ∧ (loaded testBytes).turns = [] ∧
    (loaded testBytes).HoldsFrame testBytes ∧ testBytes ≠ [] ∧
    testBytes.length ≤ (loaded testBytes).cfg.inCap ∧ 2 * testBytes.length < 2 ^ 32 ∧
    (base91EncodeIdx testBytes).length < 2 ^ 32 ∧ (loaded []).HoldsFrame [] ∧ (loaded []).busy = false :=
  ⟨by decide, rfl, loaded_holds _ (by decide) (by decide), by decide, by decide, by decide, by decide,
    loaded_holds _ (by decide) (by decide), by decide⟩

/-- HexdecRunsToCompletion: a frame that decodes, and one with each error. -/
theorem witness_hexdec_runs :
    (loaded [0x30, 0x61]).HoldsFrame [0x30, 0x61] ∧ (loaded [0x30, 0x61]).busy = false ∧
    hexDecode standardParams [0x30, 0x61] = .ok [0x0A] ∧
    hexDecode standardParams [0x20] = .error .invalidArgument ∧
    hexDecode standardParams [0x61] = .error .invalidLength ∧
    (loaded [0x20]).HoldsFrame [0x20] ∧ (loaded [0x61]).HoldsFrame [0x61] :=
  ⟨loaded_holds _ (by decide) (by decide), by decide, by rfl, by rfl, by rfl,
    loaded_holds _ (by decide) (by decide), loaded_holds _ (by decide) (by decide)⟩

/-- EveryCommandFinishes: a loaded machine, and one whose frame was never written. -/
theorem witness_finishes :
    ((loaded testBytes).Inv ∧ (loaded testBytes).busy = false ∧ (loaded testBytes).turns = [] ∧
      ∃ t, exec .b91enc (loaded testBytes) = .next t) ∧
    ∃ s : State, s.Inv ∧ s.busy = false ∧ s.turns = [] ∧ s.inLen = 64 ∧ s.inBuf = [] :=
  ⟨⟨loaded_inv, by decide, rfl, _, rfl⟩,
    ⟨{ State.reset with inLen := 64 }, ⟨by decide, by decide, fun _ => .inl ⟨by decide, by decide⟩,
      fun h => absurd rfl h, by decide, trivial⟩, by decide, rfl, rfl, rfl⟩⟩

/-- StepKeepsInvariant, NoStepFaults, StatusBitsAreConsistent: states in which a command runs. -/
theorem witness_invariant :
    (encoding.Inv ∧ ∃ t, step encoding = .next t) ∧ decoding.Inv ∧ ∃ t, step decoding = .next t :=
  ⟨⟨encoding_inv, _, rfl⟩, decoding_inv, _, rfl⟩

/-- AccumulatorWidthBound: both base91 commands. -/
theorem witness_accumulator :
    (decode encoding.cmd = .legal .b91enc ∧ encoding.seq ≠ .idle ∧ ∃ t, coreStep encoding = .next t) ∧
    decode decoding.cmd = .legal .b91dec ∧ decoding.seq ≠ .idle ∧ ∃ t, coreStep decoding = .next t :=
  ⟨⟨by decide, by decide, _, rfl⟩, by decide, by decide, _, rfl⟩

/-- HostFaultOnlyGrows: a step from a state with a reason recorded. -/
theorem witness_host_fault :
    ∃ s t : State, step s = .next t ∧ s.hostFault.has .badAddress = true :=
  ⟨{ encoding with hostFault := badAddr }, _, rfl, by decide⟩

/-- OnlyCommandWritesLeaveIdle: a command written on a loaded machine. -/
theorem witness_leave_idle :
    ∃ s t : State, s.seq = .idle ∧ step s = .next t ∧ t.seq ≠ .idle :=
  ⟨(loaded testBytes).withFetchWord 32 3, _, rfl, rfl, by decide⟩

/-- ResultStaysUntilNextCommand: the host writes IN_LEN after a command. -/
theorem witness_result_stays :
    ∃ s t : State, s.seq = .idle ∧ step s = .next t ∧ s.status = 2 ∧ s.outLen = 6 ∧
      (∀ x rest, s.host = .tx x :: rest → x.writesCmd = false) ∧ ∀ rest, s.host ≠ .reset :: rest := by
  refine ⟨{ State.reset with status := 2, outLen := 6, host := [.tx ⟨.reg, true, 2, 4⟩] }, _, rfl, rfl, rfl, rfl,
    fun x rest h => ?_, fun rest h => ?_⟩
  · obtain ⟨h₁, -⟩ := List.cons.inj h
    cases h₁; decide
  · obtain ⟨h₁, -⟩ := List.cons.inj h
    cases h₁

/-- CoreStepDependsOnCoreSideOnly: two states with one CORE's side and different hosts. -/
theorem witness_core_side :
    ∃ s t s' : State, s ≠ t ∧ s.Inv ∧ s.coreSide = t.coreSide ∧ s.FrameWritten ∧ coreStep s = .next s' :=
  ⟨encoding, { encoding with draws := 7, host := [.poll], hostFault := wwb }, _, by decide, encoding_inv, rfl,
    by unfold State.FrameWritten; decide, rfl⟩

/-- ScheduleCannotChangeTheResult: a host that polls between two CORE steps. -/
def polled : State := { encoding with host := [.poll, .poll], turns := [.host, .core] }

theorem witness_schedule :
    polled.Inv ∧ polled.seq ≠ .idle ∧ polled.FrameWritten ∧ HostOp.reset ∉ polled.host ∧
    (∀ m u, m < 2 → Host.Core.run Sys2Proof.core m polled = .next u → u.seq ≠ .idle) ∧
    ∃ t, Host.Core.run Sys2Proof.core 2 polled = .next t := by
  refine ⟨?_, by decide, by unfold State.FrameWritten; decide, by decide, fun m u hm h => ?_, _, rfl⟩
  · obtain ⟨h₁, h₂, h₃, h₄, h₅, h₆⟩ := encoding_inv
    exact ⟨h₁, h₂, h₃, h₄, h₅, h₆⟩
  · obtain rfl | rfl : m = 0 ∨ m = 1 := by omega
    · cases h; decide
    · have h' : Host.Outcome.next { polled with turns := [.core], rdata := some 1 } =
          (Host.Outcome.next u : Answer) := h
      cases h'; decide

/-! ### The host protocol (R164) -/

/-- P1 and P3 together, and the three of them. -/
def keepsP1P3 (p : HostPhase) (s : State) : Bool := keepsP1 p s && keepsP3 p s
def keepsAll (p : HostPhase) (s : State) : Bool := keepsP1 p s && keepsP2 p s && keepsP3 p s

/-- The reset state with a host that writes an illegal word and waits for its end in one way or another. -/
def program (ops : List HostOp) : State := { State.reset with host := .tx (cmdWrite 0) :: ops }

/-- P3's end of a wait by a plain `RD STATUS`, after which the host may write again; the same with POLL. A
write before either breaks P1, an output read before either breaks P2, and index 4 breaks P3. -/
theorem test_protocol :
    State.keeps keepsAll 3 .noCommand (program [.tx statusRead, .tx ⟨.reg, true, 2, 0⟩]) = true ∧
    State.keeps keepsAll 3 .noCommand (program [.poll, .tx ⟨.reg, true, 2, 0⟩]) = true ∧
    State.keeps keepsP1 2 .noCommand (program [.tx ⟨.reg, true, 2, 0⟩]) = false ∧
    State.keeps keepsP2 2 .noCommand (program [.tx outLenRead]) = false ∧
    State.keeps keepsP2 3 .noCommand (program [.tx statusRead, .tx (outByteRead 0)]) = true ∧
    State.keeps keepsP3 2 .noCommand (program [.tx ⟨.reg, false, 4, 0⟩]) = false := by decide

/-- A STATUS read while the command runs does not end the wait. -/
theorem test_protocol_busy :
    State.keeps keepsP1 3 .noCommand { loaded testBytes with
      host := [.tx (cmdWrite 3), .tx statusRead, .tx ⟨.reg, true, 2, 0⟩], turns := [.host, .host, .host] } =
      false := by decide

theorem program_inv (ops : List HostOp) : (program ops).Inv :=
  ⟨by show Memory.wf _ [] = true; rfl, by show Memory.wf _ [] = true; rfl, fun _ => .inl ⟨rfl, rfl⟩,
    fun h => absurd rfl h, by show (0 : BitVec 7).toNat ≤ 90; decide, trivial⟩

/-- The reset state with a host that reads STATUS and has nothing else to do; and what it leaves. -/
def asking : State := { State.reset with host := [.tx statusRead] }
def answered : State := { State.reset with rdata := some 0 }

theorem asking_inv : asking.Inv := ⟨by decide, by decide, fun _ => .inl ⟨rfl, rfl⟩, fun h => absurd rfl h,
  by decide, trivial⟩

/-- ConformingHostNeverFaults, first clause: P3's illegal word, whose end the host awaits by `RD STATUS`. -/
theorem witness_conforming :
    ∃ s t : State, s.Inv ∧ s.hostFault = FaultSet.empty ∧ (s.busy = true → HostPhase.noCommand = .waiting) ∧
      State.keeps keepsP1P3 3 .noCommand s = true ∧ Host.Core.run Sys2Proof.core 3 s = .next t :=
  ⟨program [.tx statusRead, .tx ⟨.reg, true, 2, 0⟩], _, program_inv _, rfl, fun h => absurd h (by decide),
    by decide, rfl⟩

/-- Its second clause: the byte read after DONE = 1 has been read. -/
theorem witness_takes_output :
    ∃ s t : State, s.Inv ∧ (s.busy = true → HostPhase.noCommand = .waiting) ∧
      State.keeps keepsP2 3 .noCommand s = true ∧ Host.Core.run Sys2Proof.core 2 s = .next t ∧
      t.takesOutput = true :=
  ⟨program [.tx statusRead, .tx (outByteRead 0)], _, program_inv _, fun h => absurd h (by decide), by decide,
    rfl, by decide⟩

/-- Its third clause: an unmapped read, and a write while a command runs. -/
theorem witness_breaks_protocol :
    (∃ s t : State, s.nextOp = some (.tx ⟨.reg, false, 4, 0⟩) ∧
      Transaction.mapped s.cfg.toParams ⟨.reg, false, 4, 0⟩ = false ∧ step s = .next t) ∧
    ∃ s t : State, s.nextOp = some (.tx (cmdWrite 1)) ∧ (cmdWrite 1).write = true ∧ s.busy = true ∧
      step s = .next t :=
  ⟨⟨{ State.reset with host := [.tx ⟨.reg, false, 4, 0⟩] }, _, rfl, by decide, rfl⟩,
    ⟨encoding.withFetchWord 32 1, _, rfl, rfl, by decide, rfl⟩⟩

/-- A host that does `op` at its first turn keeps a rule for any number of steps under any schedule, if it
keeps it at that turn and from the state after it on. -/
theorem keeps_stutter {R : HostPhase → State → Bool} {p q : HostPhase} {c c' : State} (hi : c.seq = .idle)
    (hR : ∀ T, R p { c with turns := .core :: T } = true)
    (h : ∀ T, (∀ a l, T = a :: l → a = .host) → R p { c with turns := T } = true ∧
      State.phaseAfter { c with turns := T } p = q ∧
      step { c with turns := T } = .next { c' with turns := T.tail })
    (next : ∀ n T, State.keeps R n q { c' with turns := T } = true) (n : Nat) (T : List Agent) :
    State.keeps R n p { c with turns := T } = true := by
  have turn : ∀ n T, (∀ a l, T = a :: l → a = .host) → State.keeps R n p { c with turns := T } = true := by
    intro n T hT
    cases n with
    | zero => rfl
    | succ n =>
      obtain ⟨h₁, h₂, h₃⟩ := h T hT
      rw [State.keeps, h₃, h₁, h₂]
      exact next n T.tail
  induction n generalizing T with
  | zero => rfl
  | succ n ih =>
    match T with
    | [] => exact turn _ _ fun a l e => by cases e
    | .host :: T => exact turn _ _ fun a l e => by cases e; rfl
    | .core :: T =>
      have e : step { c with turns := .core :: T } = .next { c with turns := T } := by
        show coreStep { c with turns := T } = _
        unfold coreStep; simp only [hi]
      rw [State.keeps, e, hR T]
      exact ih T

/-- A host with nothing left to do keeps the protocol, whatever the schedule. -/
theorem keeps_answered (n : Nat) (T : List Agent) :
    State.keeps keepsAll n .noCommand { answered with turns := T } = true := by
  induction n generalizing T with
  | zero => rfl
  | succ n ih =>
    match T with
    | [] => exact ih []
    | .host :: T => exact ih T
    | .core :: T => exact ih T

/-- Its last clause: a host that reads STATUS and has nothing else to do conforms in every run. -/
theorem witness_host_conforms :
    asking.Inv ∧ asking.busy = false ∧ asking.hostFault = FaultSet.empty ∧ asking.HostConforms :=
  ⟨asking_inv, by decide, rfl, fun T n =>
    keeps_stutter (R := keepsAll) (q := .noCommand) (c' := answered) rfl (fun _ => rfl)
      (fun T hT => by
        cases T with
        | nil => exact ⟨rfl, rfl, rfl⟩
        | cons a l =>
          obtain rfl : a = .host := hT a l rfl
          have hd : ¬(statusRead.readsStatus && statusDone asking.status) = true := by decide
          exact ⟨rfl, (phaseAfter_tx (s := { asking with turns := .host :: l }) (t := statusRead) _ rfl
            rfl).trans (if_neg hd), rfl⟩) keeps_answered n T⟩

/-- InstancesAreIndependent: the second of two instances; and a draw of each is a byte of its own. -/
theorem witness_instances :
    (∃ (s : State) (sys' : List State), [State.reset, encoding][1]? = some s ∧
      stepInstance 1 [State.reset, encoding] = .next sys') ∧ 0 < standardConfig.nInst :=
  ⟨⟨_, _, rfl, rfl⟩, by decide⟩

theorem test_draws_of_instances :
    transact ⟨.inBuf, false, 5, 0⟩ { State.reset with instIndex := 1 } =
      .next { State.reset with
        instIndex := 1, rdata := some ((Config.freeByte 1 0).setWidth 32), draws := 1 } := rfl

/-- BufferReadAfterWrite: the last address of IN_BUF. -/
theorem witness_buffer : Memory.wf 64 [(0, 0x30), (62, 0x31)] = true ∧ 63 < 64 := by decide

/-- LoadinStoresTheFrame: LOADIN right after reset. -/
theorem witness_loadin :
    ∃ s : State, s.seq = .idle ∧ s.busy = false ∧ s.turns = [] ∧
      s.host = (AsmLine.loadin testBytes).expand ++ [.poll] ∧ testBytes.length ≤ s.cfg.inCap :=
  ⟨{ State.reset with host := (AsmLine.loadin testBytes).expand ++ [.poll] }, rfl, by decide, rfl, rfl, by decide⟩

end Sys2Proof.Tests
end

section
/-! PROOFS. Which parameters are well formed (R6, R103, D4), and what boots (R158, R162). -/

namespace Sys2Proof

/-! ## The hex codes are the entries of the two hex tables (R93, R103) -/

theorem isHexCode_hexLut (upper : Bool) (k : BitVec 4) : isHexCode (Machine.hexLut upper k) = true := by
  revert upper k; decide

/-- NIB finds a hex code in its table: the upper-case one below 0x61, the lower-case one from there on. -/
theorem hexLut_nib_of_isHexCode {c : Byte} (h : isHexCode c = true) :
    Machine.hexLut (decide (c.toNat < 0x61)) (BitVec.ofNat 4 (Machine.nib c)) = c := by
  revert c; decide

theorem isHexCode_iff_exists_hexLut {c : Byte} :
    isHexCode c = true ↔ ∃ (upper : Bool) (k : BitVec 4), Machine.hexLut upper k = c := by
  constructor
  · exact fun h => ⟨_, _, hexLut_nib_of_isHexCode h⟩
  · rintro ⟨upper, k, rfl⟩
    exact isHexCode_hexLut upper k

/-! ## What each check of the parameters asks -/

theorem Params.capacitiesOk_iff {p : Params} :
    p.capacitiesOk = true ↔ 0 < p.inCap ∧ p.inCap < 2 ^ 32 ∧ 2 * p.inCap ≤ p.outCap := by
  simp [Params.capacitiesOk, and_assoc]

theorem Params.alphabetOk_iff {p : Params} :
    p.alphabetOk = true ↔ p.alphabet.length = 91 ∧ p.alphabet.Nodup := by
  simp [Params.alphabetOk]

theorem Params.whitespaceOk_iff {p : Params} :
    p.whitespaceOk = true ↔
      0x20 ∈ p.whitespace ∧ ∀ (upper : Bool) (k : BitVec 4), Machine.hexLut upper k ∉ p.whitespace := by
  simp only [Params.whitespaceOk, Bool.and_eq_true, List.contains_iff_mem, List.all_eq_true]
  refine and_congr_right fun _ => ⟨fun h upper k hmem => ?_, fun h c hmem => ?_⟩
  · simpa [isHexCode_hexLut] using h _ hmem
  · rw [Bool.not_eq_true', Bool.eq_false_iff, ne_eq, isHexCode_iff_exists_hexLut]
    rintro ⟨upper, k, rfl⟩
    exact h upper k hmem

theorem Params.instancesOk_iff {p : Params} : p.instancesOk = true ↔ 1 ≤ p.nInst := by
  simp [Params.instancesOk]

theorem Params.wf_iff {p : Params} :
    p.wf = true ↔
      0 < p.inCap ∧ p.inCap < 2 ^ 32 ∧ 2 * p.inCap ≤ p.outCap ∧
      p.alphabet.length = 91 ∧ p.alphabet.Nodup ∧
      0x20 ∈ p.whitespace ∧ (∀ (upper : Bool) (k : BitVec 4), Machine.hexLut upper k ∉ p.whitespace) ∧
      1 ≤ p.nInst := by
  simp only [Params.wf, Bool.and_eq_true, Params.capacitiesOk_iff, Params.alphabetOk_iff,
    Params.whitespaceOk_iff, Params.instancesOk_iff, and_assoc]

namespace Machine

/-! ## Boot (R162) -/

theorem FaultSet.has_empty (r : HostFault) : FaultSet.empty.has r = false := by
  cases r <;> rfl

theorem boot_of_wf {p : Params} (h : p.wf = true) : State.boot p = .next (State.resetWith ⟨p, h⟩) :=
  dif_pos h

theorem boot_of_not_wf {p : Params} (h : p.wf = false) : State.boot p = .refused .illFormedConfig :=
  dif_neg (by simp [h])

/-- Settles O29: `boot` is `State.resetWith` on well-formed parameters, whose fields are the reset values of
R158; which parameters those are is `Params.wf_iff`. -/
theorem bootStartsInReset : Obligations.BootStartsInReset := by
  refine ⟨fun p h => ⟨_, boot_of_wf h, ?_⟩, fun _ => boot_of_not_wf, fun _ => Params.wf_iff⟩
  exact ⟨rfl, rfl, rfl, rfl, rfl, rfl, rfl, rfl, rfl, rfl, rfl, rfl, rfl, fun a => ⟨rfl, rfl⟩, FaultSet.has_empty⟩

end Machine

end Sys2Proof
end

section
/-! PROOFS. What a move changes: the few cases of a host's move and of a command's start, what no CORE step
touches, what lasts for a machine's life (R35, R41), the reset input (R158), and how long a result stays
(R53). -/

namespace Sys2Proof.Machine

/-! ## HOSTFAULT, the configuration and the number of the CORE (R35, R41) -/

/-- What lasts for a machine's life: every reason recorded in `s` is recorded in `t`, whose configuration
and number are those of `s`. -/
def State.LastsIn (s t : State) : Prop :=
  (∀ r, s.hostFault.has r = true → t.hostFault.has r = true) ∧ t.cfg = s.cfg ∧ t.instIndex = s.instIndex

theorem lastsIn_of_eq {s t : State} (hf : t.hostFault = s.hostFault) (hc : t.cfg = s.cfg)
    (hi : t.instIndex = s.instIndex) : s.LastsIn t :=
  ⟨fun _ h => hf ▸ h, hc, hi⟩

theorem lastsIn_raiseHostFault (r : HostFault) (s : State) : s.LastsIn (raiseHostFault r s) :=
  ⟨fun q h => by simp [FaultSet.has_add, h], rfl, rfl⟩

/-! ## The host's moves -/

/-- A read returns a value or records BAD_ADDRESS (R87, R89, R49). -/
theorem hostRead_cases (x : Transaction) (s : State) :
    (∃ v d, hostRead x s = { s with rdata := some v, draws := d }) ∨ hostRead x s = badRead s := by
  have byte : ∀ m, ∃ v d, returnByte (s.byteOr m) = { s with rdata := some v, draws := d } := by
    intro m
    obtain ⟨b, d, hb, -⟩ := byteOr_cases m s
    exact ⟨_, d, by rw [hb]; rfl⟩
  unfold hostRead
  split
  · unfold readRegister
    split
    · exact .inl ⟨_, s.draws, rfl⟩
    · exact .inr rfl
  · unfold readInBuf
    split_ifs
    · exact .inl (byte _)
    · exact .inr rfl
  · unfold readOutBuf
    split_ifs
    · exact .inl (byte none)
    · exact .inl (byte _)
    · exact .inr rfl
  · exact .inr rfl

theorem lastsIn_hostRead (x : Transaction) (s : State) : s.LastsIn (hostRead x s) := by
  rcases hostRead_cases x s with ⟨v, d, h⟩ | h <;> rw [h]
  · exact lastsIn_of_eq rfl rfl rfl
  · exact lastsIn_raiseHostFault .badAddress s

theorem hostMove_reset {s : State} {rest : List HostOp} (h : s.host = .reset :: rest) :
    hostMove s = .next (resetInput { s with host := rest }) := by
  unfold hostMove; rw [h]

/-- Everything a host's move can do to the CORE: nothing but record a reason, reset it, start a command,
set IN_LEN, or store a byte; the last three only while no command runs (R51, R77, R78, R85, R88, R158). -/
theorem hostMove_cases {s t : State} (h : hostMove s = .next t) :
    (t.coreSide = s.coreSide ∧ s.LastsIn t) ∨
    (∃ rest, s.host = .reset :: rest ∧ t = resetInput { s with host := rest }) ∨
    ∃ x rest, s.host = .tx x :: rest ∧ s.busy = false ∧
      (x.writesCmd = true ∧ writeCmd x.data { s with host := rest } = .next t ∨
        t = { s with host := rest, inLen := x.data } ∨
        x.addr.toNat < s.cfg.inCap ∧
          t = { s with host := rest, inBuf := s.inBuf.write x.addr.toNat (x.data.extractLsb' 0 8) }) := by
  have read : ∀ x u, (hostRead x u).coreSide = u.coreSide ∧ u.LastsIn (hostRead x u) :=
    fun x u => ⟨hostRead_coreSide x u, lastsIn_hostRead x u⟩
  unfold hostMove at h
  split at h
  · cases h; exact .inl ⟨rfl, lastsIn_of_eq rfl rfl rfl⟩
  · rename_i x rest hx
    unfold transact at h
    split_ifs at h with hw
    · rcases hostWrite_cases h with ⟨r, rfl⟩ | ⟨hb, hsp, ha, hc⟩ | ⟨hb, -, -, rfl⟩ | ⟨hb, -, ha, rfl⟩ | rfl
      · exact .inl ⟨rfl, lastsIn_raiseHostFault r s⟩
      · exact .inr (.inr ⟨x, rest, hx, hb, .inl ⟨by simp [Transaction.writesCmd, hw, hsp, ha], hc⟩⟩)
      · exact .inr (.inr ⟨x, rest, hx, hb, .inr (.inl rfl)⟩)
      · exact .inr (.inr ⟨x, rest, hx, hb, .inr (.inr ⟨ha, rfl⟩)⟩)
      · exact .inl ⟨rfl, lastsIn_of_eq rfl rfl rfl⟩
    · cases h; exact .inl (read x { s with host := rest })
  · rename_i rest hx
    cases h; exact .inr (.inl ⟨rest, hx, rfl⟩)
  · cases h
    unfold pollOnce
    split_ifs
    · exact .inl (read statusRead s)
    · exact .inl (read statusRead s)
  · cases h; exact .inl (read outLenRead s)

/-! ## The start step of a word written to CMD while no command runs (R77 to R80) -/

/-- The STATE in which a command takes its first CORE step (R95, R96, R107, R123, R131). -/
def firstSeq (i : Instr) : Seq :=
  match i with
  | .hexencU | .hexencL => .heByte
  | .hexdec => .hdTrim
  | .b91enc => .beConsume
  | .b91dec => .bdSymbol

theorem firstSeq_serves (i : Instr) : (firstSeq i).serves i := by
  cases i <;> simp [firstSeq, Seq.serves]

theorem decode_encode (i : Instr) : decode (encode i) = .legal i := by
  cases i <;> decide

/-- Where a command goes on after its start checks (R80). -/
def dispatch (i : Instr) (s : State) : State :=
  match i with
  | .hexencU | .hexencL => dispatchHexenc s
  | .hexdec | .b91enc | .b91dec => { s with seq := firstSeq i }

theorem exec_eq_startCommand (i : Instr) (s : State) :
    exec i s = .next (startCommand (encode i) (dispatch i) s) := by
  cases i <;> rfl

theorem dispatch_cases (i : Instr) (s : State) :
    dispatch i s = finish .invalidArgument s ∨ dispatch i s = { s with seq := firstSeq i } := by
  have hexenc : dispatchHexenc s = finish .invalidArgument s ∨
      dispatchHexenc s = { s with seq := .heByte } := by
    unfold dispatchHexenc
    split_ifs
    · exact .inl rfl
    · exact .inr rfl
  cases i with
  | hexencU | hexencL => exact hexenc
  | hexdec | b91enc | b91dec => exact .inr rfl

/-- Everything a write to CMD can do while no command runs: an error finish, or the first STATE of the
command on a frame that fits IN_BUF (R77, R79, R80, R139). -/
theorem writeCmd_cases {w : Word} {s t : State} (hb : s.busy = false) (h : writeCmd w s = .next t) :
    (∃ c e, e ≠ .ok ∧ t = finish e (startClear c s)) ∨
    ∃ i, decode w = .legal i ∧ s.inLen.toNat ≤ s.cfg.inCap ∧
      t = { startClear (encode i) s with seq := firstSeq i } := by
  unfold writeCmd at h
  split at h
  · rename_i i hw
    rw [exec_eq_startCommand] at h
    rcases startCommand_cases (encode i) (dispatch i) s with ⟨hb', -⟩ | ⟨-, -, he⟩ | ⟨-, hl, he⟩
    · rw [hb] at hb'; cases hb'
    · rw [he] at h; cases h
      exact .inl ⟨_, .capacity, by decide, rfl⟩
    · rw [he] at h; cases h
      rcases dispatch_cases i (startClear (encode i) s) with hd | hd <;> rw [hd]
      · exact .inl ⟨_, .invalidArgument, by decide, rfl⟩
      · exact .inr ⟨i, hw, hl, rfl⟩
  · unfold startIllegal at h
    rw [hb] at h; cases h
    exact .inl ⟨_, .illegalCommand, by decide, rfl⟩

/-! ## What no CORE step touches -/

/-- A state without what CORE steps write: STATUS, OUT_LEN, STATE, the internal registers, OUT_BUF and
the count of draws (R94 to R130). -/
def State.untouchedByCore (s : State) : State :=
  { s with
    status := 0, outLen := 0, seq := .idle, i := 0, o := 0, trimE := 0, pv := 0, pvValid := false,
    accB := 0, accN := 0, outBuf := [], draws := 0 }

/-- Everything BD_SYMBOL can do with a B91_DEC_ROM entry (R128). -/
theorem takeSymbol_cases (entry : Byte) (s : State) :
    takeSymbol entry s = s ∨
    (entryValid entry = true ∧ s.pvValid = false ∧
      takeSymbol entry s = bufferSymbol (entryValue entry) s) ∨
    (entryValid entry = true ∧ s.pvValid = true ∧
      takeSymbol entry s = combineSymbol (entryValue entry) s) := by
  unfold takeSymbol
  split_ifs with hv hp
  · exact .inr (.inr ⟨hv, hp, rfl⟩)
  · exact .inr (.inl ⟨hv, by simpa using hp, rfl⟩)
  · exact .inl rfl

theorem takeSymbol_untouched (entry : Byte) (s : State) :
    (takeSymbol entry s).untouchedByCore = s.untouchedByCore := by
  rcases takeSymbol_cases entry s with h | ⟨-, -, h⟩ | ⟨-, -, h⟩ <;> rw [h] <;> rfl

theorem trimDecision_untouched (bounds : Option (Nat × Nat)) (s : State) :
    (trimDecision bounds s).untouchedByCore = s.untouchedByCore := by
  unfold trimDecision
  split
  · rfl
  · split_ifs <;> rfl

/-- A CORE step leaves the configuration, CMD, IN_LEN, IN_BUF, HOSTFAULT and the host's side alone. -/
theorem coreStep_untouched {s t : State} (h : coreStep s = .next t) :
    t.untouchedByCore = s.untouchedByCore := by
  cases hq : s.seq with
  | idle => rw [coreStep_idle hq] at h; cases h; rfl
  | heByte =>
    rw [coreStep_heByte hq, heByte_eq_next] at h
    obtain ⟨-, -, -, _, _, -, rfl⟩ | ⟨-, rfl⟩ := h <;> rfl
  | hdTrim =>
    rw [coreStep_hdTrim hq] at h
    obtain ⟨v, d, -, -, -, -, ht⟩ := hdTrim_spec (hdTrim_inCap h)
    cases h.symm.trans ht
    exact trimDecision_untouched _ _
  | hdPair =>
    rw [coreStep_hdPair hq, hdPair_eq_next] at h
    obtain ⟨-, -, -, _, _, _, _, -, -, rfl⟩ | ⟨-, rfl⟩ := h <;> rfl
  | beConsume =>
    rw [coreStep_beConsume hq, beConsume_eq_next] at h
    obtain ⟨-, -, _, _, -, rfl⟩ | ⟨-, rfl⟩ := h <;> rfl
  | beGroup =>
    rw [coreStep_beGroup hq, beGroup_eq_next] at h
    obtain ⟨-, -, _, _, -, -, rfl⟩ | ⟨-, rfl⟩ := h <;> rfl
  | beTail =>
    rw [coreStep_beTail hq, beTail_eq_next] at h
    obtain ⟨-, rfl⟩ | ⟨-, -, _, -, ⟨-, rfl⟩ | ⟨-, -, _, -, rfl⟩⟩ := h <;> rfl
  | bdSymbol =>
    rw [coreStep_bdSymbol hq, bdSymbol_eq_next] at h
    obtain ⟨-, -, _, _, -, rfl⟩ | ⟨-, rfl⟩ := h
    · exact takeSymbol_untouched _ _
    · rfl
  | bdFlush =>
    rw [coreStep_bdFlush hq, bdFlush_eq_next] at h
    obtain ⟨-, -, rfl⟩ | ⟨-, rfl⟩ := h <;> rfl
  | bdTail =>
    rw [coreStep_bdTail hq, bdTail_eq_next] at h
    obtain ⟨-, -, rfl⟩ | ⟨-, rfl⟩ := h <;> rfl

theorem lastsIn_of_untouched {s t : State} (h : t.untouchedByCore = s.untouchedByCore) : s.LastsIn t :=
  lastsIn_of_eq (congrArg State.hostFault h :) (congrArg State.cfg h :) (congrArg State.instIndex h :)

/-! ## A step is a CORE step or a host's move -/

theorem step_cases {s t : State} (h : step s = .next t) :
    coreStep s.nextTurn = .next t ∨ hostMove s.nextTurn = .next t := by
  unfold step at h
  split at h
  · exact .inl h
  · exact .inr h

theorem lastsIn_writeCmd {w : Word} {s t : State} (hb : s.busy = false) (h : writeCmd w s = .next t) :
    s.LastsIn t := by
  obtain ⟨c, e, -, rfl⟩ | ⟨i, -, -, rfl⟩ := writeCmd_cases hb h
  · exact lastsIn_of_eq rfl rfl rfl
  · exact lastsIn_of_eq rfl rfl rfl

theorem lastsIn_hostMove {s t : State} (h : hostMove s = .next t) : s.LastsIn t := by
  obtain ⟨-, hl⟩ | ⟨rest, -, rfl⟩ | ⟨x, rest, -, hb, ⟨-, hc⟩ | rfl | ⟨-, rfl⟩⟩ := hostMove_cases h
  · exact hl
  · exact lastsIn_of_eq rfl rfl rfl
  · exact lastsIn_writeCmd (s := { s with host := rest }) hb hc
  · exact lastsIn_of_eq rfl rfl rfl
  · exact lastsIn_of_eq rfl rfl rfl

/-- Settles O52: a CORE step touches none of the three, and a host's move only ever adds a reason. -/
theorem hostFaultOnlyGrows : Obligations.HostFaultOnlyGrows := by
  intro s t h
  obtain hc | hm := step_cases h
  · exact lastsIn_of_untouched (s := s.nextTurn) (coreStep_untouched hc)
  · exact lastsIn_hostMove (s := s.nextTurn) hm

/-! ## How long a result stays (R53) -/

/-- Settles O54: in IDLE the CORE has no step, and of the host's moves only reset and a CMD write reach
what the statement names. -/
theorem resultStaysUntilNextCommand : Obligations.ResultStaysUntilNextCommand := by
  intro s t hq h hcmd hreset
  obtain hc | hm := step_cases h
  · rw [coreStep_idle (s := s.nextTurn) hq] at hc
    cases hc
    exact ⟨rfl, rfl, rfl, hq, fun _ => rfl⟩
  · obtain ⟨he, -⟩ | ⟨rest, hx, -⟩ | ⟨x, rest, hx, -, ⟨hw, -⟩ | rfl | ⟨-, rfl⟩⟩ := hostMove_cases hm
    · exact ⟨(congrArg State.cmd he :), (congrArg State.status he :), (congrArg State.outLen he :),
        (congrArg State.seq he :).trans hq, fun a => (congrArg (fun u => u.outBuf.read a) he :)⟩
    · exact absurd hx (hreset rest)
    · exact absurd ((hcmd x rest hx).symm.trans hw) (by decide)
    · exact ⟨rfl, rfl, rfl, hq, fun _ => rfl⟩
    · exact ⟨rfl, rfl, rfl, hq, fun _ => rfl⟩

/-! ## The reset input (R158) -/

/-- Settles O28: the move is `resetInput`, after which no buffer byte is written. -/
theorem resetInputClears : Obligations.ResetInputClears := by
  intro s rest h
  refine ⟨_, hostMove_reset h, ?_⟩
  simp

end Sys2Proof.Machine
end

section
/-! PROOFS. The invariant of every run: what it says of STATUS (R20 to R26), and that every step keeps it. -/

namespace Sys2Proof.Machine

/-! ## What the invariant says of STATUS -/

theorem State.Inv.busy_iff {s : State} (hs : s.Inv) : s.busy = true ↔ s.seq ≠ .idle := by
  by_cases hq : s.seq = .idle
  · have hb : s.busy = false := by
      unfold State.busy
      obtain ⟨h, -⟩ | ⟨e, h, -⟩ := hs.idleStatus hq
      · rw [h]; decide
      · rw [h]; exact statusBusy_doneStatus e
    simp [hq, hb]
  · obtain ⟨h, -⟩ := hs.running hq
    simp [State.busy, h, hq, statusBusy_busyStatus]

theorem State.Inv.seq_eq_idle {s : State} (hs : s.Inv) (h : s.busy = false) : s.seq = .idle := by
  by_contra hq
  exact absurd (h.symm.trans (hs.busy_iff.2 hq)) (by decide)

/-- In every state of a run STATUS is its reset value, BUSY alone, or DONE with an error code (R20). -/
theorem State.Inv.status_cases {s : State} (hs : s.Inv) :
    s.status = 0 ∨ s.status = busyStatus ∨ ∃ e, s.status = doneStatus e := by
  by_cases hq : s.seq = .idle
  · obtain ⟨h, -⟩ | ⟨e, h, -⟩ := hs.idleStatus hq
    · exact .inl h
    · exact .inr (.inr ⟨e, h⟩)
  · exact .inr (.inl (hs.running hq).1)

/-- What every STATUS value of a run satisfies: BUSY and DONE exclude each other, the bits from 7 on and
bits 2 and 3 are 0, and ERR is at most 4 (R20, R23). -/
def StatusWellFormed (w : Word) : Prop :=
  ¬(w.getLsbD 0 = true ∧ w.getLsbD 1 = true) ∧ w.getLsbD 2 = false ∧ w.getLsbD 3 = false ∧
    w.toNat < 2 ^ 7 ∧ (w.extractLsb' 4 3).toNat ≤ 4

theorem State.Inv.statusWellFormed {s : State} (hs : s.Inv) : StatusWellFormed s.status := by
  unfold StatusWellFormed
  obtain h | h | ⟨e, h⟩ := hs.status_cases <;> rw [h]
  · decide
  · decide
  · cases e <;> decide

/-- Settles O51: the three kinds of STATUS values of a run, each of which is well formed. -/
theorem statusBitsAreConsistent : Obligations.StatusBitsAreConsistent := by
  intro s hs
  obtain ⟨hbd, h2, h3, hlt, herr⟩ := hs.statusWellFormed
  refine ⟨hs.busy_iff, hbd, fun k hk => ?_, herr⟩
  obtain rfl | rfl | hk := hk
  · exact h2
  · exact h3
  · exact Nat.testBit_lt_two_pow (hlt.trans_le (Nat.pow_le_pow_right (by decide) hk))

/-! ## The accumulator's bound (R111, R113, R116) -/

theorem push_accN_toNat {x w : Nat} {s : State} (h : s.accN.toNat + w < 32) :
    (push x w s).accN.toNat = s.accN.toNat + w := by
  simp [Nat.mod_eq_of_lt h]

theorem pop_accN_toNat (w : Nat) (s : State) : (pop w s).accN.toNat = s.accN.toNat - w := by
  have h := s.accN.isLt
  rw [pop_accN, BitVec.toNat_ofNat, Nat.mod_eq_of_lt (by omega)]

theorem push_accBounded {m w x : Nat} {s : State} (hs : s.AccBounded m) (hx : x < 2 ^ w) (hm : m + w < 32) :
    (push x w s).AccBounded (m + w) := by
  obtain ⟨hn, hb⟩ := hs
  have hN : (push x w s).accN.toNat = s.accN.toNat + w := push_accN_toNat (by omega)
  refine ⟨by omega, ?_⟩
  rw [hN, push_accB, BitVec.toNat_ofNat]
  refine (Nat.mod_le _ _).trans_lt (Nat.or_lt_two_pow ?_ ?_)
  · exact hb.trans_le (Nat.pow_le_pow_right (by decide) (Nat.le_add_right _ _))
  · exact Nat.add_comm w _ ▸ Nat.shiftLeft_lt hx

theorem pop_accBounded {m w : Nat} {s : State} (hs : s.AccBounded m) (hw : w ≤ s.accN.toNat) :
    (pop w s).AccBounded (m - w) := by
  obtain ⟨hn, hb⟩ := hs
  refine ⟨by rw [pop_accN_toNat]; omega, ?_⟩
  rw [pop_accN_toNat, pop_accB, BitVec.toNat_ofNat]
  refine (Nat.mod_le _ _).trans_lt ?_
  rw [Nat.shiftRight_eq_div_pow]
  refine Nat.div_lt_of_lt_mul ?_
  rwa [← pow_add, Nat.add_sub_cancel' hw]

theorem accBounded_mono {m n : Nat} {s : State} (hs : s.AccBounded m) (h : m ≤ n) : s.AccBounded n :=
  ⟨hs.1.trans h, hs.2⟩

/-! ## The base91 digits of B91_DEC_ROM, and the width of a group (R72, R114, R127) -/

/-- A known symbol's entry holds its index in the alphabet, a digit (R28). -/
theorem entryValue_decRom_le (c : Config) (b : Byte) (h : entryValid (decRom c.toParams b) = true) :
    (entryValue (decRom c.toParams b)).toNat ≤ 90 := by
  unfold decRom at h ⊢
  split at h
  · rename_i k hk
    obtain ⟨hlt, -⟩ := List.findIdx?_eq_some_iff_findIdx_eq.1 hk
    rw [c.alphabet_length] at hlt
    have digit : ∀ j < 91, (entryValue (0x80 ||| BitVec.ofNat 8 j)).toNat ≤ 90 := by decide
    simpa only [hk] using digit k hlt
  · exact absurd h (by decide)

/-- Two digits make a value that fits the width GSEL chooses for it (R114). -/
theorem pair_lt_two_pow_gsel {p c : Nat} (hp : p ≤ 90) (hc : c ≤ 90) :
    p + 91 * c < 2 ^ gsel (p + 91 * c) := by
  unfold gsel
  rw [lowBits_eq_mod]
  split_ifs with h
  · norm_num at h ⊢; omega
  · norm_num; omega

end Sys2Proof.Machine
end

section
/-! PROOFS. Every step keeps the invariant: one lemma per step of the CORE, and one for the host's moves. -/

namespace Sys2Proof.Machine

/-! ## What the invariant says of a running state, with its STATE value written out -/

/-- The invariant's field `running` at the STATE value `q` (R17, R26, R80, R87). -/
def State.RunsIn (s : State) (q : Seq) : Prop :=
  s.status = busyStatus ∧ s.outLen = 0 ∧ (∃ i, decode s.cmd = .legal i ∧ q.serves i) ∧
    s.i.toNat ≤ s.inLen.toNat ∧ s.inLen.toNat ≤ s.cfg.inCap

/-- The invariant's field `progress` at the STATE value `q`. -/
def State.ProgressIn (s : State) (q : Seq) : Prop :=
  State.Progress { s with seq := q }

theorem State.Inv.runsIn {s : State} (hs : s.Inv) {q : Seq} (h : s.seq = q) (hq : q ≠ .idle) :
    s.RunsIn q := by
  subst h; exact hs.running hq

theorem State.Inv.progressIn {s : State} (hs : s.Inv) {q : Seq} (h : s.seq = q) : s.ProgressIn q := by
  subst h; exact hs.progress

/-! ## How a state is shown to satisfy the invariant -/

/-- The invariant speaks of the CORE's side only. -/
theorem inv_coreSide_iff {s : State} : s.coreSide.Inv ↔ s.Inv :=
  ⟨fun ⟨a, b, c, d, e, f⟩ => ⟨a, b, c, d, e, f⟩, fun ⟨a, b, c, d, e, f⟩ => ⟨a, b, c, d, e, f⟩⟩

theorem inv_of_coreSide_eq {s t : State} (h : t.coreSide = s.coreSide) (hs : s.Inv) : t.Inv := by
  rw [← inv_coreSide_iff, h, inv_coreSide_iff]; exact hs

theorem inv_of_running {s : State} {q : Seq} (h : s.seq = q) (hq : q ≠ .idle) (hr : s.RunsIn q)
    (hp : s.ProgressIn q) (hin : s.inBuf.wf s.cfg.inCap = true) (hout : s.outBuf.wf s.cfg.outCap = true)
    (hpv : s.pv.toNat ≤ 90) : s.Inv := by
  subst h
  exact ⟨hin, hout, fun h => absurd h hq, fun _ => hr, hpv, hp⟩

/-- A finish keeps the invariant as long as an `ok` one has counted no more output than OUT_BUF holds. -/
theorem inv_finish {e : ErrCode} {s : State} (hin : s.inBuf.wf s.cfg.inCap = true)
    (hout : s.outBuf.wf s.cfg.outCap = true) (hpv : s.pv.toNat ≤ 90)
    (ho : e = .ok → s.o.toNat ≤ s.cfg.outCap) : (finish e s).Inv := by
  refine ⟨hin, hout, fun _ => .inr ⟨e, rfl, ?_⟩, fun h => absurd rfl h, hpv, trivial⟩
  by_cases he : e = .ok
  · exact .inr ⟨he, by simpa [he] using ho he⟩
  · exact .inl (by simp [he])

/-- A command may finish with `ok` once it has counted at most twice its input: that much OUT_BUF holds (R6). -/
theorem inv_finish_ok {s : State} (hs : s.Inv) {q : Seq} (hr : s.RunsIn q)
    (ho : s.o.toNat ≤ 2 * s.i.toNat) : (finish .ok s).Inv := by
  obtain ⟨-, -, -, hi, hcap⟩ := hr
  have := s.cfg.two_inCap_le
  exact inv_finish hs.inBufWf hs.outBufWf hs.pvRange fun _ => by omega

/-! ## Index arithmetic: a sum that fits its register is exact, and one that wraps is smaller (R9) -/

theorem toNat_add_ofNat (x : Word) (k : Nat) (h : x.toNat + k < 2 ^ 32) :
    (x + BitVec.ofNat 32 k).toNat = x.toNat + k := by
  rw [BitVec.toNat_add, BitVec.toNat_ofNat, Nat.add_mod_mod, Nat.mod_eq_of_lt h]

theorem toNat_add_ofNat_le (x : Word) (k : Nat) : (x + BitVec.ofNat 32 k).toNat ≤ x.toNat + k := by
  rw [BitVec.toNat_add, BitVec.toNat_ofNat, Nat.add_mod_mod]; exact Nat.mod_le _ _

/-! ## The hex steps -/

theorem heByte_keeps_inv {s t : State} (hs : s.Inv) (hq : s.seq = .heByte) (h : heByte s = .next t) :
    t.Inv := by
  have hr := hs.runsIn hq (by decide)
  have ho : s.o.toNat ≤ 2 * s.i.toNat := hs.progressIn hq
  obtain ⟨hlt, -, ho', b, d, -, rfl⟩ | ⟨-, rfl⟩ := heByte_eq_next.1 h
  · obtain ⟨hst, hol, hcmd, -, hcap⟩ := hr
    have hi1 : (s.i + 1).toNat = s.i.toNat + 1 := toNat_add_ofNat s.i 1 (by omega)
    have ho2 : (s.o + 2).toNat ≤ s.o.toNat + 2 := toNat_add_ofNat_le s.o 2
    have hi : (s.i + 1).toNat ≤ s.inLen.toNat := by omega
    have ho : (s.o + 2).toNat ≤ 2 * (s.i + 1).toNat := by omega
    exact inv_of_running hq (by decide) ⟨hst, hol, hcmd, hi, hcap⟩ ho hs.inBufWf
      (Memory.wf_write _ (Memory.wf_write _ hs.outBufWf (Nat.lt_of_succ_lt ho')) ho') hs.pvRange
  · exact inv_finish_ok hs hr ho

/-- What HD_TRIM does on a frame that is not all whitespace (R105). -/
theorem trimDecision_some_cases (S E : Nat) (s : State) :
    trimDecision (some (S, E)) s = finish .invalidLength s ∨
    ((E - S) % 2 = 0 ∧ trimDecision (some (S, E)) s =
      { s with i := BitVec.ofNat 32 S, trimE := BitVec.ofNat 32 E, seq := .hdPair }) := by
  by_cases h : (E - S) % 2 = 1
  · exact .inl (if_pos h)
  · exact .inr ⟨by omega, if_neg h⟩

theorem hdTrim_keeps_inv {s t : State} (hs : s.Inv) (hq : s.seq = .hdTrim) (h : hdTrim s = .next t) :
    t.Inv := by
  obtain ⟨hst, hol, hcmd, -, hcap⟩ := hs.runsIn hq (by decide)
  obtain ⟨-, ho⟩ : s.i = 0 ∧ s.o = 0 := hs.progressIn hq
  have failed : ∀ e d, e ≠ .ok → (finish e { s with draws := d }).Inv := fun e d he =>
    inv_finish hs.inBufWf hs.outBufWf hs.pvRange fun h => absurd h he
  obtain ⟨v, d, -, -, -, -, ht⟩ := hdTrim_spec hcap
  cases h.symm.trans ht
  obtain ⟨hb, -⟩ | ⟨S, E, hb, hSE, hE, -⟩ := scanBounds_cases s.cfg.toParams v s.inLen.toNat <;> rw [hb]
  · exact failed .invalidArgument d (by decide)
  · obtain hd | ⟨heven, hd⟩ := trimDecision_some_cases S E { s with draws := d } <;> rw [hd]
    · exact failed .invalidLength d (by decide)
    · have hlen := s.inLen.isLt
      have hS : (BitVec.ofNat 32 S).toNat = S := by rw [BitVec.toNat_ofNat, Nat.mod_eq_of_lt (by omega)]
      have hE' : (BitVec.ofNat 32 E).toNat = E := by rw [BitVec.toNat_ofNat, Nat.mod_eq_of_lt (by omega)]
      have ho' : s.o.toNat = 0 := by rw [ho]; rfl
      have hi : (BitVec.ofNat 32 S).toNat ≤ s.inLen.toNat := by omega
      have hp : (BitVec.ofNat 32 S).toNat ≤ (BitVec.ofNat 32 E).toNat ∧
        (BitVec.ofNat 32 E).toNat ≤ s.inLen.toNat ∧
        ((BitVec.ofNat 32 E).toNat - (BitVec.ofNat 32 S).toNat) % 2 = 0 ∧
        2 * s.o.toNat ≤ (BitVec.ofNat 32 S).toNat := by rw [hS, hE']; omega
      exact inv_of_running (q := .hdPair) rfl (by decide) ⟨hst, hol, hcmd, hi, hcap⟩ hp
        hs.inBufWf hs.outBufWf hs.pvRange

theorem hdPair_keeps_inv {s t : State} (hs : s.Inv) (hq : s.seq = .hdPair) (h : hdPair s = .next t) :
    t.Inv := by
  have hr := hs.runsIn hq (by decide)
  obtain ⟨-, hE, hpar, ho⟩ : s.i.toNat ≤ s.trimE.toNat ∧ s.trimE.toNat ≤ s.inLen.toNat ∧
    (s.trimE.toNat - s.i.toNat) % 2 = 0 ∧ 2 * s.o.toNat ≤ s.i.toNat := hs.progressIn hq
  obtain ⟨hlt, -, ho', hi, d, lo, e, -, -, rfl⟩ | ⟨-, rfl⟩ := hdPair_eq_next.1 h
  · obtain ⟨hst, hol, hcmd, -, hcap⟩ := hr
    have hi2 : (s.i + 2).toNat = s.i.toNat + 2 := toNat_add_ofNat s.i 2 (by omega)
    have ho1 : (s.o + 1).toNat ≤ s.o.toNat + 1 := toNat_add_ofNat_le s.o 1
    have hi : (s.i + 2).toNat ≤ s.inLen.toNat := by omega
    have hp : (s.i + 2).toNat ≤ s.trimE.toNat ∧ s.trimE.toNat ≤ s.inLen.toNat ∧
      (s.trimE.toNat - (s.i + 2).toNat) % 2 = 0 ∧ 2 * (s.o + 1).toNat ≤ (s.i + 2).toNat := by omega
    exact inv_of_running hq (by decide) ⟨hst, hol, hcmd, hi, hcap⟩ hp hs.inBufWf
      (Memory.wf_write _ hs.outBufWf ho') hs.pvRange
  · exact inv_finish_ok hs hr (by omega)

/-! ## The base91 encoder's steps -/

theorem beConsume_keeps_inv {s t : State} (hs : s.Inv) (hq : s.seq = .beConsume) (h : beConsume s = .next t) :
    t.Inv := by
  obtain ⟨hst, hol, hcmd, hi, hcap⟩ := hs.runsIn hq (by decide)
  obtain ⟨hacc, hroom⟩ : s.AccBounded 13 ∧ s.EncoderRoom := hs.progressIn hq
  obtain ⟨hlt, -, b, d, -, rfl⟩ | ⟨-, rfl⟩ := beConsume_eq_next.1 h
  · obtain ⟨heven, hbits⟩ := hroom
    have hi1 : (s.i + 1).toNat = s.i.toNat + 1 := toNat_add_ofNat s.i 1 (by omega)
    have hi' : (s.i + 1).toNat ≤ s.inLen.toNat := by omega
    have hacc' : (push b.toNat 8 s).AccBounded 21 := push_accBounded hacc b.isLt (by decide)
    have hN : (push b.toNat 8 s).accN.toNat = s.accN.toNat + 8 := push_accN_toNat (by have := hacc.1; omega)
    have hbits' : 13 * (s.o.toNat / 2) + (push b.toNat 8 s).accN.toNat ≤ 8 * (s.i + 1).toNat := by omega
    exact inv_of_running (q := .beGroup) rfl (by decide) ⟨hst, hol, hcmd, hi', hcap⟩ ⟨hacc', heven, hbits'⟩
      hs.inBufWf hs.outBufWf hs.pvRange
  · exact inv_of_running (q := .beTail) rfl (by decide) ⟨hst, hol, hcmd, hi, hcap⟩ ⟨hacc, hroom⟩
      hs.inBufWf hs.outBufWf hs.pvRange

theorem beGroup_keeps_inv {s t : State} (hs : s.Inv) (hq : s.seq = .beGroup) (h : beGroup s = .next t) :
    t.Inv := by
  have hr := hs.runsIn hq (by decide)
  obtain ⟨hacc, hroom⟩ : s.AccBounded 21 ∧ s.EncoderRoom := hs.progressIn hq
  obtain ⟨hn, ho', x, y, -, -, rfl⟩ | ⟨hn, rfl⟩ := beGroup_eq_next.1 h
  · obtain ⟨heven, hbits⟩ := hroom
    obtain ⟨g, hg⟩ : ∃ g, gsel s.accB.toNat = g := ⟨_, rfl⟩
    have hg' : g = 13 ∨ g = 14 := hg ▸ gsel_cases s.accB.toNat
    rw [hg]
    have hacc' : (pop g s).AccBounded 21 := accBounded_mono (pop_accBounded hacc (by omega)) (Nat.sub_le _ _)
    have hN := pop_accN_toNat g s
    have ho2 : (s.o + 2).toNat = (s.o.toNat + 2) % 2 ^ 32 := BitVec.toNat_add _ _
    have heven' : (s.o + 2).toNat % 2 = 0 := by omega
    have hbits' : 13 * ((s.o + 2).toNat / 2) + (pop g s).accN.toNat ≤ 8 * s.i.toNat := by omega
    exact inv_of_running hq (by decide) hr ⟨hacc', heven', hbits'⟩ hs.inBufWf
      (Memory.wf_write _ (Memory.wf_write _ hs.outBufWf (Nat.lt_of_succ_lt ho')) ho') hs.pvRange
  · exact inv_of_running (q := .beConsume) rfl (by decide) hr ⟨⟨hn, hacc.2⟩, hroom⟩
      hs.inBufWf hs.outBufWf hs.pvRange

theorem beTail_keeps_inv {s t : State} (hs : s.Inv) (hq : s.seq = .beTail) (h : beTail s = .next t) :
    t.Inv := by
  have hr := hs.runsIn hq (by decide)
  obtain ⟨-, heven, hbits⟩ : s.AccBounded 13 ∧ s.EncoderRoom := hs.progressIn hq
  obtain ⟨-, rfl⟩ | ⟨-, ho, x, -, ⟨-, rfl⟩ | ⟨-, ho', y, -, rfl⟩⟩ := beTail_eq_next.1 h
  · exact inv_finish_ok hs hr (by omega)
  · exact inv_finish hs.inBufWf (Memory.wf_write _ hs.outBufWf ho) hs.pvRange
      fun _ => (toNat_add_ofNat_le s.o 1).trans ho
  · exact inv_finish hs.inBufWf (Memory.wf_write _ (Memory.wf_write _ hs.outBufWf ho) ho') hs.pvRange
      fun _ => (toNat_add_ofNat_le (s.o + 1) 1).trans ho'

/-! ## The base91 decoder's steps -/

/-- BD_SYMBOL on an entry of the table, whose consumed symbol is not yet counted in `s` (R128). -/
theorem takeSymbol_keeps_inv {s : State} {i : Word} {d : Nat} {b : Byte} (hs : s.Inv) (hq : s.seq = .bdSymbol)
    (hi : i.toNat = s.i.toNat + 1) (hle : i.toNat ≤ s.inLen.toNat) :
    (takeSymbol (decRom s.cfg.toParams b) { s with draws := d, i := i }).Inv := by
  obtain ⟨hst, hol, hcmd, -, hcap⟩ := hs.runsIn hq (by decide)
  obtain ⟨hacc, hroom⟩ : s.AccBounded 7 ∧ s.DecoderRoom := hs.progressIn hq
  unfold State.DecoderRoom at hroom
  obtain ht | ⟨hv, hp, ht⟩ | ⟨hv, hp, ht⟩ :=
    takeSymbol_cases (decRom s.cfg.toParams b) { s with draws := d, i := i } <;> rw [ht]
  · have hroom' : 8 * s.o.toNat + s.accN.toNat + 7 * s.pvValid.toNat ≤ 7 * i.toNat := by omega
    exact inv_of_running hq (by decide) ⟨hst, hol, hcmd, hle, hcap⟩ ⟨hacc, hroom'⟩
      hs.inBufWf hs.outBufWf hs.pvRange
  · have hp : s.pvValid = false := hp
    rw [hp] at hroom
    have hroom' : 8 * s.o.toNat + s.accN.toNat + 7 * true.toNat ≤ 7 * i.toNat := by
      simp at hroom ⊢; omega
    exact inv_of_running hq (by decide) ⟨hst, hol, hcmd, hle, hcap⟩ ⟨hacc, hroom'⟩
      hs.inBufWf hs.outBufWf (entryValue_decRom_le s.cfg b hv)
  · have hp : s.pvValid = true := hp
    rw [hp] at hroom
    obtain ⟨v, hv'⟩ : ∃ v, s.pv.toNat + 91 * (entryValue (decRom s.cfg.toParams b)).toNat = v := ⟨_, rfl⟩
    have hlt : v < 2 ^ gsel v := hv' ▸ pair_lt_two_pow_gsel hs.pvRange (entryValue_decRom_le s.cfg b hv)
    have hg := gsel_cases v
    have hacc' : (push v (gsel v) s).AccBounded 21 :=
      accBounded_mono (push_accBounded hacc hlt (by omega)) (by omega)
    have hN : (push v (gsel v) s).accN.toNat = s.accN.toNat + gsel v :=
      push_accN_toNat (by have := hacc.1; omega)
    have hroom' : 8 * s.o.toNat + (push v (gsel v) s).accN.toNat + 7 * false.toNat ≤ 7 * i.toNat := by
      simp only [Bool.toNat_true, Bool.toNat_false] at hroom ⊢; omega
    unfold combineSymbol
    simp only [hv']
    exact inv_of_running (q := .bdFlush) rfl (by decide) ⟨hst, hol, hcmd, hle, hcap⟩ ⟨hacc', hroom'⟩
      hs.inBufWf hs.outBufWf (Nat.zero_le _)

theorem bdSymbol_keeps_inv {s t : State} (hs : s.Inv) (hq : s.seq = .bdSymbol) (h : bdSymbol s = .next t) :
    t.Inv := by
  have hr := hs.runsIn hq (by decide)
  have hp := hs.progressIn hq
  obtain ⟨hlt, -, b, d, -, rfl⟩ | ⟨-, rfl⟩ := bdSymbol_eq_next.1 h
  · have hi : (s.i + 1).toNat = s.i.toNat + 1 := toNat_add_ofNat s.i 1 (by omega)
    exact takeSymbol_keeps_inv hs hq hi (by omega)
  · exact inv_of_running (q := .bdTail) rfl (by decide) hr hp
      hs.inBufWf hs.outBufWf hs.pvRange

theorem bdFlush_keeps_inv {s t : State} (hs : s.Inv) (hq : s.seq = .bdFlush) (h : bdFlush s = .next t) :
    t.Inv := by
  have hr := hs.runsIn hq (by decide)
  obtain ⟨hacc, hroom⟩ : s.AccBounded 21 ∧ s.DecoderRoom := hs.progressIn hq
  obtain ⟨hn, ho, rfl⟩ | ⟨hn, rfl⟩ := bdFlush_eq_next.1 h
  · unfold State.DecoderRoom at hroom
    have hacc' : (pop 8 s).AccBounded 21 := accBounded_mono (pop_accBounded hacc hn) (by decide)
    have hN := pop_accN_toNat 8 s
    have ho1 : (s.o + 1).toNat ≤ s.o.toNat + 1 := toNat_add_ofNat_le s.o 1
    have hroom' : 8 * (s.o + 1).toNat + (pop 8 s).accN.toNat + 7 * s.pvValid.toNat ≤ 7 * s.i.toNat := by omega
    exact inv_of_running hq (by decide) hr ⟨hacc', hroom'⟩ hs.inBufWf
      (Memory.wf_write _ hs.outBufWf ho) hs.pvRange
  · exact inv_of_running (q := .bdSymbol) rfl (by decide) hr ⟨⟨hn, hacc.2⟩, hroom⟩
      hs.inBufWf hs.outBufWf hs.pvRange

theorem bdTail_keeps_inv {s t : State} (hs : s.Inv) (hq : s.seq = .bdTail) (h : bdTail s = .next t) :
    t.Inv := by
  have hr := hs.runsIn hq (by decide)
  obtain ⟨-, hroom⟩ : s.AccBounded 7 ∧ s.DecoderRoom := hs.progressIn hq
  unfold State.DecoderRoom at hroom
  obtain ⟨-, ho, rfl⟩ | ⟨-, rfl⟩ := bdTail_eq_next.1 h
  · exact inv_finish hs.inBufWf (Memory.wf_write _ hs.outBufWf ho) hs.pvRange
      fun _ => (toNat_add_ofNat_le s.o 1).trans ho
  · exact inv_finish_ok hs hr (by omega)

/-- The CORE's step, by the STATE value that names it. -/
theorem coreStep_keeps_inv {s t : State} (hs : s.Inv) (h : coreStep s = .next t) : t.Inv := by
  cases hq : s.seq with
  | idle => rw [coreStep_idle hq] at h; cases h; exact hs
  | heByte => exact heByte_keeps_inv hs hq (coreStep_heByte hq ▸ h)
  | hdTrim => exact hdTrim_keeps_inv hs hq (coreStep_hdTrim hq ▸ h)
  | hdPair => exact hdPair_keeps_inv hs hq (coreStep_hdPair hq ▸ h)
  | beConsume => exact beConsume_keeps_inv hs hq (coreStep_beConsume hq ▸ h)
  | beGroup => exact beGroup_keeps_inv hs hq (coreStep_beGroup hq ▸ h)
  | beTail => exact beTail_keeps_inv hs hq (coreStep_beTail hq ▸ h)
  | bdSymbol => exact bdSymbol_keeps_inv hs hq (coreStep_bdSymbol hq ▸ h)
  | bdFlush => exact bdFlush_keeps_inv hs hq (coreStep_bdFlush hq ▸ h)
  | bdTail => exact bdTail_keeps_inv hs hq (coreStep_bdTail hq ▸ h)

/-! ## The host's moves -/

theorem progress_of_idle {s : State} (h : s.seq = .idle) : s.Progress := by
  unfold State.Progress; rw [h]; trivial

theorem inv_resetInput (s : State) : (resetInput s).Inv :=
  ⟨Memory.wf_nil _, Memory.wf_nil _, fun _ => .inl ⟨rfl, rfl⟩, fun h => absurd rfl h, Nat.zero_le _, trivial⟩

/-- With every register of a command cleared, its first STATE's progress holds. -/
theorem startClear_progressIn_firstSeq (c : Word) (s : State) (i : Instr) :
    (startClear c s).ProgressIn (firstSeq i) := by
  have acc : ∀ m, (startClear c s).AccBounded m := fun m => ⟨Nat.zero_le m, Nat.one_pos⟩
  cases i with
  | hexencU | hexencL => exact Nat.zero_le _
  | hexdec => exact ⟨rfl, rfl⟩
  | b91enc => exact ⟨acc 13, by simp [State.EncoderRoom]⟩
  | b91dec => exact ⟨acc 7, by simp [State.DecoderRoom]⟩

theorem writeCmd_keeps_inv {w : Word} {s t : State} (hin : s.inBuf.wf s.cfg.inCap = true)
    (hout : s.outBuf.wf s.cfg.outCap = true) (hb : s.busy = false) (h : writeCmd w s = .next t) : t.Inv := by
  obtain ⟨c, e, he, rfl⟩ | ⟨i, -, hlen, rfl⟩ := writeCmd_cases hb h
  · exact inv_finish hin hout (Nat.zero_le _) fun h => absurd h he
  · have hq : firstSeq i ≠ .idle := by cases i <;> decide
    exact inv_of_running (q := firstSeq i) rfl hq
      ⟨rfl, rfl, ⟨i, decode_encode i, firstSeq_serves i⟩, Nat.zero_le _, hlen⟩
      (startClear_progressIn_firstSeq _ s i) hin hout (Nat.zero_le _)

theorem hostMove_keeps_inv {s t : State} (hs : s.Inv) (h : hostMove s = .next t) : t.Inv := by
  obtain ⟨hc, -⟩ | ⟨rest, -, rfl⟩ | ⟨x, rest, -, hb, hx⟩ := hostMove_cases h
  · exact inv_of_coreSide_eq hc hs
  · exact inv_resetInput _
  · have hq := hs.seq_eq_idle hb
    obtain ⟨-, hw⟩ | rfl | ⟨ha, rfl⟩ := hx
    · exact writeCmd_keeps_inv (s := { s with host := rest }) hs.inBufWf hs.outBufWf hb hw
    · exact ⟨hs.inBufWf, hs.outBufWf, hs.idleStatus, fun h => absurd hq h, hs.pvRange,
        progress_of_idle hq⟩
    · exact ⟨Memory.wf_write _ hs.inBufWf ha, hs.outBufWf, hs.idleStatus, fun h => absurd hq h, hs.pvRange,
        progress_of_idle hq⟩

/-- Settles O48: the schedule's turn is not the CORE's side, and a CORE step and a host's move each keep
the invariant. -/
theorem stepKeepsInvariant : Obligations.StepKeepsInvariant := by
  intro s t hs h
  have hn : s.nextTurn.Inv := inv_of_coreSide_eq (s := s) rfl hs
  obtain hc | hm := step_cases h
  · exact coreStep_keeps_inv hn hc
  · exact hostMove_keeps_inv hn hm

end Sys2Proof.Machine
end

section
/-! PROOFS. A command that runs by itself: the frame bytes still to be read, the output stored so far, and
the finish (R62, R81, R83). -/

namespace Sys2Proof.Machine

/-! ## The output stored so far -/

/-- The running command has stored `done` at the start of OUT_BUF, which elsewhere reads as in `old`. -/
structure State.Produced (s : State) (done : List Byte) (old : State) : Prop where
  count : s.o.toNat = done.length
  output : s.HoldsOutput done old

theorem holdsOutput_write {s t : State} {done : List Byte} {old : State} {v : Byte}
    (h : s.HoldsOutput done old) (ht : t.outBuf = s.outBuf.write done.length v) :
    t.HoldsOutput (done ++ [v]) old := by
  intro a
  rw [ht, Memory.read_write, h a, List.length_append, List.length_singleton]
  rcases Nat.lt_trichotomy a done.length with ha | rfl | ha
  · rw [if_neg ha.ne, if_pos ha, if_pos (by omega), List.getElem?_append_left ha]
  · rw [if_pos rfl, if_pos (Nat.lt_succ_self _), List.getElem?_concat_length]
  · rw [if_neg ha.ne', if_neg (by omega), if_neg (by omega)]

/-- Nothing stored yet. -/
theorem produced_nil {s old : State} (ho : s.o = 0) (hb : s.outBuf = old.outBuf) : s.Produced [] old :=
  ⟨by rw [ho]; rfl, fun a => by simp [hb]⟩

theorem State.Produced.emit {s t old : State} {done : List Byte} {v : Byte} (h : s.Produced done old)
    (ho : t.o = s.o + 1) (hb : t.outBuf = s.outBuf.write s.o.toNat v) (hlt : done.length + 1 < 2 ^ 32) :
    t.Produced (done ++ [v]) old := by
  refine ⟨?_, holdsOutput_write h.output (h.count ▸ hb)⟩
  have h1 := toNat_add_ofNat s.o 1 (by rw [h.count]; exact hlt)
  rw [ho, List.length_append, List.length_singleton, ← h.count]
  exact h1

theorem State.Produced.emitPair {s t old : State} {done : List Byte} {v w : Byte} (h : s.Produced done old)
    (ho : t.o = s.o + 2) (hb : t.outBuf = (s.outBuf.write s.o.toNat v).write (s.o.toNat + 1) w)
    (hlt : done.length + 2 < 2 ^ 32) : t.Produced (done ++ [v, w]) old := by
  have first : State.Produced { s with o := s.o + 1, outBuf := s.outBuf.write s.o.toNat v } (done ++ [v]) old :=
    h.emit rfl rfl (by omega)
  have next : (s.o + 1).toNat = s.o.toNat + 1 := toNat_add_ofNat s.o 1 (by rw [h.count]; omega)
  rw [List.append_cons]
  refine first.emit ?_ ?_ (by simpa using hlt)
  · rw [ho, BitVec.add_assoc]; rfl
  · rw [hb, next]

/-! ## The frame bytes still to be read -/

/-- `rest` is the part of IN_BUF from I up to `last`: all of it has been written and lies inside IN_BUF. -/
structure State.Remaining (s : State) (last : Word) (rest : List Byte) : Prop where
  stop : s.i.toNat + rest.length = last.toNat
  fits : last.toNat ≤ s.cfg.inCap
  bytes : ∀ j, j < rest.length → s.inBuf.read (s.i.toNat + j) = rest[j]?

theorem State.Remaining.exhausted {s : State} {last : Word} (h : s.Remaining last []) : s.i.toNat = last.toNat :=
  h.stop

theorem State.Remaining.head {s : State} {last : Word} {b : Byte} {rest : List Byte}
    (h : s.Remaining last (b :: rest)) :
    s.i.toNat < last.toNat ∧ s.i.toNat < s.cfg.inCap ∧ s.inBuf.read s.i.toNat = some b := by
  have hs := h.stop
  have hf := h.fits
  rw [List.length_cons] at hs
  exact ⟨by omega, by omega, h.bytes 0 (Nat.succ_pos _)⟩

/-- The step that consumes the next byte leaves the ones behind it. -/
theorem State.Remaining.tail {s t : State} {last : Word} {b : Byte} {rest : List Byte}
    (h : s.Remaining last (b :: rest)) (hi : t.i = s.i + 1) (hc : t.cfg = s.cfg) (hm : t.inBuf = s.inBuf) :
    t.Remaining last rest := by
  obtain ⟨hs, hf, hb⟩ := h
  rw [List.length_cons] at hs
  have hlast := last.isLt
  have hi' : t.i.toNat = s.i.toNat + 1 := hi ▸ toNat_add_ofNat s.i 1 (by omega)
  refine ⟨by omega, hc ▸ hf, fun j hj => ?_⟩
  rw [hi', hm, Nat.add_assoc, Nat.add_comm 1 j]
  exact hb (j + 1) (Nat.succ_lt_succ hj)

/-! ## The finish -/

/-- After `n` steps by itself the command has just finished with `e` and `y`. -/
def State.FinishesIn (s : State) (n : Nat) (e : ErrCode) (y : List Byte) (old : State) : Prop :=
  ∃ t, Host.Core.run Sys2Proof.core n s = .next t ∧ t.Finished e y old

theorem finishesIn_of_run {m n : Nat} {s t old : State} {e : ErrCode} {y : List Byte}
    (hr : Host.Core.run Sys2Proof.core m s = .next t) (h : t.FinishesIn n e y old) :
    s.FinishesIn (m + n) e y old := by
  obtain ⟨u, hu, hf⟩ := h
  exact ⟨u, (run_add m n hr).trans hu, hf⟩

theorem run_one_of_coreStep {s t : State} (hq : s.seq ≠ .idle) (ht : s.turns = []) (hc : coreStep s = .next t) :
    Host.Core.run Sys2Proof.core 1 s = .next t :=
  run_succ 0 ((step_of_running hq ht).trans hc)

/-- One CORE step, and then the rest of the run. -/
theorem finishesIn_succ {n : Nat} {s t old : State} {e : ErrCode} {y : List Byte} (hq : s.seq ≠ .idle)
    (ht : s.turns = []) (hc : coreStep s = .next t) (h : t.FinishesIn n e y old) :
    s.FinishesIn (n + 1) e y old :=
  Nat.add_comm 1 n ▸ finishesIn_of_run (run_one_of_coreStep hq ht hc) h

/-- The finish with `ok` makes the output stored so far the command's output (R81). -/
theorem State.Produced.finished {s old : State} {y : List Byte} (h : s.Produced y old) :
    (finish .ok s).Finished .ok y old := by
  refine ⟨rfl, rfl, ?_, h.output⟩
  rw [finish_outLen, if_pos rfl, ← h.count, BitVec.ofNat_toNat, BitVec.setWidth_eq]

/-- An error finish leaves OUT_BUF as it is (R62, R81). -/
theorem finished_error {e : ErrCode} {s old : State} (he : e ≠ .ok) (hb : s.outBuf = old.outBuf) :
    (finish e s).Finished e [] old :=
  ⟨rfl, rfl, by rw [finish_outLen, if_neg he]; rfl, fun a => by simp [hb]⟩

theorem finishesIn_zero {s old : State} {e : ErrCode} {y : List Byte} (h : s.Finished e y old) :
    s.FinishesIn 0 e y old :=
  ⟨s, rfl, h⟩

/-! ## The start on a frame that fits IN_BUF (R79, R80) -/

/-- The state in which a command takes its first CORE step. -/
def State.started (s : State) (i : Instr) : State :=
  { startClear (encode i) s with seq := firstSeq i }

theorem exec_started {s : State} {i : Instr} (hb : s.busy = false) (hl : s.inLen.toNat ≤ s.cfg.inCap)
    (hd : dispatch i (startClear (encode i) s) = s.started i) : exec i s = .next (s.started i) := by
  rw [exec_eq_startCommand]
  obtain ⟨hb', -⟩ | ⟨-, hl', -⟩ | ⟨-, -, hs⟩ := startCommand_cases (encode i) (dispatch i) s
  · exact absurd (hb.symm.trans hb') (by decide)
  · omega
  · rw [hs, hd]

theorem started_remaining {s : State} {x : List Byte} (i : Instr) (hx : s.HoldsFrame x)
    (hl : x.length ≤ s.cfg.inCap) : (s.started i).Remaining (s.started i).inLen x := by
  obtain ⟨hlen, hb⟩ := hx
  refine ⟨(Nat.zero_add _).trans hlen.symm, hlen.symm ▸ hl, fun j hj => ?_⟩
  show s.inBuf.read (0 + j) = x[j]?
  rw [Nat.zero_add, hb j hj]

theorem started_produced (s : State) (i : Instr) : (s.started i).Produced [] s :=
  produced_nil rfl rfl

end Sys2Proof.Machine
end

section
/-! PROOFS. HEXENC by itself (R94 to R97). -/

namespace Sys2Proof.Machine

theorem hexSymbols_append_cons (done : List Byte) (upper : Bool) (b : Byte) (rest : List Byte) :
    done ++ hexSymbols upper (b :: rest) =
      done ++ [hexLut upper (b.extractLsb' 4 4), hexLut upper (b.extractLsb' 0 4)] ++ hexSymbols upper rest := by
  simp [hexSymbols]

/-- From HE_BYTE on: one step a byte, which stores its two symbols, and the finish. -/
theorem heByte_finishes {old : State} (rest : List Byte) {s : State} {done : List Byte} (hq : s.seq = .heByte)
    (ht : s.turns = []) (hr : s.Remaining s.inLen rest) (hp : s.Produced done old)
    (hcap : done.length + 2 * rest.length ≤ s.cfg.outCap) (hlt : done.length + 2 * rest.length < 2 ^ 32) :
    s.FinishesIn (rest.length + 1) .ok (done ++ hexSymbols s.upper rest) old := by
  have hrun : s.seq ≠ .idle := by rw [hq]; decide
  induction rest generalizing s done with
  | nil =>
    have hc : coreStep s = .next (finish .ok s) := by
      rw [coreStep_heByte hq, heByte_eq_next]
      exact .inr ⟨hr.exhausted.ge, rfl⟩
    exact finishesIn_succ hrun ht hc (finishesIn_zero (by simpa [hexSymbols] using hp.finished))
  | cons b rest ih =>
    obtain ⟨hi, hi', hb⟩ := hr.head
    rw [List.length_cons] at hcap hlt
    have hc := (coreStep_heByte hq).trans (heByte_eq_next.2 (.inl ⟨hi, hi', by rw [hp.count]; omega, b, s.draws,
      by rw [hb]; rfl, rfl⟩))
    refine finishesIn_succ hrun ht hc ?_
    rw [hexSymbols_append_cons]
    exact ih hq ht (hr.tail rfl rfl rfl) (hp.emitPair rfl rfl (by omega)) (by simp; omega) (by simp; omega) hrun

/-- Settles O42: the start of HEXENC is HE_BYTE at the frame's first byte, from where `heByte_finishes`. -/
theorem hexencRunsToCompletion : Obligations.HexencRunsToCompletion := by
  intro s x hb ht hx hne hl hlt
  have hlen : s.inLen.toNat ≤ s.cfg.inCap := hx.1 ▸ hl
  have h0 : s.inLen ≠ 0 := by
    rintro h
    have := hx.1
    rw [h] at this
    exact hne (List.length_eq_zero_iff.1 this.symm)
  have hcap := s.cfg.two_inCap_le
  have run : ∀ i, firstSeq i = .heByte → dispatch i = dispatchHexenc →
      ∃ s1 t, exec i s = .next s1 ∧ Host.Core.run Sys2Proof.core (x.length + 1) s1 = .next t ∧
        t.Finished .ok (hexSymbols (upperField (encode i)) x) s := by
    intro i hq hd
    have hs : exec i s = .next (s.started i) := exec_started hb hlen (by
      rw [hd, State.started, hq]; exact if_neg h0)
    obtain ⟨t, hrun, hf⟩ := heByte_finishes x (s := s.started i) hq ht (started_remaining i hx hl)
      (started_produced s i) (by simp; exact (Nat.mul_le_mul_left 2 hl).trans hcap) (by simpa using hlt)
    exact ⟨_, t, hs, hrun, hf⟩
  exact ⟨run .hexencU rfl rfl, run .hexencL rfl rfl⟩

end Sys2Proof.Machine
end

section
/-! PROOFS. HEXDEC by itself (R101 to R108). -/

namespace Sys2Proof.Machine

/-! ## A written frame -/

theorem frameWritten_of_holdsFrame {s : State} {x : List Byte} (hx : s.HoldsFrame x) : s.FrameWritten := by
  obtain ⟨hlen, hb⟩ := hx
  intro k hk
  rw [hlen] at hk
  rw [hb k hk, List.getElem?_eq_getElem hk]; rfl

/-- HD_TRIM of a written frame takes no draw and sees the frame's bytes. -/
theorem hdTrim_of_holdsFrame {s : State} {x : List Byte} (hx : s.HoldsFrame x) (hl : x.length ≤ s.cfg.inCap) :
    ∃ v : Nat → Byte, (∀ j, j < x.length → some (v j) = x[j]?) ∧
      hdTrim s = .next (trimDecision (scanBounds s.cfg.toParams v x.length 0 none) s) := by
  obtain ⟨v, d, -, hw, -, hd, ht⟩ := hdTrim_spec (s := s) (by rw [hx.1]; exact hl)
  obtain rfl := hd (frameWritten_of_holdsFrame hx)
  rw [hx.1] at hw ht
  refine ⟨v, fun j hj => ?_, ht⟩
  have hb := hx.2 j hj
  rw [List.getElem?_eq_getElem hj] at hb ⊢
  rw [hw j hj _ hb]

/-! ## Trimming (R104) -/

theorem trim_eq_nil {p : Params} {x : List Byte} (h : ∀ b ∈ x, isWhitespace p b = true) : trim p x = [] := by
  unfold trim
  rw [List.dropWhile_eq_nil_iff.2 h]; rfl

/-- A list whose first and last entries are not whitespace is what trimming leaves of it between whitespace. -/
theorem trim_append {p : Params} {pre mid post : List Byte} (hne : mid ≠ [])
    (hpre : ∀ b ∈ pre, isWhitespace p b = true) (hpost : ∀ b ∈ post, isWhitespace p b = true)
    (hhead : isWhitespace p (mid.head hne) = false) (hlast : isWhitespace p (mid.getLast hne) = false) :
    trim p (pre ++ mid ++ post) = mid := by
  have keep : ∀ (l tl : List Byte) (hl : l ≠ []), isWhitespace p (l.head hl) = false →
      (l ++ tl).dropWhile (isWhitespace p) = l ++ tl := by
    intro l tl hl h
    cases l with
    | nil => exact absurd rfl hl
    | cons b l => exact List.dropWhile_cons_of_neg (by simpa using h)
  unfold trim
  rw [List.append_assoc, List.dropWhile_append_of_pos hpre, keep mid post hne hhead, List.reverse_append,
    List.dropWhile_append_of_pos (by simpa using hpost)]
  have := keep mid.reverse [] (by simpa using hne) (by simpa using hlast)
  rw [List.append_nil] at this
  rw [this, List.reverse_reverse]

/-- The bounds `S` and `E` of HD_TRIM cut out the trimmed frame (R104, R105). -/
theorem trim_eq_of_bounds {p : Params} {x : List Byte} {v : Nat → Byte} {S E : Nat}
    (hv : ∀ j, j < x.length → some (v j) = x[j]?) (hSE : S < E) (hE : E ≤ x.length)
    (hS : isWhitespace p (v S) = false) (hE' : isWhitespace p (v (E - 1)) = false)
    (hout : ∀ j, j < x.length → j < S ∨ E ≤ j → isWhitespace p (v j) = true) :
    trim p x = (x.take E).drop S := by
  have hlen : ((x.take E).drop S).length = E - S := by simp; omega
  have hne : (x.take E).drop S ≠ [] := by rw [← List.length_pos_iff]; omega
  have get : ∀ j (hj : j < x.length), x[j] = v j := fun j hj => by
    have := hv j hj
    rw [List.getElem?_eq_getElem hj] at this
    exact (Option.some.inj this).symm
  have hsplit : x = x.take S ++ (x.take E).drop S ++ x.drop E := by
    have h1 := List.take_append_drop S (x.take E)
    rw [List.take_take, Nat.min_eq_left hSE.le] at h1
    rw [h1, List.take_append_drop]
  conv_lhs => rw [hsplit]
  refine trim_append hne (fun b hb => ?_) (fun b hb => ?_) ?_ ?_
  · obtain ⟨j, hj, rfl⟩ := List.mem_iff_getElem.1 hb
    rw [List.length_take] at hj
    rw [List.getElem_take, get j (by omega)]
    exact hout j (by omega) (.inl (by omega))
  · obtain ⟨j, hj, rfl⟩ := List.mem_iff_getElem.1 hb
    rw [List.length_drop] at hj
    rw [List.getElem_drop, get _ (by omega)]
    exact hout _ (by omega) (.inr (by omega))
  · rw [List.head_eq_getElem, List.getElem_drop, List.getElem_take, get _ (by omega)]
    exact hS
  · rw [List.getLast_eq_getElem, List.getElem_drop, List.getElem_take, get _ (by omega)]
    rw [show S + (((x.take E).drop S).length - 1) = E - 1 by omega]
    exact hE'

/-! ## HD_PAIR to the finish (R106) -/

theorem State.Remaining.second {s : State} {last : Word} {b c : Byte} {rest : List Byte}
    (h : s.Remaining last (b :: c :: rest)) :
    s.i.toNat + 1 < s.cfg.inCap ∧ s.inBuf.read (s.i.toNat + 1) = some c := by
  have hs := h.stop
  have hf := h.fits
  simp only [List.length_cons] at hs
  exact ⟨by omega, h.bytes 1 (by simp)⟩

theorem State.Remaining.tailPair {s t : State} {last : Word} {b c : Byte} {rest : List Byte}
    (h : s.Remaining last (b :: c :: rest)) (hi : t.i = s.i + 2) (hc : t.cfg = s.cfg)
    (hm : t.inBuf = s.inBuf) : t.Remaining last rest := by
  have first : State.Remaining { s with i := s.i + 1 } last (c :: rest) := h.tail rfl rfl rfl
  exact first.tail (hi.trans (BitVec.add_assoc s.i 1 1).symm) hc hm

/-- From HD_PAIR on: one step a pair, which stores its byte, and the finish. -/
theorem hdPair_finishes {old : State} (rest : List Byte) {s : State} {done : List Byte} (hq : s.seq = .hdPair)
    (ht : s.turns = []) (hr : s.Remaining s.trimE rest) (heven : rest.length % 2 = 0) (hp : s.Produced done old)
    (hcap : done.length + rest.length ≤ s.cfg.inCap) :
    s.FinishesIn (rest.length / 2 + 1) .ok (done ++ pairBytes rest) old := by
  have hrun : s.seq ≠ .idle := by rw [hq]; decide
  have hin := s.cfg.inCap_lt
  have hout := s.cfg.two_inCap_le
  induction rest using pairBytes.induct generalizing s done with
  | case1 hi lo rest ih =>
    obtain ⟨hi₁, -, hb₁⟩ := hr.head
    obtain ⟨hi₂, hb₂⟩ := hr.second
    simp only [List.length_cons] at heven hcap ⊢
    have hc := (coreStep_hdPair hq).trans (hdPair_eq_next.2 (.inl ⟨hi₁, hi₂, by rw [hp.count]; omega,
      hi, s.draws, lo, s.draws, by rw [hb₁]; rfl, by rw [hb₂]; rfl, rfl⟩))
    rw [show (rest.length + 1 + 1) / 2 = rest.length / 2 + 1 by omega, pairBytes, List.append_cons]
    exact finishesIn_succ hrun ht hc (ih hq ht (hr.tailPair rfl rfl rfl) (by omega)
      (hp.emit rfl rfl (by omega)) (by simp; omega) hrun hin hout)
  | case2 rest hshort =>
    obtain rfl : rest = [] := by
      match rest with
      | [] => rfl
      | [_] => simp at heven
      | hi :: lo :: rest => exact absurd rfl (hshort hi lo rest)
    have hc : coreStep s = .next (finish .ok s) := by
      rw [coreStep_hdPair hq, hdPair_eq_next]
      exact .inr ⟨hr.exhausted.ge, rfl⟩
    exact finishesIn_succ hrun ht hc (finishesIn_zero (by simpa [pairBytes] using hp.finished))

/-! ## HD_TRIM and what follows it (R105, R108) -/

/-- What is left to read after HD_TRIM has set I to `S` and TRIM_E to `E`. -/
theorem remaining_trimmed {s : State} {x : List Byte} (hx : s.HoldsFrame x) (hl : x.length ≤ s.cfg.inCap)
    {S E : Nat} (hSE : S < E) (hE : E ≤ x.length) :
    State.Remaining { s with i := BitVec.ofNat 32 S, trimE := BitVec.ofNat 32 E, seq := .hdPair }
      (BitVec.ofNat 32 E) ((x.take E).drop S) := by
  have hin := s.cfg.inCap_lt
  have hS : (BitVec.ofNat 32 S).toNat = S := by rw [BitVec.toNat_ofNat, Nat.mod_eq_of_lt (by omega)]
  have hE' : (BitVec.ofNat 32 E).toNat = E := by rw [BitVec.toNat_ofNat, Nat.mod_eq_of_lt (by omega)]
  have hlen : ((x.take E).drop S).length = E - S := by simp; omega
  refine ⟨by rw [hS, hE', hlen]; omega, by rw [hE']; exact hE.trans hl, fun j hj => ?_⟩
  rw [hlen] at hj
  rw [hS, List.getElem?_drop, List.getElem?_take_of_lt (by omega)]
  exact hx.2 (S + j) (by omega)

/-- From HD_TRIM on: an error finish at once, or HD_PAIR on the trimmed frame. -/
theorem hdTrim_finishes {old s : State} {x : List Byte} (hq : s.seq = .hdTrim) (ht : s.turns = [])
    (hx : s.HoldsFrame x) (hl : x.length ≤ s.cfg.inCap) (hp : s.Produced [] old) (hb : s.outBuf = old.outBuf) :
    match hexDecode s.cfg.toParams x with
    | .ok y => s.FinishesIn ((trim s.cfg.toParams x).length / 2 + 2) .ok y old
    | .error e => s.FinishesIn 1 e [] old := by
  have hrun : s.seq ≠ .idle := by rw [hq]; decide
  obtain ⟨v, hv, hstep⟩ := hdTrim_of_holdsFrame hx hl
  have hc := (coreStep_hdTrim hq).trans hstep
  unfold hexDecode
  obtain ⟨hnone, hall⟩ | ⟨S, E, hsome, hSE, hE, hS, hE', hout⟩ := scanBounds_cases s.cfg.toParams v x.length
  · have hnil : trim s.cfg.toParams x = [] := trim_eq_nil fun b hb => by
      obtain ⟨j, hj, rfl⟩ := List.mem_iff_getElem.1 hb
      have := hv j hj
      rw [List.getElem?_eq_getElem hj] at this
      exact Option.some.inj this ▸ hall j hj
    rw [hnone] at hc
    rw [hnil]
    exact finishesIn_succ hrun ht hc (finishesIn_zero (finished_error (by decide) hb))
  · have hcut := trim_eq_of_bounds hv hSE hE hS hE' hout
    have hlen : ((x.take E).drop S).length = E - S := by simp; omega
    have hne : ((x.take E).drop S).isEmpty = false := by
      rw [List.isEmpty_eq_false_iff, ← List.length_pos_iff]; omega
    rw [hsome] at hc
    rw [hcut, hne, hlen]
    by_cases hodd : (E - S) % 2 = 1
    · rw [trimDecision, if_pos hodd] at hc
      rw [if_pos hodd]
      exact finishesIn_succ hrun ht hc (finishesIn_zero (finished_error (by decide) hb))
    · rw [trimDecision, if_neg hodd] at hc
      rw [if_neg hodd]
      refine finishesIn_succ hrun ht hc ?_
      rw [← hlen]
      exact hdPair_finishes (done := []) _ rfl ht (remaining_trimmed hx hl hSE hE) (by omega)
        ⟨hp.count, hp.output⟩ (by simp; omega)

/-- Settles O43: the start of HEXDEC is HD_TRIM, from where `hdTrim_finishes`. -/
theorem hexdecRunsToCompletion : Obligations.HexdecRunsToCompletion := by
  intro s x hb ht hx hl
  have hfin := hdTrim_finishes (s := s.started .hexdec) rfl ht hx hl (started_produced s _) rfl
  refine ⟨_, exec_started (i := .hexdec) hb (by rw [hx.1]; exact hl) rfl, fun y hy => ?_, fun e he => ?_⟩
  · rw [show hexDecode (s.started .hexdec).cfg.toParams x = .ok y from hy] at hfin
    exact hfin
  · rw [show hexDecode (s.started .hexdec).cfg.toParams x = .error e from he] at hfin
    exact hfin

end Sys2Proof.Machine
end

section
/-! PROOFS. B91ENC by itself (R111 to R125), and the run of a base91 command in the middle of its frame. -/

namespace Sys2Proof.Machine

/-! ## The accumulator's operations are those of the frame-level functions -/

theorem push_accB_toNat {m x w : Nat} {s : State} (hs : s.AccBounded m) (hx : x < 2 ^ w) (hm : m + w < 32) :
    (push x w s).accB.toNat = s.accB.toNat ||| (x <<< s.accN.toNat) := by
  obtain ⟨hn, hb⟩ := hs
  rw [push_accB, BitVec.toNat_ofNat, Nat.mod_eq_of_lt]
  refine Nat.or_lt_two_pow s.accB.isLt ?_
  exact (Nat.shiftLeft_lt hx).trans_le (Nat.pow_le_pow_right (by decide) (by omega))

theorem pop_accB_toNat (w : Nat) (s : State) : (pop w s).accB.toNat = s.accB.toNat >>> w := by
  rw [pop_accB, BitVec.toNat_ofNat, Nat.mod_eq_of_lt]
  exact (Nat.shiftRight_le _ _).trans_lt s.accB.isLt

/-- The value of a group is at most 8280, so that both its digits are at most 90 (R115). -/
theorem group_le (b : Nat) : lowBits (gsel b) b ≤ 8280 := by
  unfold gsel
  simp only [lowBits_eq_mod]
  split_ifs <;> omega

/-- The B91_ENC_ROM entries of digits (R118, R125). -/
def romSymbols (p : Params) (digits : List Nat) : List Byte :=
  digits.filterMap fun k => p.alphabet[k]?

theorem romSymbols_append (p : Params) (l m : List Nat) :
    romSymbols p (l ++ m) = romSymbols p l ++ romSymbols p m := List.filterMap_append

theorem romSymbols_one {p : Params} {k : Nat} {x : Byte} (hx : p.alphabet[k]? = some x) :
    romSymbols p [k] = [x] := by
  simp [romSymbols, hx]

theorem romSymbols_two {p : Params} {k l : Nat} {x y : Byte} (hx : p.alphabet[k]? = some x)
    (hy : p.alphabet[l]? = some y) : romSymbols p [k, l] = [x, y] := by
  simp [romSymbols, hx, hy]

/-! ## A base91 command in the middle of its frame -/

/-- In STATE `q`, by itself, with `rest` to read and `done` stored. -/
structure State.Midway (s : State) (q : Seq) (rest done : List Byte) (old : State) : Prop where
  seq : s.seq = q
  alone : s.turns = []
  input : s.Remaining s.inLen rest
  output : s.Produced done old

/-- The command finishes within `bound` steps, with `ok` and `y`. -/
def State.FinishesWithin (s : State) (bound : Nat) (y : List Byte) (old : State) : Prop :=
  ∃ n, n ≤ bound ∧ s.FinishesIn n .ok y old

theorem finishesWithin_of_run {m k bound : Nat} {s t old : State} {y : List Byte}
    (hr : Host.Core.run Sys2Proof.core m s = .next t) (hm : m ≤ k) (h : t.FinishesWithin bound y old) :
    s.FinishesWithin (bound + k) y old := by
  obtain ⟨n, hn, hf⟩ := h
  exact ⟨m + n, by omega, finishesIn_of_run hr hf⟩

theorem State.Midway.run_one {s t old : State} {q : Seq} {rest done : List Byte}
    (hm : s.Midway q rest done old) (hq : q ≠ .idle) (hc : coreStep s = .next t) :
    Host.Core.run Sys2Proof.core 1 s = .next t :=
  run_one_of_coreStep (hm.seq ▸ hq) hm.alone hc

theorem State.Midway.finishesWithin_succ {s t old : State} {q : Seq} {rest done y : List Byte} {bound : Nat}
    (hm : s.Midway q rest done old) (hq : q ≠ .idle) (hc : coreStep s = .next t)
    (h : t.FinishesWithin bound y old) : s.FinishesWithin (bound + 1) y old :=
  finishesWithin_of_run (hm.run_one hq hc) (le_refl 1) h

theorem finishesWithin_mono {s old : State} {m n : Nat} {y : List Byte} (h : s.FinishesWithin m y old)
    (hmn : m ≤ n) : s.FinishesWithin n y old := by
  obtain ⟨k, hk, hf⟩ := h
  exact ⟨k, hk.trans hmn, hf⟩

theorem finishesWithin_of_finished {s old : State} {y : List Byte} (h : s.Finished .ok y old) :
    s.FinishesWithin 0 y old :=
  ⟨0, le_refl 0, finishesIn_zero h⟩

/-! ## The encoder's steps (R120 to R122) -/

/-- B91ENC in the middle of its frame, with at most `bound` bits in the accumulator (R116, R126). -/
structure State.Encoding (s : State) (q : Seq) (bound : Nat) (rest done : List Byte) (old : State) : Prop where
  mid : s.Midway q rest done old
  acc : s.AccBounded bound
  room : s.EncoderRoom

theorem encodeFrom_cons (c : Byte) (rest : List Byte) (b n : Nat) :
    encodeFrom (c :: rest) b n =
      (groupLoop (n + 8) (b ||| (c.toNat <<< n)) (n + 8)).1 ++
        encodeFrom rest (groupLoop (n + 8) (b ||| (c.toNat <<< n)) (n + 8)).2.1
          (groupLoop (n + 8) (b ||| (c.toNat <<< n)) (n + 8)).2.2 := rfl

/-- BE_CONSUME takes the next byte. -/
theorem State.Encoding.consume {s old : State} {b : Byte} {rest done : List Byte}
    (h : s.Encoding .beConsume 13 (b :: rest) done old) :
    ∃ t, coreStep s = .next t ∧ t.cfg = s.cfg ∧ t.Encoding .beGroup 21 rest done old ∧
      t.accB.toNat = s.accB.toNat ||| (b.toNat <<< s.accN.toNat) ∧ t.accN.toNat = s.accN.toNat + 8 := by
  obtain ⟨⟨hq, ht, hr, hp⟩, hacc, heven, hbits⟩ := h
  obtain ⟨hi, hi', hb⟩ := hr.head
  have hc := (coreStep_beConsume hq).trans
    (beConsume_eq_next.2 (.inl ⟨hi, hi', b, s.draws, by rw [hb]; rfl, rfl⟩))
  have hlast := s.inLen.isLt
  have hi1 : (s.i + 1).toNat = s.i.toNat + 1 := toNat_add_ofNat s.i 1 (by omega)
  have hN : (push b.toNat 8 s).accN.toNat = s.accN.toNat + 8 := push_accN_toNat (by have := hacc.1; omega)
  have hbits' : 13 * (s.o.toNat / 2) + (push b.toNat 8 s).accN.toNat ≤ 8 * (s.i + 1).toNat := by omega
  exact ⟨_, hc, rfl, ⟨⟨rfl, ht, hr.tail rfl rfl rfl, ⟨hp.count, hp.output⟩⟩,
    push_accBounded hacc b.isLt (by decide), heven, hbits'⟩, push_accB_toNat hacc b.isLt (by decide), hN⟩

/-- A group that BE_GROUP takes fits OUT_BUF (R126). -/
theorem State.Encoding.group_fits {s old : State} {bound : Nat} {q : Seq} {rest done : List Byte}
    (h : s.Encoding q bound rest done old) (hn : 13 < s.accN.toNat) : done.length + 1 < s.cfg.outCap := by
  obtain ⟨⟨-, -, hr, hp⟩, -, heven, hbits⟩ := h
  have hcap := s.cfg.two_inCap_le
  have hs := hr.stop
  have hf := hr.fits
  have ho := hp.count
  omega

/-- BE_GROUP stores the two symbols of a group. -/
theorem State.Encoding.group {s old : State} {rest done : List Byte}
    (h : s.Encoding .beGroup 21 rest done old) (hn : 13 < s.accN.toNat) (hlt : done.length + 2 < 2 ^ 32) :
    ∃ t, coreStep s = .next t ∧ t.cfg = s.cfg ∧
      t.Encoding .beGroup 8 rest
        (done ++ romSymbols s.cfg.toParams
          [lowBits (gsel s.accB.toNat) s.accB.toNat % 91, lowBits (gsel s.accB.toNat) s.accB.toNat / 91]) old ∧
      t.accB.toNat = s.accB.toNat >>> gsel s.accB.toNat ∧ t.accN.toNat = s.accN.toNat - gsel s.accB.toNat := by
  have hfit := h.group_fits hn
  obtain ⟨⟨hq, ht, hr, hp⟩, hacc, heven, hbits⟩ := h
  have hv := group_le s.accB.toNat
  obtain ⟨x, hx⟩ := s.cfg.rom_entry (k := lowBits (gsel s.accB.toNat) s.accB.toNat % 91) (by omega)
  obtain ⟨y, hy⟩ := s.cfg.rom_entry (k := lowBits (gsel s.accB.toNat) s.accB.toNat / 91) (by omega)
  have hc := (coreStep_beGroup hq).trans
    (beGroup_eq_next.2 (.inl ⟨hn, by rw [hp.count]; exact hfit, x, y, hx, hy, rfl⟩))
  have hg := gsel_cases s.accB.toNat
  have hN := pop_accN_toNat (gsel s.accB.toNat) s
  have ho2 : (s.o + 2).toNat = s.o.toNat + 2 := toNat_add_ofNat s.o 2 (by rw [hp.count]; exact hlt)
  have heven' : (s.o + 2).toNat % 2 = 0 := by omega
  have hbits' : 13 * ((s.o + 2).toNat / 2) + (pop (gsel s.accB.toNat) s).accN.toNat ≤ 8 * s.i.toNat := by omega
  rw [romSymbols_two hx hy]
  exact ⟨_, hc, rfl, ⟨⟨hq, ht, ⟨hr.stop, hr.fits, hr.bytes⟩, hp.emitPair rfl rfl hlt⟩,
    accBounded_mono (pop_accBounded hacc (by omega)) (by omega), heven', hbits'⟩, pop_accB_toNat _ s, hN⟩

/-- With 13 bits or fewer BE_GROUP goes back for the next byte. -/
theorem State.Encoding.back {s old : State} {bound : Nat} {rest done : List Byte}
    (h : s.Encoding .beGroup bound rest done old) (hn : s.accN.toNat ≤ 13) :
    ∃ t, coreStep s = .next t ∧ t.cfg = s.cfg ∧ t.Encoding .beConsume 13 rest done old ∧
      t.accB = s.accB ∧ t.accN = s.accN := by
  obtain ⟨⟨hq, ht, hr, hp⟩, hacc, heven, hbits⟩ := h
  exact ⟨_, (coreStep_beGroup hq).trans (beGroup_eq_next.2 (.inr ⟨hn, rfl⟩)), rfl,
    ⟨⟨rfl, ht, ⟨hr.stop, hr.fits, hr.bytes⟩, ⟨hp.count, hp.output⟩⟩, ⟨hn, hacc.2⟩, heven, hbits⟩, rfl, rfl⟩

/-- BE_GROUP runs the loop of R125 in at most two steps. -/
theorem State.Encoding.groupLoop_runs {s old : State} {rest done : List Byte}
    (h : s.Encoding .beGroup 21 rest done old)
    (hlt : done.length + (groupLoop s.accN.toNat s.accB.toNat s.accN.toNat).1.length < 2 ^ 32) :
    ∃ k t, k ≤ 2 ∧ Host.Core.run Sys2Proof.core k s = .next t ∧ t.cfg = s.cfg ∧
      t.Encoding .beConsume 13 rest
        (done ++ romSymbols s.cfg.toParams (groupLoop s.accN.toNat s.accB.toNat s.accN.toNat).1) old ∧
      t.accB.toNat = (groupLoop s.accN.toNat s.accB.toNat s.accN.toNat).2.1 ∧
      t.accN.toNat = (groupLoop s.accN.toNat s.accB.toNat s.accN.toNat).2.2 := by
  rw [groupLoop_of_le _ _ h.acc.1] at hlt ⊢
  split_ifs at hlt ⊢ with hn
  · obtain ⟨t, hc, hcfg, ht, hB, hN⟩ := h.group hn hlt
    have hg := gsel_cases s.accB.toNat
    obtain ⟨u, hc', hcfg', hu, hB', hN'⟩ := ht.back (by have := h.acc.1; omega)
    refine ⟨1 + 1, u, le_refl 2, ?_, hcfg'.trans hcfg, hu, by rw [hB', hB], by rw [hN', hN]⟩
    exact (run_add 1 1 (h.mid.run_one (by decide) hc)).trans (ht.mid.run_one (by decide) hc')
  · obtain ⟨t, hc, hcfg, ht, hB, hN⟩ := h.back (by omega)
    refine ⟨1, t, by decide, h.mid.run_one (by decide) hc, hcfg, ?_, by rw [hB], by rw [hN]⟩
    simpa [romSymbols] using ht

/-- BE_TAIL stores the symbols of the leftover bits and finishes. -/
theorem State.Encoding.tail {s old : State} {done : List Byte} (h : s.Encoding .beTail 13 [] done old)
    (hlt : done.length + (tailDigits s.accB.toNat s.accN.toNat).length < 2 ^ 32) :
    s.FinishesWithin 1
      (done ++ romSymbols s.cfg.toParams (tailDigits s.accB.toNat s.accN.toNat)) old := by
  obtain ⟨hm, ⟨hn, hB⟩, heven, hbits⟩ := h
  have hout := s.cfg.two_inCap_le
  have hstop := hm.input.stop
  have hfits := hm.input.fits
  have ho := hm.output.count
  have hstep := coreStep_beTail hm.seq
  have finish_of : ∀ {t : State} {y : List Byte}, t.Produced y old → beTail s = .next (finish .ok t) →
      s.FinishesWithin 1 y old := fun hp hc =>
    hm.finishesWithin_succ (by decide) (hstep.trans hc) (finishesWithin_of_finished hp.finished)
  by_cases h0 : s.accN = 0
  · have hd : tailDigits s.accB.toNat s.accN.toNat = [] := by simp [tailDigits, h0]
    rw [hd]
    exact finish_of (by simpa [romSymbols] using hm.output) (beTail_eq_next.2 (.inl ⟨h0, rfl⟩))
  · have hpos : s.accN.toNat ≠ 0 := fun hz => h0 (BitVec.eq_of_toNat_eq hz)
    have hB' : s.accB.toNat < 2 ^ 13 := hB.trans_le (Nat.pow_le_pow_right (by decide) hn)
    obtain ⟨x, hx⟩ := s.cfg.rom_entry (k := s.accB.toNat % 91) (by omega)
    obtain ⟨y, hy⟩ := s.cfg.rom_entry (k := s.accB.toNat / 91) (by omega)
    by_cases h2 : s.accN.toNat > 7 ∨ s.accB.toNat > 90
    · have hd : tailDigits s.accB.toNat s.accN.toNat = [s.accB.toNat % 91, s.accB.toNat / 91] := by
        rw [tailDigits, if_neg hpos, if_pos h2]
      rw [hd, List.length_cons, List.length_singleton] at hlt
      have ho1 : (s.o + 1).toNat = s.o.toNat + 1 := toNat_add_ofNat s.o 1 (by omega)
      rw [hd, romSymbols_two hx hy]
      refine finish_of (hm.output.emitPair (BitVec.add_assoc s.o 1 1) (congrArg (Memory.write _ · y) ho1) hlt)
        (beTail_eq_next.2 (.inr ⟨h0, by omega, x, hx, .inr ⟨h2, by omega, y, hy, rfl⟩⟩))
    · have hd : tailDigits s.accB.toNat s.accN.toNat = [s.accB.toNat % 91] := by
        rw [tailDigits, if_neg hpos, if_neg h2]
      rw [hd, List.length_singleton] at hlt
      rw [hd, romSymbols_one hx]
      exact finish_of (hm.output.emit rfl rfl hlt)
        (beTail_eq_next.2 (.inr ⟨h0, by omega, x, hx, .inl ⟨h2, rfl⟩⟩))

/-- From BE_CONSUME on: three steps a byte at most, one to the tail, and the tail. -/
theorem State.Encoding.finishes {old : State} (rest : List Byte) {s : State} {done : List Byte}
    (h : s.Encoding .beConsume 13 rest done old)
    (hlt : done.length + (encodeFrom rest s.accB.toNat s.accN.toNat).length < 2 ^ 32) :
    s.FinishesWithin (3 * rest.length + 2)
      (done ++ romSymbols s.cfg.toParams (encodeFrom rest s.accB.toNat s.accN.toNat)) old := by
  induction rest generalizing s done with
  | nil =>
    have ⟨hm, hacc, heven, hbits⟩ := h
    have ⟨hq, ht, hr, hp⟩ := hm
    have hc := (coreStep_beConsume hq).trans (beConsume_eq_next.2 (.inr ⟨hr.exhausted.ge, rfl⟩))
    have htail : State.Encoding { s with seq := .beTail } .beTail 13 [] done old :=
      ⟨⟨rfl, ht, ⟨hr.stop, hr.fits, hr.bytes⟩, ⟨hp.count, hp.output⟩⟩, hacc, heven, hbits⟩
    exact hm.finishesWithin_succ (by decide) hc (htail.tail hlt)
  | cons b rest ih =>
    obtain ⟨t, hc, hcfg, ht, hB, hN⟩ := h.consume
    rw [encodeFrom_cons, ← hB, ← hN] at hlt ⊢
    rw [List.length_append] at hlt
    obtain ⟨k, u, hk, hrun, hcfg', hu, hB', hN'⟩ := ht.groupLoop_runs (by omega)
    rw [← hB', ← hN'] at hlt ⊢
    have hlen : (romSymbols t.cfg.toParams (groupLoop t.accN.toNat t.accB.toNat t.accN.toNat).1).length ≤
        (groupLoop t.accN.toNat t.accB.toNat t.accN.toNat).1.length := List.length_filterMap_le _ _
    have hfin := ih hu (by rw [List.length_append]; omega)
    rw [hcfg', List.append_assoc, ← romSymbols_append, hcfg] at hfin
    rw [List.length_cons, show 3 * (rest.length + 1) + 2 = 3 * rest.length + 2 + 2 + 1 by omega]
    exact h.mid.finishesWithin_succ (by decide) hc (finishesWithin_of_run (k := 2) hrun hk hfin)

/-- Settles O44: the start of B91ENC is BE_CONSUME with an empty accumulator, from where
`State.Encoding.finishes`. -/
theorem b91encRunsToCompletion : Obligations.B91encRunsToCompletion := by
  intro s x hb ht hx hl hlt
  obtain ⟨hacc, hroom⟩ : (s.started .b91enc).AccBounded 13 ∧ (s.started .b91enc).EncoderRoom :=
    startClear_progressIn_firstSeq _ s .b91enc
  have start : (s.started .b91enc).Encoding .beConsume 13 x [] s :=
    ⟨⟨rfl, ht, started_remaining _ hx hl, started_produced s _⟩, hacc, hroom⟩
  obtain ⟨n, hn, t, hrun, hf⟩ := start.finishes x ((Nat.zero_add _).trans_lt hlt)
  exact ⟨_, n, t, exec_started (i := .b91enc) hb (by rw [hx.1]; exact hl) rfl, by omega, hrun, hf⟩

end Sys2Proof.Machine
end

section
/-! PROOFS. B91DEC by itself (R128 to R132). -/

namespace Sys2Proof.Machine

/-! ## The frame-level function, one equation per case of R132 -/

theorem decodeFrom_unknown {p : Params} {c : Byte} (h : entryValid (decRom p c) = false) (rest : List Byte)
    (b n : Nat) (pending : Option Nat) : decodeFrom p (c :: rest) b n pending = decodeFrom p rest b n pending := by
  rw [decodeFrom.eq_def]; simp [h]

theorem decodeFrom_first {p : Params} {c : Byte} (h : entryValid (decRom p c) = true) (rest : List Byte)
    (b n : Nat) :
    decodeFrom p (c :: rest) b n none = decodeFrom p rest b n (some (entryValue (decRom p c)).toNat) := by
  rw [decodeFrom.eq_def]; simp [h]

theorem decodeFrom_second {p : Params} {c : Byte} (h : entryValid (decRom p c) = true) (rest : List Byte)
    (b n u v : Nat) (hv : v = u + 91 * (entryValue (decRom p c)).toNat) :
    decodeFrom p (c :: rest) b n (some u) =
      (flushLoop (n + gsel v) (b ||| (v <<< n)) (n + gsel v)).1 ++
        decodeFrom p rest (flushLoop (n + gsel v) (b ||| (v <<< n)) (n + gsel v)).2.1
          (flushLoop (n + gsel v) (b ||| (v <<< n)) (n + gsel v)).2.2 none := by
  subst hv
  rw [decodeFrom.eq_def]; simp [h]

theorem flushLoop_of_le (fuel b : Nat) {n : Nat} (h : n ≤ 7) : flushLoop fuel b n = ([], b, n) := by
  cases fuel with
  | zero => rfl
  | succ fuel => rw [flushLoop, if_neg (by omega)]

theorem flushLoop_succ (fuel b : Nat) {n : Nat} (h : 7 < n) :
    flushLoop (fuel + 1) b n =
      (BitVec.ofNat 8 (lowBits 8 b) :: (flushLoop fuel (b >>> 8) (n - 8)).1,
        (flushLoop fuel (b >>> 8) (n - 8)).2) := by
  rw [flushLoop, if_pos h]

/-! ## The decoder's steps (R128 to R130) -/

/-- The buffered first half of a pair, if there is one (R28). -/
def State.pending (s : State) : Option Nat := if s.pvValid then some s.pv.toNat else none

theorem pending_of_pvValid {s : State} (h : s.pvValid = true) : s.pending = some s.pv.toNat :=
  if_pos h

theorem pending_of_not_pvValid {s : State} (h : s.pvValid = false) : s.pending = none :=
  if_neg (by simp [h])

/-- B91DEC in the middle of its frame, with at most `bound` bits in the accumulator (R116, R135). -/
structure State.Decoding (s : State) (q : Seq) (bound : Nat) (rest done : List Byte) (old : State) : Prop where
  mid : s.Midway q rest done old
  acc : s.AccBounded bound
  room : s.DecoderRoom
  digit : s.pv.toNat ≤ 90

/-- The configuration and the accumulator are the same in both states. -/
def State.SameBits (s t : State) : Prop :=
  t.cfg = s.cfg ∧ t.accB.toNat = s.accB.toNat ∧ t.accN.toNat = s.accN.toNat

/-- BD_SYMBOL reads the next symbol and takes its table entry. -/
theorem State.Decoding.takes {s old : State} {b : Byte} {rest done : List Byte}
    (h : s.Decoding .bdSymbol 7 (b :: rest) done old) :
    coreStep s = .next (takeSymbol (decRom s.cfg.toParams b) { s with i := s.i + 1 }) ∧
      (s.i + 1).toNat = s.i.toNat + 1 ∧
      State.Midway { s with i := s.i + 1 } .bdSymbol rest done old := by
  obtain ⟨⟨hq, ht, hr, hp⟩, -, -, -⟩ := h
  obtain ⟨hi, hi', hb⟩ := hr.head
  have hlast := s.inLen.isLt
  exact ⟨(coreStep_bdSymbol hq).trans
    (bdSymbol_eq_next.2 (.inl ⟨hi, hi', b, s.draws, by rw [hb]; rfl, rfl⟩)),
    toNat_add_ofNat s.i 1 (by omega), hq, ht, hr.tail rfl rfl rfl, ⟨hp.count, hp.output⟩⟩

/-- An unknown symbol is skipped. -/
theorem State.Decoding.skip {s old : State} {b : Byte} {rest done : List Byte}
    (h : s.Decoding .bdSymbol 7 (b :: rest) done old) (hv : entryValid (decRom s.cfg.toParams b) = false) :
    ∃ t, coreStep s = .next t ∧ s.SameBits t ∧ t.Decoding .bdSymbol 7 rest done old ∧
      t.pending = s.pending ∧ t.pvValid = s.pvValid := by
  obtain ⟨hc, hi, hm⟩ := h.takes
  rw [takeSymbol, hv] at hc
  have hroom := h.room
  unfold State.DecoderRoom at hroom
  have hroom' : 8 * s.o.toNat + s.accN.toNat + 7 * s.pvValid.toNat ≤ 7 * (s.i + 1).toNat := by omega
  exact ⟨_, hc, ⟨rfl, rfl, rfl⟩, ⟨hm, h.acc, hroom', h.digit⟩, rfl, rfl⟩

/-- The first half of a pair is buffered. -/
theorem State.Decoding.buffer {s old : State} {b : Byte} {rest done : List Byte}
    (h : s.Decoding .bdSymbol 7 (b :: rest) done old) (hv : entryValid (decRom s.cfg.toParams b) = true)
    (hp : s.pvValid = false) :
    ∃ t, coreStep s = .next t ∧ s.SameBits t ∧ t.Decoding .bdSymbol 7 rest done old ∧
      t.pending = some (entryValue (decRom s.cfg.toParams b)).toNat ∧ t.pvValid = true := by
  obtain ⟨hc, hi, ⟨hq, ht, hr, hd⟩⟩ := h.takes
  rw [takeSymbol, if_pos hv, if_neg (by simp [hp])] at hc
  have hroom := h.room
  unfold State.DecoderRoom at hroom
  have hroom' : 8 * s.o.toNat + s.accN.toNat + 7 * true.toNat ≤ 7 * (s.i + 1).toNat := by
    simp only [hp, Bool.toNat_false, Bool.toNat_true] at hroom ⊢; omega
  exact ⟨_, hc, ⟨rfl, rfl, rfl⟩, ⟨⟨hq, ht, ⟨hr.stop, hr.fits, hr.bytes⟩, ⟨hd.count, hd.output⟩⟩, h.acc,
    hroom', entryValue_decRom_le s.cfg b hv⟩, rfl, rfl⟩

/-- The second half of a pair is combined with the first, and its bits are pushed. -/
theorem State.Decoding.combine {s old : State} {b : Byte} {rest done : List Byte} {v : Nat}
    (h : s.Decoding .bdSymbol 7 (b :: rest) done old) (hv : entryValid (decRom s.cfg.toParams b) = true)
    (hp : s.pvValid = true) (hv' : v = s.pv.toNat + 91 * (entryValue (decRom s.cfg.toParams b)).toNat) :
    ∃ t, coreStep s = .next t ∧ t.cfg = s.cfg ∧ t.Decoding .bdFlush 21 rest done old ∧ t.pvValid = false ∧
      t.accB.toNat = s.accB.toNat ||| (v <<< s.accN.toNat) ∧ t.accN.toNat = s.accN.toNat + gsel v := by
  obtain ⟨hc, hi, ⟨hq, ht, hr, hd⟩⟩ := h.takes
  rw [takeSymbol, if_pos hv, if_pos hp, combineSymbol] at hc
  simp only [← hv'] at hc
  have hlt : v < 2 ^ gsel v := hv' ▸ pair_lt_two_pow_gsel h.digit (entryValue_decRom_le s.cfg b hv)
  have hg := gsel_cases v
  have hN : (push v (gsel v) s).accN.toNat = s.accN.toNat + gsel v :=
    push_accN_toNat (by have := h.acc.1; omega)
  have hroom := h.room
  unfold State.DecoderRoom at hroom
  have hroom' : 8 * s.o.toNat + (push v (gsel v) s).accN.toNat + 7 * false.toNat ≤ 7 * (s.i + 1).toNat := by
    simp only [hp, Bool.toNat_false, Bool.toNat_true] at hroom ⊢; omega
  exact ⟨_, hc, rfl, ⟨⟨rfl, ht, ⟨hr.stop, hr.fits, hr.bytes⟩, ⟨hd.count, hd.output⟩⟩,
    accBounded_mono (push_accBounded h.acc hlt (by omega)) (by omega), hroom', Nat.zero_le _⟩, rfl,
    push_accB_toNat h.acc hlt (by omega), hN⟩

/-- While the decoder holds any bit, the next byte it stores fits OUT_BUF (R135). -/
theorem State.Decoding.byte_fits {s old : State} {bound : Nat} {q : Seq} {rest done : List Byte}
    (h : s.Decoding q bound rest done old) (hbits : 0 < s.accN.toNat + 7 * s.pvValid.toNat) :
    s.o.toNat < s.cfg.outCap ∧ done.length + 1 < 2 ^ 32 := by
  obtain ⟨hm, -, hroom, -⟩ := h
  unfold State.DecoderRoom at hroom
  have hlt := s.cfg.inCap_lt
  have hcap := s.cfg.two_inCap_le
  have hs := hm.input.stop
  have hf := hm.input.fits
  have ho := hm.output.count
  omega

/-- BD_FLUSH stores the low byte of the accumulator. -/
theorem State.Decoding.flush {s old : State} {rest done : List Byte}
    (h : s.Decoding .bdFlush 21 rest done old) (hn : 7 < s.accN.toNat) :
    ∃ t, coreStep s = .next t ∧ t.cfg = s.cfg ∧
      t.Decoding .bdFlush 21 rest (done ++ [BitVec.ofNat 8 (lowBits 8 s.accB.toNat)]) old ∧
      t.accB.toNat = s.accB.toNat >>> 8 ∧ t.accN.toNat = s.accN.toNat - 8 ∧ t.pvValid = s.pvValid := by
  have ⟨hq, ht, hr, hp⟩ := h.mid
  obtain ⟨hout, hlt⟩ := h.byte_fits (by omega)
  have hc := (coreStep_bdFlush hq).trans (bdFlush_eq_next.2 (.inl ⟨hn, hout, rfl⟩))
  have hN := pop_accN_toNat 8 s
  have ho1 : (s.o + 1).toNat = s.o.toNat + 1 := toNat_add_ofNat s.o 1 (by rw [hp.count]; exact hlt)
  have hroom := h.room
  unfold State.DecoderRoom at hroom
  have hroom' : 8 * (s.o + 1).toNat + (pop 8 s).accN.toNat + 7 * s.pvValid.toNat ≤ 7 * s.i.toNat := by omega
  exact ⟨_, hc, rfl, ⟨⟨hq, ht, ⟨hr.stop, hr.fits, hr.bytes⟩, hp.emit rfl rfl hlt⟩,
    accBounded_mono (pop_accBounded h.acc hn) (by decide), hroom', h.digit⟩, pop_accB_toNat 8 s, hN, rfl⟩

/-- With 7 bits or fewer BD_FLUSH goes back for the next symbol. -/
theorem State.Decoding.back {s old : State} {bound : Nat} {rest done : List Byte}
    (h : s.Decoding .bdFlush bound rest done old) (hn : s.accN.toNat ≤ 7) :
    ∃ t, coreStep s = .next t ∧ s.SameBits t ∧ t.Decoding .bdSymbol 7 rest done old ∧
      t.pvValid = s.pvValid := by
  obtain ⟨⟨hq, ht, hr, hp⟩, hacc, hroom, hpv⟩ := h
  exact ⟨_, (coreStep_bdFlush hq).trans (bdFlush_eq_next.2 (.inr ⟨hn, rfl⟩)), ⟨rfl, rfl, rfl⟩,
    ⟨⟨rfl, ht, ⟨hr.stop, hr.fits, hr.bytes⟩, ⟨hp.count, hp.output⟩⟩, ⟨hn, hacc.2⟩, hroom, hpv⟩, rfl⟩

/-- From `s`, BD_FLUSH runs the loop of R132, and goes back to BD_SYMBOL with what the loop leaves. -/
def State.Flushes (s : State) (fuel : Nat) (rest done : List Byte) (old : State) : Prop :=
  ∃ k t, k ≤ s.accN.toNat / 8 + 1 ∧ Host.Core.run Sys2Proof.core k s = .next t ∧ t.cfg = s.cfg ∧
    t.Decoding .bdSymbol 7 rest (done ++ (flushLoop fuel s.accB.toNat s.accN.toNat).1) old ∧
    t.accB.toNat = (flushLoop fuel s.accB.toNat s.accN.toNat).2.1 ∧
    t.accN.toNat = (flushLoop fuel s.accB.toNat s.accN.toNat).2.2 ∧ t.pvValid = s.pvValid

theorem State.Decoding.flushes_of_le {s old : State} {rest done : List Byte} (fuel : Nat)
    (h : s.Decoding .bdFlush 21 rest done old) (hn : s.accN.toNat ≤ 7) : s.Flushes fuel rest done old := by
  obtain ⟨t, hc, ⟨hcfg, hB, hN⟩, ht, hpv⟩ := h.back hn
  rw [State.Flushes, flushLoop_of_le fuel _ hn, List.append_nil]
  exact ⟨1, t, by omega, h.mid.run_one (by decide) hc, hcfg, ht, hB, hN, hpv⟩

/-- The loop takes one step a byte, and one back for the next symbol. -/
theorem State.Decoding.flushes {old : State} {rest : List Byte} (fuel : Nat) {s : State} {done : List Byte}
    (h : s.Decoding .bdFlush 21 rest done old) (hfuel : s.accN.toNat ≤ fuel) :
    s.Flushes fuel rest done old := by
  induction fuel generalizing s done with
  | zero => exact h.flushes_of_le 0 (by omega)
  | succ fuel ih =>
    by_cases hn : 7 < s.accN.toNat
    · obtain ⟨t, hc, hcfg, ht, hB, hN, hpv⟩ := h.flush hn
      obtain ⟨k, u, hk, hrun, hcfg', hu, hB', hN', hpv'⟩ := ih ht (by omega)
      rw [hB, hN] at hu hB' hN'
      rw [State.Flushes, flushLoop_succ fuel _ hn, List.append_cons]
      exact ⟨1 + k, u, by omega, (run_add 1 k (h.mid.run_one (by decide) hc)).trans hrun, hcfg'.trans hcfg,
        hu, hB', hN', hpv'.trans hpv⟩
    · exact h.flushes_of_le (fuel + 1) (by omega)

/-- BD_TAIL stores the byte of a symbol without a partner, if one is buffered, and finishes. -/
theorem State.Decoding.tail {s old : State} {done : List Byte} (h : s.Decoding .bdTail 7 [] done old) :
    s.FinishesWithin 1
      (done ++ decodeFrom s.cfg.toParams [] s.accB.toNat s.accN.toNat s.pending) old := by
  have hm := h.mid
  have hstep := coreStep_bdTail hm.seq
  cases hp : s.pvValid with
  | false =>
    rw [pending_of_not_pvValid hp, decodeFrom, List.append_nil]
    exact hm.finishesWithin_succ (by decide) (hstep.trans (bdTail_eq_next.2 (.inr ⟨hp, rfl⟩)))
      (finishesWithin_of_finished hm.output.finished)
  | true =>
    obtain ⟨hout, hlt⟩ := h.byte_fits (by rw [hp, Bool.toNat_true]; omega)
    rw [pending_of_pvValid hp, decodeFrom]
    exact hm.finishesWithin_succ (by decide) (hstep.trans (bdTail_eq_next.2 (.inl ⟨hp, hout, rfl⟩)))
      (finishesWithin_of_finished (hm.output.emit rfl rfl hlt).finished)

/-- From BD_SYMBOL on: three steps a symbol at most, counting the flush after a pair to both its symbols; one
to the tail, and the tail. -/
theorem State.Decoding.finishes {old : State} (rest : List Byte) {s : State} {done : List Byte}
    (h : s.Decoding .bdSymbol 7 rest done old) :
    s.FinishesWithin (3 * rest.length + 2 + s.pvValid.toNat)
      (done ++ decodeFrom s.cfg.toParams rest s.accB.toNat s.accN.toNat s.pending) old := by
  induction rest generalizing s done with
  | nil =>
    have ⟨hm, hacc, hroom, hpv⟩ := h
    have ⟨hq, ht, hr, hp⟩ := hm
    have hc := (coreStep_bdSymbol hq).trans (bdSymbol_eq_next.2 (.inr ⟨hr.exhausted.ge, rfl⟩))
    have htail : State.Decoding { s with seq := .bdTail } .bdTail 7 [] done old :=
      ⟨⟨rfl, ht, ⟨hr.stop, hr.fits, hr.bytes⟩, ⟨hp.count, hp.output⟩⟩, hacc, hroom, hpv⟩
    exact finishesWithin_mono (hm.finishesWithin_succ (by decide) hc htail.tail) (by simp)
  | cons b rest ih =>
    rw [List.length_cons]
    cases hv : entryValid (decRom s.cfg.toParams b) with
    | false =>
      obtain ⟨t, hc, ⟨hcfg, hB, hN⟩, ht, hpv, hval⟩ := h.skip hv
      have hfin := ih ht
      rw [hpv, hval, hcfg, hB, hN] at hfin
      rw [decodeFrom_unknown hv]
      exact finishesWithin_mono (h.mid.finishesWithin_succ (by decide) hc hfin) (by omega)
    | true =>
      cases hp : s.pvValid with
      | false =>
        obtain ⟨t, hc, ⟨hcfg, hB, hN⟩, ht, hpv, hval⟩ := h.buffer hv hp
        have hfin := ih ht
        rw [hpv, hval, hcfg, hB, hN] at hfin
        rw [pending_of_not_pvValid hp, decodeFrom_first hv]
        exact finishesWithin_mono (h.mid.finishesWithin_succ (by decide) hc hfin) (by simp; omega)
      | true =>
        obtain ⟨t, hc, hcfg, ht, hval, hB, hN⟩ := h.combine hv hp rfl
        obtain ⟨k, u, hk, hrun, hcfg', hu, hB', hN', hval'⟩ := ht.flushes t.accN.toNat (le_refl _)
        have hn := ht.acc.1
        have hfin := ih hu
        have hval' := hval'.trans hval
        rw [pending_of_not_pvValid hval', hval', hcfg', hcfg, hB', hN', hB, hN, List.append_assoc] at hfin
        rw [pending_of_pvValid hp, decodeFrom_second hv _ _ _ _ _ rfl]
        exact finishesWithin_mono (h.mid.finishesWithin_succ (by decide) hc
          (finishesWithin_of_run (k := 3) hrun (by omega) hfin)) (by simp; omega)

/-- Settles O45: the start of B91DEC is BD_SYMBOL with an empty accumulator and nothing buffered, from where
`State.Decoding.finishes`. -/
theorem b91decRunsToCompletion : Obligations.B91decRunsToCompletion := by
  intro s x hb ht hx hl
  obtain ⟨hacc, hroom⟩ : (s.started .b91dec).AccBounded 7 ∧ (s.started .b91dec).DecoderRoom :=
    startClear_progressIn_firstSeq _ s .b91dec
  have start : (s.started .b91dec).Decoding .bdSymbol 7 x [] s :=
    ⟨⟨rfl, ht, started_remaining _ hx hl, started_produced s _⟩, hacc, hroom, Nat.zero_le _⟩
  obtain ⟨n, hn, t, hrun, hf⟩ := start.finishes x
  have hn : n ≤ 3 * x.length + 2 := hn
  exact ⟨_, n, t, exec_started (i := .b91dec) hb (by rw [hx.1]; exact hl) rfl, by omega, hrun, hf⟩

end Sys2Proof.Machine
end

section
/-! PROOFS. What the CORE computes does not depend on the host or the schedule (R51, R54, R145). -/

namespace Sys2Proof.Machine

/-! ## Two states with one CORE's side -/

/-- The CORE's side of `s` beside everything else of `h`. -/
def State.besideHostOf (s h : State) : State :=
  { s with
    hostFault := h.hostFault, instIndex := h.instIndex, draws := h.draws, rdata := h.rdata
    host := h.host, turns := h.turns }

theorem besideHostOf_eq_of_coreSide {s u : State} (h : u.coreSide = s.coreSide) : s.besideHostOf u = u :=
  (congrArg (State.besideHostOf · u) h).symm

/-- The read of a written byte takes no draw, in any state. -/
theorem byteOr_written {s : State} {m : Option Byte} {b : Byte} {d : Nat} (hm : m.isSome)
    (h : s.byteOr m = (b, { s with draws := d })) : d = s.draws ∧ ∀ u : State, u.byteOr m = (b, u) := by
  obtain ⟨c, rfl⟩ := Option.isSome_iff_exists.1 hm
  obtain rfl : c = b := congrArg Prod.fst h
  exact ⟨(congrArg (fun r => r.2.draws) h).symm, fun u => rfl⟩

theorem takeSymbol_besideHostOf (entry : Byte) (s h : State) :
    takeSymbol entry (s.besideHostOf h) = (takeSymbol entry s).besideHostOf h := by
  unfold takeSymbol
  split
  · split
    · rename_i hp
      rw [if_pos (show s.pvValid = true from hp)]; rfl
    · rename_i hp
      rw [if_neg (show ¬s.pvValid = true from hp)]; rfl
  · rfl

theorem trimDecision_besideHostOf (bounds : Option (Nat × Nat)) (s h : State) :
    trimDecision bounds (s.besideHostOf h) = (trimDecision bounds s).besideHostOf h := by
  unfold trimDecision
  split
  · rfl
  · split_ifs <;> rfl

/-- HD_TRIM of a written frame computes its bounds from the CORE's side alone. -/
theorem hdTrim_besideHostOf {s s' h : State} (hw : s.FrameWritten) (hc : hdTrim s = .next s') :
    hdTrim (s.besideHostOf h) = .next (s'.besideHostOf h) := by
  have hl := hdTrim_inCap hc
  obtain ⟨v, d, -, hv, -, hd, ht⟩ := hdTrim_spec hl
  obtain ⟨v', d', -, hv', -, hd', ht'⟩ := hdTrim_spec (s := s.besideHostOf h) hl
  obtain rfl := hd hw
  obtain rfl := hd' hw
  cases hc.symm.trans ht
  have hb : scanBounds s.cfg.toParams v' s.inLen.toNat 0 none = scanBounds s.cfg.toParams v s.inLen.toNat 0 none :=
    scanBounds_congr _ _ _ _ fun j _ hj => by
      obtain ⟨b, hr⟩ := Option.isSome_iff_exists.1 (hw j (by omega))
      rw [hv j (by omega) b hr, hv' j (by omega : j < s.inLen.toNat) b hr]
  rw [ht']
  refine congrArg Host.Outcome.next (Eq.trans ?_ (trimDecision_besideHostOf _ s h))
  exact congrArg (trimDecision · (s.besideHostOf h)) hb

/-- A CORE step on a written frame does the same beside any host. -/
theorem coreStep_besideHostOf {s s' : State} (h : State) (hs : s.Inv) (hw : s.FrameWritten)
    (hc : coreStep s = .next s') : coreStep (s.besideHostOf h) = .next (s'.besideHostOf h) := by
  cases hq : s.seq with
  | idle =>
    rw [coreStep_idle hq] at hc; cases hc
    exact coreStep_idle (s := s.besideHostOf h) hq
  | heByte =>
    rw [coreStep_heByte hq, heByte_eq_next] at hc
    rw [coreStep_heByte (s := s.besideHostOf h) hq, heByte_eq_next]
    obtain ⟨hi, hi', ho, b, d, hb, rfl⟩ | ⟨hi, rfl⟩ := hc
    · obtain ⟨rfl, hu⟩ := byteOr_written (hw _ hi) hb
      exact .inl ⟨hi, hi', ho, b, h.draws, hu _, rfl⟩
    · exact .inr ⟨hi, rfl⟩
  | hdTrim =>
    rw [coreStep_hdTrim hq] at hc
    exact (coreStep_hdTrim (s := s.besideHostOf h) hq).trans (hdTrim_besideHostOf hw hc)
  | hdPair =>
    obtain ⟨-, hE, heven, -⟩ : s.i.toNat ≤ s.trimE.toNat ∧ s.trimE.toNat ≤ s.inLen.toNat ∧
      (s.trimE.toNat - s.i.toNat) % 2 = 0 ∧ 2 * s.o.toNat ≤ s.i.toNat := hs.progressIn hq
    rw [coreStep_hdPair hq, hdPair_eq_next] at hc
    rw [coreStep_hdPair (s := s.besideHostOf h) hq, hdPair_eq_next]
    obtain ⟨hi, hi', ho, b, d, c, e, hb, hc, rfl⟩ | ⟨hi, rfl⟩ := hc
    · obtain ⟨rfl, hu⟩ := byteOr_written (hw _ (by omega)) hb
      obtain ⟨rfl, hv⟩ := byteOr_written (hw _ (by omega)) hc
      exact .inl ⟨hi, hi', ho, b, h.draws, c, h.draws, hu _, hv _, rfl⟩
    · exact .inr ⟨hi, rfl⟩
  | beConsume =>
    rw [coreStep_beConsume hq, beConsume_eq_next] at hc
    rw [coreStep_beConsume (s := s.besideHostOf h) hq, beConsume_eq_next]
    obtain ⟨hi, hi', b, d, hb, rfl⟩ | ⟨hi, rfl⟩ := hc
    · obtain ⟨rfl, hu⟩ := byteOr_written (hw _ hi) hb
      exact .inl ⟨hi, hi', b, h.draws, hu _, rfl⟩
    · exact .inr ⟨hi, rfl⟩
  | beGroup =>
    rw [coreStep_beGroup hq, beGroup_eq_next] at hc
    rw [coreStep_beGroup (s := s.besideHostOf h) hq, beGroup_eq_next]
    obtain ⟨hn, ho, x, y, hx, hy, rfl⟩ | ⟨hn, rfl⟩ := hc
    · exact .inl ⟨hn, ho, x, y, hx, hy, rfl⟩
    · exact .inr ⟨hn, rfl⟩
  | beTail =>
    rw [coreStep_beTail hq, beTail_eq_next] at hc
    rw [coreStep_beTail (s := s.besideHostOf h) hq, beTail_eq_next]
    obtain ⟨hn, rfl⟩ | ⟨hn, ho, x, hx, ⟨h2, rfl⟩ | ⟨h2, ho', y, hy, rfl⟩⟩ := hc
    · exact .inl ⟨hn, rfl⟩
    · exact .inr ⟨hn, ho, x, hx, .inl ⟨h2, rfl⟩⟩
    · exact .inr ⟨hn, ho, x, hx, .inr ⟨h2, ho', y, hy, rfl⟩⟩
  | bdSymbol =>
    rw [coreStep_bdSymbol hq, bdSymbol_eq_next] at hc
    rw [coreStep_bdSymbol (s := s.besideHostOf h) hq, bdSymbol_eq_next]
    obtain ⟨hi, hi', b, d, hb, rfl⟩ | ⟨hi, rfl⟩ := hc
    · obtain ⟨rfl, hu⟩ := byteOr_written (hw _ hi) hb
      exact .inl ⟨hi, hi', b, h.draws, hu _,
        (takeSymbol_besideHostOf (decRom s.cfg.toParams b) { s with i := s.i + 1 } h).symm⟩
    · exact .inr ⟨hi, rfl⟩
  | bdFlush =>
    rw [coreStep_bdFlush hq, bdFlush_eq_next] at hc
    rw [coreStep_bdFlush (s := s.besideHostOf h) hq, bdFlush_eq_next]
    obtain ⟨hn, ho, rfl⟩ | ⟨hn, rfl⟩ := hc
    · exact .inl ⟨hn, ho, rfl⟩
    · exact .inr ⟨hn, rfl⟩
  | bdTail =>
    rw [coreStep_bdTail hq, bdTail_eq_next] at hc
    rw [coreStep_bdTail (s := s.besideHostOf h) hq, bdTail_eq_next]
    obtain ⟨hp, ho, rfl⟩ | ⟨hp, rfl⟩ := hc
    · exact .inl ⟨hp, ho, rfl⟩
    · exact .inr ⟨hp, rfl⟩

theorem frameWritten_of_eq {s t : State} (hl : t.inLen = s.inLen) (hb : t.inBuf = s.inBuf)
    (hw : s.FrameWritten) : t.FrameWritten := by
  intro k hk
  rw [hl] at hk
  rw [hb]
  exact hw k hk

theorem frameWritten_of_coreStep {s t : State} (h : coreStep s = .next t) (hw : s.FrameWritten) :
    t.FrameWritten :=
  frameWritten_of_eq (congrArg State.inLen (coreStep_untouched h) :)
    (congrArg State.inBuf (coreStep_untouched h) :) hw

theorem frameWritten_of_coreSide_eq {s t : State} (h : t.coreSide = s.coreSide) (hw : s.FrameWritten) :
    t.FrameWritten :=
  frameWritten_of_eq (congrArg State.inLen h :) (congrArg State.inBuf h :) hw

/-! ## No move of the host adds a reset to its program -/

theorem transact_host {x : Transaction} {s t : State} (h : transact x s = .next t) : t.host = s.host := by
  unfold transact at h
  split_ifs at h
  · obtain ⟨r, rfl⟩ | ⟨hb, -, -, hc⟩ | ⟨-, -, -, rfl⟩ | ⟨-, -, -, rfl⟩ | rfl := hostWrite_cases h
    · rfl
    · obtain ⟨c, e, -, rfl⟩ | ⟨i, -, -, rfl⟩ := writeCmd_cases hb hc <;> rfl
    · rfl
    · rfl
    · rfl
  · cases h
    exact (hostRead_host_turns x s).1

theorem hostMove_adds_no_reset {s t : State} (h : hostMove s = .next t) (hr : HostOp.reset ∉ s.host) :
    HostOp.reset ∉ t.host := by
  have rest_of : ∀ {op rest}, s.host = op :: rest → HostOp.reset ∉ rest :=
    fun hx hm => hr (hx ▸ List.mem_cons_of_mem _ hm)
  unfold hostMove at h
  split at h
  · cases h; exact hr
  · rename_i hx
    rw [transact_host h]; exact rest_of hx
  · rename_i hx
    cases h; exact rest_of hx
  · rename_i hx
    cases h
    unfold pollOnce
    split_ifs
    · exact rest_of hx
    · rw [(hostRead_host_turns statusRead s).1]; exact hr
  · rename_i hx
    cases h
    simpa [readout] using rest_of hx

/-! ## A run beside a host and the run alone -/

theorem core_run_succ_eq_next (M : Host.Core) {n : Nat} {s t : M.State} (h : M.run (n + 1) s = .next t) :
    ∃ u, M.step s = .next u ∧ M.run n u = .next t := by
  cases e : M.step s with
  | next u => exact ⟨u, rfl, (core_run_succ M n e).symm.trans h⟩
  | fault r => rw [Host.Core.run, e] at h; cases h
  | refused r => rw [Host.Core.run, e] at h; cases h

/-- A run of one step or more answers only if its first step does. -/
theorem run_succ_eq_next {n : Nat} {s t : State} (h : Host.Core.run Sys2Proof.core (n + 1) s = .next t) :
    ∃ u, step s = .next u ∧ Host.Core.run Sys2Proof.core n u = .next t :=
  core_run_succ_eq_next Sys2Proof.core h

/-- The run of a command beside a host without a reset is on the CORE's side the run alone, for as many steps
as are the CORE's. -/
theorem run_alone_of_run {n : Nat} {s t u : State} (hs : s.Inv) (hw : s.FrameWritten)
    (hr : HostOp.reset ∉ s.host) (hu : u.coreSide = s.coreSide) (ht : u.turns = [])
    (hrun : ∀ m v, m < n → Host.Core.run Sys2Proof.core m s = .next v → v.seq ≠ .idle)
    (h : Host.Core.run Sys2Proof.core n s = .next t) :
    ∃ k v, k ≤ n ∧ Host.Core.run Sys2Proof.core k u = .next v ∧ t.coreSide = v.coreSide := by
  induction n generalizing s u with
  | zero => cases h; exact ⟨0, u, le_refl 0, rfl, hu.symm⟩
  | succ n ih =>
    have hq : s.seq ≠ .idle := hrun 0 s (Nat.succ_pos n) rfl
    obtain ⟨s', hstep, h'⟩ := run_succ_eq_next h
    have hs' : s'.Inv := stepKeepsInvariant s s' hs hstep
    have hrun' : ∀ m v, m < n → Host.Core.run Sys2Proof.core m s' = .next v → v.seq ≠ .idle :=
      fun m v hm hv => hrun (m + 1) v (Nat.succ_lt_succ hm) ((run_succ m hstep).trans hv)
    have hn : s.nextTurn.Inv := inv_of_coreSide_eq (s := s) rfl hs
    obtain hc | hm := step_cases hstep
    · have hu' := coreStep_besideHostOf u hn hw hc
      rw [besideHostOf_eq_of_coreSide (s := s.nextTurn) hu] at hu'
      have hq' : u.seq ≠ .idle := (congrArg State.seq hu :).symm ▸ hq
      have hhost : s'.host = s.host := (congrArg State.host (coreStep_untouched hc) :)
      obtain ⟨k, v, hk, hv, he⟩ := ih hs' (frameWritten_of_coreStep hc hw) (hhost ▸ hr)
        (u := s'.besideHostOf u) rfl ht hrun' h'
      exact ⟨k + 1, v, Nat.succ_le_succ hk, (run_succ k ((step_of_running hq' ht).trans hu')).trans hv, he⟩
    · have hside : s'.coreSide = s.coreSide := by
        obtain ⟨he, -⟩ | ⟨rest, hx, -⟩ | ⟨x, rest, -, hb, -⟩ := hostMove_cases hm
        · exact he
        · exact absurd (hx ▸ List.mem_cons_self) hr
        · exact absurd (hb.symm.trans (hs.busy_iff.2 hq)) (by decide)
      obtain ⟨k, v, hk, hv, he⟩ := ih hs' (frameWritten_of_coreSide_eq hside hw)
        (hostMove_adds_no_reset (s := s.nextTurn) hm hr) (hu.trans hside.symm) ht hrun' h'
      exact ⟨k, v, Nat.le_succ_of_le hk, hv, he⟩

/-- Settles O56: `run_alone_of_run` of the same state without its schedule. -/
theorem scheduleCannotChangeTheResult : Obligations.ScheduleCannotChangeTheResult :=
  fun _ s _ hs _ hw hr hrun h => run_alone_of_run (u := { s with turns := [] }) hs hw hr rfl rfl hrun h

end Sys2Proof.Machine
end

section
/-! PROOFS. What the start of a command, a CORE step and a step of one CORE of a system leave unchanged. -/

namespace Sys2Proof.Machine

/-! ## The start step (R77 to R80) -/

/-- Everything a command's start step can do: record WRITE_WHILE_BUSY, finish with an error, or enter the
command's first STATE. -/
theorem exec_cases {i : Instr} {s t : State} (h : exec i s = .next t) :
    (s.busy = true ∧ t = raiseHostFault .writeWhileBusy s) ∨
    (s.busy = false ∧ ((∃ e, t = finish e (startClear (encode i) s)) ∨ t = s.started i)) := by
  rw [exec_eq_startCommand] at h
  cases h
  obtain ⟨hb, he⟩ | ⟨hb, -, he⟩ | ⟨hb, -, he⟩ := startCommand_cases (encode i) (dispatch i) s <;> rw [he]
  · exact .inl ⟨hb, rfl⟩
  · exact .inr ⟨hb, .inl ⟨_, rfl⟩⟩
  · obtain hd | hd := dispatch_cases i (startClear (encode i) s) <;> rw [hd]
    · exact .inr ⟨hb, .inl ⟨_, rfl⟩⟩
    · exact .inr ⟨hb, .inr rfl⟩

/-- Settles O9: the refused start changes HOSTFAULT alone, and the other two outcomes registers alone. -/
theorem startFrame : Obligations.StartFrame := by
  intro i s t h
  have idle : ∀ r, s.busy = false →
      s.hostFault.has r = (s.hostFault.has r || (s.busy && r == .writeWhileBusy)) :=
    fun r hb => by simp [hb]
  obtain ⟨hb, rfl⟩ | ⟨hb, hstart⟩ := exec_cases h
  · refine ⟨rfl, rfl, fun _ => rfl, fun _ => rfl, rfl, rfl, rfl, rfl, rfl, fun r => ?_, fun _ =>
      ⟨rfl, rfl, rfl, rfl, rfl, rfl, rfl, rfl, rfl, rfl, rfl⟩⟩
    rw [hb, Bool.true_and, raiseHostFault_hostFault, FaultSet.has_add]
  · obtain ⟨e, rfl⟩ | rfl := hstart <;>
      exact ⟨rfl, rfl, fun _ => rfl, fun _ => rfl, rfl, rfl, rfl, rfl, rfl, fun r => idle r hb,
        fun hb' => absurd (hb.symm.trans hb') (by decide)⟩

/-! ## What a CORE step stores (R62) -/

/-- `m'` is `m` with bytes stored at exactly the addresses of `l`. -/
def Memory.StoredAt (m m' : Memory) (l : List Nat) : Prop :=
  (∀ a, a ∉ l → m'.read a = m.read a) ∧ ∀ a, a ∈ l → (m'.read a).isSome

theorem Memory.storedAt_nil (m : Memory) : m.StoredAt m [] :=
  ⟨fun _ _ => rfl, fun _ h => absurd h List.not_mem_nil⟩

theorem Memory.StoredAt.write {m m' : Memory} {l : List Nat} (h : m.StoredAt m' l) (k : Nat) (v : Byte) :
    m.StoredAt (m'.write k v) (l ++ [k]) := by
  obtain ⟨hout, hin⟩ := h
  refine ⟨fun a ha => ?_, fun a ha => ?_⟩
  · simp only [List.mem_append, List.mem_singleton, not_or] at ha
    rw [Memory.read_write_other _ _ ha.2, hout a ha.1]
  · rw [Memory.read_write]
    split_ifs with hk
    · rfl
    · exact hin a (by simpa [hk] using ha)

theorem trimDecision_outBuf (bounds : Option (Nat × Nat)) (s : State) :
    (trimDecision bounds s).outBuf = s.outBuf := by
  unfold trimDecision
  split
  · rfl
  · split_ifs <;> rfl

theorem takeSymbol_outBuf (entry : Byte) (s : State) : (takeSymbol entry s).outBuf = s.outBuf := by
  obtain h | ⟨-, -, h⟩ | ⟨-, -, h⟩ := takeSymbol_cases entry s <;> rw [h] <;> rfl

/-- A CORE step stores at exactly the addresses that `storesAt` computes. -/
theorem coreStep_storedAt {s t : State} (h : coreStep s = .next t) :
    s.outBuf.StoredAt t.outBuf s.storesAt := by
  have hnil := s.outBuf.storedAt_nil
  unfold State.storesAt
  cases hq : s.seq with
  | idle => rw [coreStep_idle hq] at h; cases h; exact hnil
  | heByte =>
    rw [coreStep_heByte hq, heByte_eq_next] at h
    simp only [State.moreInput, decide_eq_true_eq]
    obtain ⟨hi, -, -, b, d, -, rfl⟩ | ⟨hi, rfl⟩ := h
    · rw [if_pos hi]; exact (hnil.write _ _).write _ _
    · rw [if_neg (Nat.not_lt.2 hi)]; exact hnil
  | hdTrim =>
    rw [coreStep_hdTrim hq] at h
    obtain ⟨v, d, -, -, -, -, ht⟩ := hdTrim_spec (hdTrim_inCap h)
    cases h.symm.trans ht
    rw [trimDecision_outBuf]; exact hnil
  | hdPair =>
    rw [coreStep_hdPair hq, hdPair_eq_next] at h
    simp only
    obtain ⟨hi, -, -, _, _, _, _, -, -, rfl⟩ | ⟨hi, rfl⟩ := h
    · rw [if_pos hi]; exact hnil.write _ _
    · rw [if_neg (Nat.not_lt.2 hi)]; exact hnil
  | beConsume =>
    rw [coreStep_beConsume hq, beConsume_eq_next] at h
    obtain ⟨-, -, _, _, -, rfl⟩ | ⟨-, rfl⟩ := h <;> exact hnil
  | beGroup =>
    rw [coreStep_beGroup hq, beGroup_eq_next] at h
    simp only
    obtain ⟨hn, -, _, _, -, -, rfl⟩ | ⟨hn, rfl⟩ := h
    · rw [if_pos hn]; exact (hnil.write _ _).write _ _
    · rw [if_neg (Nat.not_lt.2 hn)]; exact hnil
  | beTail =>
    rw [coreStep_beTail hq, beTail_eq_next] at h
    simp only
    obtain ⟨hn, rfl⟩ | ⟨hn, -, _, -, ⟨h2, rfl⟩ | ⟨h2, -, _, -, rfl⟩⟩ := h
    · rw [if_pos hn]; exact hnil
    · rw [if_neg hn, if_neg h2]; exact hnil.write _ _
    · rw [if_neg hn, if_pos h2]; exact (hnil.write _ _).write _ _
  | bdSymbol =>
    rw [coreStep_bdSymbol hq, bdSymbol_eq_next] at h
    obtain ⟨-, -, _, _, -, rfl⟩ | ⟨-, rfl⟩ := h
    · rw [takeSymbol_outBuf]; exact hnil
    · exact hnil
  | bdFlush =>
    rw [coreStep_bdFlush hq, bdFlush_eq_next] at h
    simp only
    obtain ⟨hn, -, rfl⟩ | ⟨hn, rfl⟩ := h
    · rw [if_pos hn]; exact hnil.write _ _
    · rw [if_neg (Nat.not_lt.2 hn)]; exact hnil
  | bdTail =>
    rw [coreStep_bdTail hq, bdTail_eq_next] at h
    simp only
    obtain ⟨hp, -, rfl⟩ | ⟨hp, rfl⟩ := h
    · rw [if_pos hp]; exact hnil.write _ _
    · rw [if_neg (by simp [hp])]; exact hnil

/-- Settles O20: `coreStep_untouched` for what no CORE step touches, `coreStep_storedAt` for OUT_BUF. -/
theorem coreStepFrame : Obligations.CoreStepFrame := by
  intro s t h
  have hu := coreStep_untouched h
  exact ⟨(congrArg State.cfg hu :), (congrArg State.cmd hu :), (congrArg State.inLen hu :),
    (congrArg State.hostFault hu :), (congrArg State.instIndex hu :), (congrArg State.rdata hu :),
    (congrArg State.host hu :), (congrArg State.turns hu :), fun a => (congrArg (fun u => u.inBuf.read a) hu :),
    coreStep_storedAt h⟩

/-! ## A system of COREs (R60, R155) -/

theorem resetSystem_getElem? (c : Config) {k : Nat} (hk : k < c.nInst) :
    (resetSystem c)[k]? = some { State.resetWith c with instIndex := k } := by
  rw [resetSystem, List.getElem?_map, List.getElem?_range hk]; rfl

/-- A step of the system that answers is the step of its `k`-th CORE, whose entry it replaces. -/
theorem stepInstance_eq_next {k : Nat} {s : State} {sys sys' : List State} (hs : sys[k]? = some s)
    (h : stepInstance k sys = .next sys') : ∃ t, step s = .next t ∧ sys' = sys.set k t := by
  unfold stepInstance at h
  simp only [hs] at h
  split at h
  · rename_i t ht
    cases h; exact ⟨t, ht, rfl⟩
  · cases h
  · cases h

/-- Settles O58: the system's step replaces one entry of the list, and no step changes a CORE's number. -/
theorem instancesAreIndependent : Obligations.InstancesAreIndependent := by
  refine ⟨fun c => ⟨by simp [resetSystem], fun k hk => resetSystem_getElem? c hk⟩, fun k s sys sys' hs h => ?_⟩
  obtain ⟨t, ht, rfl⟩ := stepInstance_eq_next hs h
  obtain ⟨hk, -⟩ := List.getElem?_eq_some_iff.1 hs
  obtain ⟨-, -, hi⟩ := hostFaultOnlyGrows s t ht
  exact ⟨t, ht, hi, List.getElem?_set_self hk, List.length_set, fun j hj => List.getElem?_set_ne hj.symm⟩

end Sys2Proof.Machine
end

section
/-! PROOFS. HD_TRIM on any frame (R105), the host's reads (R87, R89), the accesses outside the map (R49), and
buffer memory (R39). -/

namespace Sys2Proof.Machine

/-! ## HD_TRIM -/

theorem isWhitespace_iff {p : Params} {b : Byte} : isWhitespace p b = true ↔ b ∈ p.whitespace := by
  rw [isWhitespace, List.contains_iff_mem]

theorem not_isWhitespace_iff {p : Params} {b : Byte} : isWhitespace p b = false ↔ b ∉ p.whitespace := by
  rw [← isWhitespace_iff, Bool.not_eq_true]

/-- Settles O12: `hdTrim_spec` for the bytes read and the draws, `scanBounds_cases` for the bounds. -/
theorem hexTrimStep : Obligations.HexTrimStep := by
  intro s hq hl
  obtain ⟨v, d, hd, hw, hn, hz, ht⟩ := hdTrim_spec hl
  refine ⟨v, d, hd, hz, hw, hn, ?_⟩
  rw [coreStep_hdTrim hq, ht]
  obtain ⟨hb, hall⟩ | ⟨S, E, hb, hSE, hE, hS, hE', hout⟩ := scanBounds_cases s.cfg.toParams v s.inLen.toNat
  · rw [hb]
    exact .inl ⟨fun k hk => isWhitespace_iff.1 (hall k hk), rfl⟩
  · rw [hb]
    exact .inr ⟨S, E, hSE, hE, not_isWhitespace_iff.1 hS, not_isWhitespace_iff.1 hE',
      fun k hk h => isWhitespace_iff.1 (hout k hk h), rfl⟩

/-! ## Registers -/

/-- A register index is one of the four, or lies outside the map (R38, R49). -/
theorem registerIndex_cases (r : BitVec 32) : r = 0 ∨ r = 1 ∨ r = 2 ∨ r = 3 ∨ 4 ≤ r.toNat := by
  bv_omega

theorem readRegister_of_le {index : Nat} (h : 4 ≤ index) (s : State) : readRegister index s = badRead s := by
  obtain ⟨k, rfl⟩ := Nat.exists_eq_add_of_le' h
  rfl

theorem writeRegister_of_le {index : Nat} (h : 4 ≤ index) (v : Word) (s : State) :
    writeRegister index v s = .next (raiseHostFault .badAddress s) := by
  obtain ⟨k, rfl⟩ := Nat.exists_eq_add_of_le' h
  rfl

theorem State.Inv.outLen_of_busy {s : State} (hs : s.Inv) (hb : s.busy = true) : s.outLen = 0 := by
  obtain ⟨-, hol, -⟩ := hs.running (hs.busy_iff.1 hb)
  exact hol

theorem transact_readOutLen (s : State) (d : Word) :
    transact { sp := .reg, write := false, addr := 3, data := d } s = .next (returnWord s.outLen s) := rfl

/-- Settles O24: the four indices, those outside the map, and OUT_LEN by the invariant. -/
theorem registerReads : Obligations.RegisterReads := by
  intro s r d
  refine ⟨?_, fun hs hb => (transact_readOutLen s d).trans
    (congrArg (fun w => Host.Outcome.next (returnWord w s)) (hs.outLen_of_busy hb))⟩
  obtain rfl | rfl | rfl | rfl | h := registerIndex_cases r
  · rfl
  · rfl
  · rfl
  · rfl
  · have hne : ∀ k : BitVec 32, k.toNat < 4 → r ≠ k := fun k hk he => by rw [he] at h; omega
    rw [if_neg (hne 0 (by decide)), if_neg (hne 1 (by decide)), if_neg (hne 2 (by decide)),
      if_neg (hne 3 (by decide))]
    exact congrArg Host.Outcome.next (readRegister_of_le h s)

/-! ## Buffers -/

/-- Settles O25: a read is outside the buffer, of a written byte, or a draw. -/
theorem bufferReads : Obligations.BufferReads := by
  intro s a d
  constructor
  · show Host.Outcome.next (readInBuf a.toNat s) = _
    unfold readInBuf
    by_cases ha : s.cfg.inCap ≤ a.toNat
    · rw [if_neg (Nat.not_lt.2 ha), if_pos ha]; rfl
    · rw [if_pos (Nat.lt_of_not_le ha), if_neg ha]
      cases s.inBuf.read a.toNat <;> rfl
  · show Host.Outcome.next (readOutBuf a.toNat s) = _
    unfold readOutBuf
    by_cases ha : s.cfg.outCap ≤ a.toNat
    · rw [if_neg (Nat.not_lt.2 ha), if_pos ha]; rfl
    · rw [if_pos (Nat.lt_of_not_le ha), if_neg ha]
      cases s.busy with
      | true => rfl
      | false => cases s.outBuf.read a.toNat <;> rfl

theorem hostWrite_of_idle {s : State} (hb : s.busy = false) (a : BitVec 32) (d : Word) :
    transact { sp := .reg, write := true, addr := a, data := d } s = writeRegister a.toNat d s ∧
    transact { sp := .inBuf, write := true, addr := a, data := d } s = .next (writeInBuf a.toNat d s) ∧
    transact { sp := .outBuf, write := true, addr := a, data := d } s = .next (raiseHostFault .badAddress s) ∧
    transact { sp := .reserved, write := true, addr := a, data := d } s =
      .next (raiseHostFault .badAddress s) := by
  simp [transact, hostWrite, hb]

/-- Settles O26: while idle each of these writes, and at any time the read, records BAD_ADDRESS. -/
theorem outOfMapAccessesOnlyRecord : Obligations.OutOfMapAccessesOnlyRecord := by
  intro s a d
  refine ⟨fun hb ha => ?_, fun hb => ?_, rfl⟩
  · obtain ⟨hreg, -⟩ := hostWrite_of_idle hb a d
    exact hreg.trans (writeRegister_of_le ha d s)
  · obtain ⟨-, -, hout, hres⟩ := hostWrite_of_idle hb a d
    exact ⟨hout, hres⟩

/-- Settles O59: the three laws of `Memory.write`. -/
theorem bufferReadAfterWrite : Obligations.BufferReadAfterWrite :=
  fun _ a v m hm ha => ⟨m.read_write_same a v, fun _ hb => m.read_write_other v hb, Memory.wf_write v hm ha⟩

end Sys2Proof.Machine
end

section
/-! PROOFS. The host protocol (R164): which transactions record a reason, the phase after a step, and what a
host that keeps the protocol can count on. -/

namespace Sys2Proof.Machine

/-! ## Which transactions record a reason (R146, R147) -/

theorem returnByte_byteOr_hostFault (m : Option Byte) (s : State) :
    (returnByte (s.byteOr m)).hostFault = s.hostFault := by
  cases m <;> rfl

theorem writeCmd_hostFault {w : Word} {s t : State} (hb : s.busy = false) (h : writeCmd w s = .next t) :
    t.hostFault = s.hostFault := by
  obtain ⟨c, e, -, rfl⟩ | ⟨i, -, -, rfl⟩ := writeCmd_cases hb h <;> rfl

/-- A mapped read records nothing. -/
theorem hostRead_hostFault {x : Transaction} {s : State} (hm : x.mapped s.cfg.toParams = true) :
    (hostRead x s).hostFault = s.hostFault := by
  unfold Transaction.mapped at hm
  unfold hostRead
  cases hsp : x.sp with
  | reg =>
    simp only [hsp, decide_eq_true_eq] at hm
    obtain h | h | h | h | h := registerIndex_cases x.addr
    · rw [h]; rfl
    · rw [h]; rfl
    · rw [h]; rfl
    · rw [h]; rfl
    · omega
  | inBuf =>
    simp only [hsp, Bool.and_eq_true, decide_eq_true_eq] at hm
    obtain ⟨ha, -⟩ := hm
    simp only [readInBuf, if_pos ha, returnByte_byteOr_hostFault]
  | outBuf =>
    simp only [hsp, Bool.and_eq_true, decide_eq_true_eq] at hm
    obtain ⟨-, ha⟩ := hm
    simp only [readOutBuf, if_pos ha]
    split
    · exact returnByte_byteOr_hostFault none s
    · exact returnByte_byteOr_hostFault _ s
  | reserved => simp [hsp] at hm

/-- A mapped write while no command runs records nothing. -/
theorem hostWrite_hostFault {x : Transaction} {s t : State} (hw : x.write = true) (hb : s.busy = false)
    (hm : x.mapped s.cfg.toParams = true) (h : hostWrite x s = .next t) : t.hostFault = s.hostFault := by
  unfold Transaction.mapped at hm
  unfold hostWrite at h
  rw [hb, if_neg Bool.false_ne_true] at h
  cases hsp : x.sp with
  | reg =>
    simp only [hsp, decide_eq_true_eq] at hm h
    obtain ha | ha | ha | ha | ha := registerIndex_cases x.addr
    · rw [ha] at h; exact writeCmd_hostFault hb h
    · rw [ha] at h; cases h; rfl
    · rw [ha] at h; cases h; rfl
    · rw [ha] at h; cases h; rfl
    · omega
  | inBuf =>
    simp only [hsp, hw, Bool.not_true, Bool.false_or, Bool.and_eq_true, decide_eq_true_eq, beq_iff_eq] at hm h
    obtain ⟨ha, hd⟩ := hm
    cases h
    rw [writeInBuf, if_pos ha, if_pos hd]
  | outBuf => simp [hsp, hw] at hm
  | reserved => simp [hsp] at hm

theorem transact_hostFault {x : Transaction} {s t : State} (hm : x.mapped s.cfg.toParams = true)
    (hb : x.write = true → s.busy = false) (h : transact x s = .next t) : t.hostFault = s.hostFault := by
  unfold transact at h
  cases hw : x.write with
  | false =>
    rw [hw, if_neg Bool.false_ne_true] at h
    cases h
    exact hostRead_hostFault hm
  | true =>
    rw [hw, if_pos rfl] at h
    exact hostWrite_hostFault hw (hb hw) hm h

/-- An unmapped read records BAD_ADDRESS. -/
theorem hostRead_unmapped {x : Transaction} {s : State} (hw : x.write = false)
    (hm : x.mapped s.cfg.toParams = false) : hostRead x s = badRead s := by
  unfold Transaction.mapped at hm
  unfold hostRead
  cases hsp : x.sp with
  | reg =>
    simp only [hsp, decide_eq_false_iff_not, Nat.not_lt] at hm
    exact readRegister_of_le hm s
  | inBuf =>
    simp only [hsp, hw, Bool.not_false, Bool.true_or, Bool.and_true, decide_eq_false_iff_not] at hm
    exact if_neg hm
  | outBuf =>
    simp only [hsp, hw, Bool.not_false, Bool.true_and, decide_eq_false_iff_not] at hm
    exact if_neg hm
  | reserved => rfl

/-- An unmapped write, and every write while a command runs, records a reason. -/
theorem hostWrite_raises {x : Transaction} {s : State} (hw : x.write = true)
    (hx : x.mapped s.cfg.toParams = false ∨ s.busy = true) :
    ∃ r, hostWrite x s = .next (raiseHostFault r s) := by
  unfold hostWrite
  cases hb : s.busy with
  | true => exact ⟨_, rfl⟩
  | false =>
    have hm := hx.resolve_right (by simp [hb])
    unfold Transaction.mapped at hm
    cases hsp : x.sp with
    | reg =>
      simp only [hsp, decide_eq_false_iff_not, Nat.not_lt] at hm
      exact ⟨_, writeRegister_of_le hm _ s⟩
    | inBuf =>
      simp only [hsp, hw, Bool.not_true, Bool.false_or, Bool.and_eq_false_iff, decide_eq_false_iff_not,
        beq_eq_false_iff_ne] at hm
      by_cases ha : x.addr.toNat < s.cfg.inCap
      · have hd := hm.resolve_left (not_not_intro ha)
        exact ⟨.badData, congrArg Host.Outcome.next ((if_pos ha).trans (if_neg hd))⟩
      · exact ⟨.badAddress, congrArg Host.Outcome.next (if_neg ha)⟩
    | outBuf => exact ⟨_, rfl⟩
    | reserved => exact ⟨_, rfl⟩

theorem transact_raises {x : Transaction} {s t : State}
    (hx : x.mapped s.cfg.toParams = false ∨ (x.write = true ∧ s.busy = true)) (h : transact x s = .next t) :
    ∃ r u, t = raiseHostFault r u := by
  unfold transact at h
  cases hw : x.write with
  | false =>
    rw [hw, if_neg Bool.false_ne_true] at h
    cases h
    exact ⟨_, _, hostRead_unmapped hw (hx.resolve_right (by simp [hw]))⟩
  | true =>
    obtain ⟨r, hr⟩ := hostWrite_raises (s := s) hw (hx.imp_right fun hwb => hwb.2)
    rw [hw, if_pos rfl, hr] at h
    cases h
    exact ⟨r, s, rfl⟩

theorem raiseHostFault_ne_empty (r : HostFault) (s : State) :
    (raiseHostFault r s).hostFault ≠ FaultSet.empty := by
  intro h
  have hr := FaultSet.has_add s.hostFault r r
  rw [← raiseHostFault_hostFault, h, FaultSet.has_empty] at hr
  simp at hr

/-! ## A step by the operation it performs -/

/-- A step performs the host's next operation, or it is a CORE step or an idle host's turn. -/
theorem step_nextOp_cases {s t : State} (h : step s = .next t) :
    (s.nextOp = none ∧ (coreStep s.nextTurn = .next t ∨ t = s.nextTurn)) ∨
    ∃ op rest, s.nextOp = some op ∧ s.host = op :: rest ∧ hostMove s.nextTurn = .next t := by
  unfold step at h
  split at h
  · rename_i hm
    exact .inl ⟨nextOp_of_core hm, .inl h⟩
  · rename_i hm
    have hop := nextOp_of_host hm
    cases hh : s.host with
    | nil =>
      unfold hostMove at h
      rw [nextTurn_host, hh] at h
      cases h
      exact .inl ⟨by rw [hop, hh]; rfl, .inr rfl⟩
    | cons op rest => exact .inr ⟨op, rest, by rw [hop, hh]; rfl, rfl, h⟩

theorem hostMove_tx {s : State} {x : Transaction} {rest : List HostOp} (h : s.host = .tx x :: rest) :
    hostMove s = transact x { s with host := rest } := by
  unfold hostMove; rw [h]

theorem hostMove_poll {s : State} {rest : List HostOp} (h : s.host = .poll :: rest) :
    hostMove s = .next (pollOnce rest s) := by
  unfold hostMove; rw [h]

theorem hostMove_readout {s : State} {rest : List HostOp} (h : s.host = .readout :: rest) :
    hostMove s = .next (readout rest s) := by
  unfold hostMove; rw [h]

theorem pollOnce_status_hostFault (rest : List HostOp) (s : State) :
    (pollOnce rest s).status = s.status ∧ (pollOnce rest s).hostFault = s.hostFault := by
  unfold pollOnce
  split_ifs <;> exact ⟨rfl, rfl⟩

theorem transact_status {x : Transaction} {s t : State} (hx : x.writesCmd = false)
    (h : transact x s = .next t) : t.status = s.status := by
  unfold transact at h
  split_ifs at h with hw
  · obtain ⟨r, rfl⟩ | ⟨-, hsp, ha, -⟩ | ⟨-, -, -, rfl⟩ | ⟨-, -, -, rfl⟩ | rfl := hostWrite_cases h
    · rfl
    · simp [Transaction.writesCmd, hw, hsp, ha] at hx
    · rfl
    · rfl
    · rfl
  · cases h
    exact (congrArg State.status (hostRead_coreSide x s) :)

/-! ## The phase after a step (R164) -/

/-- Everything a step can do to STATUS and to the phase. -/
theorem step_phase_cases {s t : State} (p : HostPhase) (hs : s.Inv) (h : step s = .next t) :
    s.phaseAfter p = .waiting ∨
    (t.status = s.status ∧
      (s.phaseAfter p = p ∨ (s.phaseAfter p = .ready ∧ statusDone s.status = true))) ∨
    (t.status = 0 ∧ s.phaseAfter p = .noCommand) ∨
    (s.busy = true ∧ s.phaseAfter p = p) := by
  obtain ⟨hop, hc | rfl⟩ | ⟨op, rest, hop, hhost, hm⟩ := step_nextOp_cases h
  · have hp := phaseAfter_none p hop
    cases hb : s.busy with
    | true => exact .inr (.inr (.inr ⟨rfl, hp⟩))
    | false =>
      rw [coreStep_idle (s := s.nextTurn) (hs.seq_eq_idle hb)] at hc
      cases hc
      exact .inr (.inl ⟨rfl, .inl hp⟩)
  · exact .inr (.inl ⟨rfl, .inl (phaseAfter_none p hop)⟩)
  · cases op with
    | tx x =>
      rw [hostMove_tx (s := s.nextTurn) hhost] at hm
      cases hx : x.writesCmd with
      | true => exact .inl (phaseAfter_cmdWrite p hop hx)
      | false =>
        refine .inr (.inl ⟨transact_status (s := { s.nextTurn with host := rest }) hx hm, ?_⟩)
        rw [phaseAfter_tx p hop hx]
        split_ifs with hd
        · exact .inr ⟨rfl, (Bool.and_eq_true_iff.1 hd).2⟩
        · exact .inl rfl
    | reset =>
      rw [hostMove_reset (s := s.nextTurn) hhost] at hm
      cases hm
      exact .inr (.inr (.inl ⟨rfl, phaseAfter_reset p hop⟩))
    | poll =>
      rw [hostMove_poll (s := s.nextTurn) hhost] at hm
      cases hm
      refine .inr (.inl ⟨(pollOnce_status_hostFault rest s.nextTurn).1, ?_⟩)
      rw [phaseAfter_poll p hop]
      split_ifs with hd
      · exact .inr ⟨rfl, hd⟩
      · exact .inl rfl
    | readout =>
      rw [hostMove_readout (s := s.nextTurn) hhost] at hm
      cases hm
      exact .inr (.inl ⟨rfl, .inl (phaseAfter_readout p hop)⟩)

theorem State.Inv.not_done_of_busy {s : State} (hs : s.Inv) (hb : s.busy = true) :
    statusDone s.status = false := by
  obtain ⟨hst, -⟩ := hs.running (hs.busy_iff.1 hb)
  rw [hst, statusDone_busyStatus]

/-- While a command runs the phase is waiting. -/
theorem waiting_of_busy_after_step {s t : State} {p : HostPhase} (hs : s.Inv)
    (hp : s.busy = true → p = .waiting) (h : step s = .next t) (hb : t.busy = true) :
    s.phaseAfter p = .waiting := by
  obtain hq | ⟨hst, hq⟩ | ⟨hst, -⟩ | ⟨hb', hq⟩ := step_phase_cases p hs h
  · exact hq
  · have hb' : s.busy = true := (congrArg statusBusy hst).symm.trans hb
    obtain hq | ⟨-, hd⟩ := hq
    · exact hq.trans (hp hb')
    · exact absurd ((hs.not_done_of_busy hb').symm.trans hd) (by decide)
  · rw [State.busy, hst] at hb
    exact absurd hb (by decide)
  · exact hq.trans (hp hb')

/-- In the phase ready, DONE = 1. -/
theorem done_of_ready_after_step {s t : State} {p : HostPhase} (hs : s.Inv)
    (hp : s.busy = true → p = .waiting) (hd : p = .ready → statusDone s.status = true)
    (h : step s = .next t) (hr : s.phaseAfter p = .ready) : statusDone t.status = true := by
  obtain hq | ⟨hst, hq⟩ | ⟨-, hq⟩ | ⟨hb, hq⟩ := step_phase_cases p hs h
  · cases hq.symm.trans hr
  · rw [hst]
    obtain hq | ⟨-, hd'⟩ := hq
    · exact hd (hq.symm.trans hr)
    · exact hd'
  · cases hq.symm.trans hr
  · cases (hq.trans (hp hb)).symm.trans hr

/-! ## Runs of a host that keeps a rule -/

theorem keeps_head {R : HostPhase → State → Bool} {n : Nat} {p : HostPhase} {s : State}
    (h : State.keeps R (n + 1) p s = true) : R p s = true := by
  rw [State.keeps, Bool.and_eq_true] at h
  exact h.1

theorem keeps_tail {R : HostPhase → State → Bool} {n : Nat} {p : HostPhase} {s t : State}
    (h : State.keeps R (n + 1) p s = true) (ht : step s = .next t) :
    State.keeps R n (s.phaseAfter p) t = true := by
  rw [State.keeps, Bool.and_eq_true, ht] at h
  exact h.2

theorem keeps_mono {R Q : HostPhase → State → Bool} (hRQ : ∀ p s, R p s = true → Q p s = true) {n : Nat}
    {p : HostPhase} {s : State} (h : State.keeps R n p s = true) : State.keeps Q n p s = true := by
  induction n generalizing p s with
  | zero => rfl
  | succ n ih =>
    have htail := fun t => keeps_tail (t := t) h
    rw [State.keeps, Bool.and_eq_true]
    refine ⟨hRQ p s (keeps_head h), ?_⟩
    cases hs : step s with
    | next t => exact ih (htail t hs)
    | fault r => rfl
    | refused r => rfl

/-- A step of a host that keeps P1 and P3 records nothing. -/
theorem step_hostFault {s t : State} {p : HostPhase} (hp : s.busy = true → p = .waiting)
    (h1 : keepsP1 p s = true) (h3 : keepsP3 p s = true) (h : step s = .next t) :
    t.hostFault = s.hostFault := by
  obtain ⟨-, hc | rfl⟩ | ⟨op, rest, hop, hhost, hm⟩ := step_nextOp_cases h
  · exact (congrArg State.hostFault (coreStep_untouched hc) :)
  · rfl
  · cases op with
    | tx x =>
      rw [hostMove_tx (s := s.nextTurn) hhost] at hm
      simp only [keepsP1, keepsP3, hop] at h1 h3
      refine transact_hostFault (s := { s.nextTurn with host := rest }) h3 (fun hw => ?_) hm
      cases hb : s.busy with
      | true => simp [hw, hp hb] at h1
      | false => exact hb
    | reset => rw [hostMove_reset (s := s.nextTurn) hhost] at hm; cases hm; rfl
    | poll =>
      rw [hostMove_poll (s := s.nextTurn) hhost] at hm
      cases hm
      exact (pollOnce_status_hostFault rest s.nextTurn).2
    | readout => rw [hostMove_readout (s := s.nextTurn) hhost] at hm; cases hm; rfl

theorem hostFault_empty_of_keeps {n : Nat} {p : HostPhase} {s t : State} (hs : s.Inv)
    (he : s.hostFault = FaultSet.empty) (hp : s.busy = true → p = .waiting)
    (hk : State.keeps (fun q u => keepsP1 q u && keepsP3 q u) n p s = true)
    (h : Host.Core.run Sys2Proof.core n s = .next t) : t.hostFault = FaultSet.empty := by
  induction n generalizing p s with
  | zero => cases h; exact he
  | succ n ih =>
    obtain ⟨u, hu, h'⟩ := run_succ_eq_next h
    obtain ⟨h1, h3⟩ := Bool.and_eq_true_iff.1 (keeps_head hk)
    exact ih (stepKeepsInvariant s u hs hu) ((step_hostFault hp h1 h3 hu).trans he)
      (waiting_of_busy_after_step hs hp hu) (keeps_tail hk hu) h'

theorem takesOutput_done_of_keeps {n : Nat} {p : HostPhase} {s t : State} (hs : s.Inv)
    (hp : s.busy = true → p = .waiting) (hd : p = .ready → statusDone s.status = true)
    (hk : State.keeps keepsP2 (n + 1) p s = true) (h : Host.Core.run Sys2Proof.core n s = .next t)
    (ht : t.takesOutput = true) : t.busy = false ∧ statusDone t.status = true := by
  induction n generalizing p s with
  | zero =>
    cases h
    have hready : p = .ready := by simpa [keepsP2, ht] using keeps_head hk
    refine ⟨?_, hd hready⟩
    cases hb : t.busy with
    | true => cases (hp hb).symm.trans hready
    | false => rfl
  | succ n ih =>
    obtain ⟨u, hu, h'⟩ := run_succ_eq_next h
    exact ih (stepKeepsInvariant s u hs hu) (waiting_of_busy_after_step hs hp hu)
      (done_of_ready_after_step hs hp hd hu) (keeps_tail hk hu) h'

theorem hostFault_ne_empty_of_breach {s t : State} {x : Transaction} (hop : s.nextOp = some (.tx x))
    (hx : x.mapped s.cfg.toParams = false ∨ (x.write = true ∧ s.busy = true)) (h : step s = .next t) :
    t.hostFault ≠ FaultSet.empty := by
  obtain ⟨hnone, -⟩ | ⟨op, rest, hop', hhost, hm⟩ := step_nextOp_cases h
  · cases hnone.symm.trans hop
  · cases hop'.symm.trans hop
    rw [hostMove_tx (s := s.nextTurn) hhost] at hm
    obtain ⟨r, u, rfl⟩ := transact_raises (s := { s.nextTurn with host := rest }) hx hm
    exact raiseHostFault_ne_empty r u

/-- Settles O57: the first two clauses by the phase along the run, the third by the transaction's own effect;
a host that conforms in every run keeps the rules of the first two from the phase `noCommand` on. -/
theorem conformingHostNeverFaults : Obligations.ConformingHostNeverFaults := by
  refine ⟨fun n p s t hs he hp hk h => hostFault_empty_of_keeps hs he hp hk h,
    fun n p s t hs hp hd hk h ht => takesOutput_done_of_keeps hs hp hd hk h ht,
    fun s t x hop hx h => hostFault_ne_empty_of_breach hop hx h, fun s hs hb he hconf turns n t h => ?_⟩
  have hs' : State.Inv { s with turns := turns } := inv_of_coreSide_eq (s := s) rfl hs
  have hp : ∀ q : HostPhase, s.busy = true → q = .waiting := fun q hb' => absurd (hb.symm.trans hb') (by decide)
  have parts : ∀ p u, (keepsP1 p u && keepsP2 p u && keepsP3 p u) = true →
      (keepsP1 p u && keepsP3 p u) = true ∧ keepsP2 p u = true := by
    intro p u hall
    simp only [Bool.and_eq_true] at hall ⊢
    obtain ⟨⟨h1, h2⟩, h3⟩ := hall
    exact ⟨⟨h1, h3⟩, h2⟩
  constructor
  · exact hostFault_empty_of_keeps hs' he (hp .noCommand)
      (keeps_mono (fun p u hall => (parts p u hall).1) (hconf turns n)) h
  · exact takesOutput_done_of_keeps hs' (hp .noCommand) (fun h => by cases h)
      (keeps_mono (fun p u hall => (parts p u hall).2) (hconf turns (n + 1))) h

end Sys2Proof.Machine
end

section
/-! PROOFS. The command words (R63 to R70): a word is its three fields, the words of the table and the illegal
classes, and B91_DEC_ROM (R72, R127). -/

namespace Sys2Proof

/-! ## The fields of a command word -/

/-- RSV, UPPER and OP side by side are the whole word (R63). -/
theorem fields_append (w : Word) : rsvField w ++ BitVec.ofBool (upperField w) ++ opField w = w := by
  refine BitVec.eq_of_getLsbD_eq fun k hk => ?_
  simp only [rsvField, upperField, opField, BitVec.getLsbD_append, BitVec.getLsbD_extractLsb',
    BitVec.getLsbD_ofBool]
  obtain h | rfl | h : k < 3 ∨ k = 3 ∨ 4 ≤ k := by omega
  · simp [h]
  · simp
  · have h3 : ¬ k < 3 := by omega
    have h4 : ¬ k - 3 < 1 := by omega
    have h28 : k - 3 - 1 < 28 := by omega
    have e : 4 + (k - 3 - 1) = k := by omega
    simp [h3, h4, h28, e]

/-- A word that decodes to a command has the command's own fields (R66 to R70). -/
theorem fields_of_decode_legal {w : Word} {i : Instr} (h : decode w = .legal i) :
    rsvField w = 0 ∧ BitVec.ofBool (upperField w) = i.upper ∧ opField w = i.op := by
  unfold decode at h
  split_ifs at h with hr h1 hu h2 hu h3 hu h4 hu <;> cases h <;> rw [not_not] at hr
  · exact ⟨hr, by rw [hu]; rfl, h1⟩
  · exact ⟨hr, by rw [Bool.eq_false_iff.2 hu]; rfl, h1⟩
  · exact ⟨hr, by rw [Bool.eq_false_iff.2 hu]; rfl, h2⟩
  · exact ⟨hr, by rw [Bool.eq_false_iff.2 hu]; rfl, h3⟩
  · exact ⟨hr, by rw [Bool.eq_false_iff.2 hu]; rfl, h4⟩

theorem encode_of_decode_legal {w : Word} {i : Instr} (h : decode w = .legal i) : encode i = w := by
  obtain ⟨hr, hu, ho⟩ := fields_of_decode_legal h
  rw [encode, ← hr, ← hu, ← ho, fields_append]

theorem decode_eq_legal_iff {w : Word} {i : Instr} : decode w = .legal i ↔ w = encode i := by
  refine ⟨fun h => (encode_of_decode_legal h).symm, ?_⟩
  rintro rfl
  exact Machine.decode_encode i

/-- Settles O3: `decode_encode` one way, the fields of a legal word the other. -/
theorem encodeDecodeAgree : Obligations.EncodeDecodeAgree :=
  ⟨Machine.decode_encode, fun _ _ => encode_of_decode_legal⟩

/-- Settles O2: a word decodes to a command exactly when it is what the command encodes to, and R67's table
gives that word for each command. -/
theorem legalWordsAreExactlyFive : Obligations.LegalWordsAreExactlyFive := by
  intro w i
  rw [decode_eq_legal_iff]
  cases i <;> simp [encode, Instr.op, Instr.upper]

/-! ## The illegal classes (R68) -/

theorem decode_reservedBits {w : Word} (h : rsvField w ≠ 0) : decode w = .illegal .reservedBits := if_pos h

theorem decode_reservedOp {w : Word} (hr : rsvField w = 0) (ho : opField w = 0 ∨ 5 ≤ (opField w).toNat) :
    decode w = .illegal .reservedOp := by
  have hne : ∀ i : Instr, opField w ≠ i.op := by
    rintro i h
    rw [h] at ho
    cases i <;> revert ho <;> decide
  rw [decode, if_neg (not_not.2 hr)]
  exact (if_neg (hne .hexencU)).trans <| (if_neg (hne .hexdec)).trans <| (if_neg (hne .b91enc)).trans <|
    if_neg (hne .b91dec)

theorem decode_upperWithoutHexenc {w : Word} (hr : rsvField w = 0) (hu : upperField w = true)
    (ho : opField w = 2 ∨ opField w = 3 ∨ opField w = 4) : decode w = .illegal .upperWithoutHexenc := by
  rw [decode, if_neg (not_not.2 hr), hu]
  obtain ho | ho | ho := ho <;> rw [ho] <;> rfl

/-- Settles O1: the table's words are what its commands encode to, and the others have the fields of their
class. -/
theorem specWordsDecode : Obligations.SpecWordsDecode :=
  ⟨Machine.decode_encode .hexencU, Machine.decode_encode .hexencL, Machine.decode_encode .hexdec,
    Machine.decode_encode .b91enc, Machine.decode_encode .b91dec,
    decode_reservedOp rfl (by decide), decode_reservedOp rfl (by decide), decode_reservedOp rfl (by decide),
    decode_upperWithoutHexenc rfl rfl (by decide), decode_upperWithoutHexenc rfl rfl (by decide),
    decode_reservedBits (by decide), decode_reservedBits (by decide)⟩

namespace Machine

/-! ## B91_DEC_ROM (R72, R127) -/

theorem decRom_of_findIdx {p : Params} {symbol : Byte} {k : Nat} (hk : k ≤ 90)
    (h : p.alphabet.findIdx? (· == symbol) = some k) :
    decRom p symbol = (1 : BitVec 1) ++ BitVec.ofNat 7 k := by
  have entry : ∀ j < 91, (0x80 ||| BitVec.ofNat 8 j : Byte) = (1 : BitVec 1) ++ BitVec.ofNat 7 j := by decide
  simp only [decRom, h]
  exact entry k (by omega)

theorem decRom_of_not_mem {p : Params} {symbol : Byte} (h : symbol ∉ p.alphabet) :
    decRom p symbol = 0x00 := by
  have hnone : p.alphabet.findIdx? (· == symbol) = none :=
    List.findIdx?_eq_none_iff.2 fun b hb => beq_false_of_ne fun e => h (e ▸ hb)
  simp only [decRom, hnone]

/-- The alphabet's symbols are distinct, so the search for a symbol finds the one place it stands at. -/
theorem findIdx_alphabet (c : Config) {symbol : Byte} {k : Nat} (h : c.alphabet[k]? = some symbol) :
    c.alphabet.findIdx? (· == symbol) = some k := by
  obtain ⟨hk, rfl⟩ := List.getElem?_eq_some_iff.1 h
  refine List.findIdx?_eq_some_iff_getElem.2 ⟨hk, beq_self_eq_true _, fun j hj he => ?_⟩
  exact hj.ne ((c.alphabet_nodup.getElem_inj_iff).1 (beq_iff_eq.1 he))

/-- Settles O31: the search in B91_ALPHABET finds a known symbol's place, and no place for another. -/
theorem decodeRomInvertsAlphabet : Obligations.DecodeRomInvertsAlphabet := by
  refine fun c symbol => ⟨fun k h => ?_, decRom_of_not_mem⟩
  obtain ⟨hlt, -⟩ := List.getElem?_eq_some_iff.1 h
  rw [c.alphabet_length] at hlt
  have hk : k ≤ 90 := by omega
  exact ⟨decRom_of_findIdx hk (findIdx_alphabet c h), hk⟩

end Machine

end Sys2Proof
end

section
/-! PROOFS. The host's moves: the write of a command word to CMD (R70, R77 to R80), POLL, READOUT and LOADIN
(R75). -/

namespace Sys2Proof.Machine

/-! ## The step in which the host performs a transaction -/

theorem step_of_host {s : State} (hm : s.mover = .host) : step s = hostMove s.nextTurn := by
  unfold step; rw [hm]

theorem step_tx {s : State} {x : Transaction} {rest : List HostOp} (hm : s.mover = .host)
    (hh : s.host = .tx x :: rest) : step s = transact x { s with turns := s.turns.tail, host := rest } :=
  (step_of_host hm).trans (hostMove_tx (s := s.nextTurn) hh)

/-! ## The write of a word to CMD (R77 to R80) -/

theorem exec_of_busy {s : State} (hb : s.busy = true) (i : Instr) :
    exec i s = .next (raiseHostFault .writeWhileBusy s) := by
  rw [exec_eq_startCommand, startCommand, if_pos hb]

theorem exec_of_idle {s : State} (hb : s.busy = false) (i : Instr) :
    exec i s = .next
      (if s.cfg.inCap < s.inLen.toNat then finish .capacity (startClear (encode i) s)
       else dispatch i (startClear (encode i) s)) := by
  rw [exec_eq_startCommand, startCommand, hb]; rfl

theorem transact_cmdWrite_of_idle {s : State} (hb : s.busy = false) (w : Word) :
    transact (cmdWrite w) s = writeCmd w s := by
  obtain ⟨hreg, -⟩ := hostWrite_of_idle hb 0 w
  exact hreg

theorem writeCmd_of_legal {w : Word} {i : Instr} (hw : decode w = .legal i) (s : State) :
    writeCmd w s = exec i s := by
  rw [writeCmd, hw]

theorem writeCmd_of_illegal {w : Word} {why : Illegal} (hw : decode w = .illegal why) {s : State}
    (hb : s.busy = false) : writeCmd w s = .next (finish .illegalCommand (startClear w s)) := by
  rw [writeCmd, hw, startIllegal, hb]; rfl

/-- A command's word written to CMD runs the command, whether one runs already (R78) or not (R77). -/
theorem transact_cmdWrite_of_legal {w : Word} {i : Instr} (hw : decode w = .legal i) (s : State) :
    transact (cmdWrite w) s = exec i s := by
  cases hb : s.busy with
  | true => rw [exec_of_busy hb]; exact if_pos hb
  | false => rw [transact_cmdWrite_of_idle hb, writeCmd_of_legal hw]

/-- Settles O4: the step is the transaction, which runs the command that the word decodes to. -/
theorem stepRunsDecodedCommand : Obligations.StepRunsDecodedCommand := by
  refine ⟨fun s w i rest hw hm hh => (step_tx hm hh).trans (transact_cmdWrite_of_legal hw _), fun s i => ?_⟩
  have hword : BitVec.ofNat 32 ((encode i).toNat % 2 ^ 32) = encode i := by
    rw [Nat.mod_eq_of_lt (encode i).isLt, BitVec.ofNat_toNat, BitVec.setWidth_eq]
  have hstep := step_tx (s := s.withFetchWord 32 (encode i).toNat) rfl rfl
  rw [hword] at hstep
  exact hstep.trans (transact_cmdWrite_of_legal (decode_encode i) s)

/-- Settles O5: an illegal word finishes, a legal one is validated and dispatched, each after `startClear`. -/
theorem startStepClearsAndDispatches : Obligations.StartStepClearsAndDispatches := by
  refine fun s w => ⟨fun hb => ?_, fun rest => step_tx⟩
  rw [transact_cmdWrite_of_idle hb]
  cases hw : decode w with
  | illegal why => exact writeCmd_of_illegal hw hb
  | legal i =>
    rw [writeCmd_of_legal hw, exec_of_idle hb, encode_of_decode_legal hw]
    cases i <;> rfl

/-! ## POLL and READOUT (R75) -/

theorem readout_host (rest : List HostOp) (s : State) :
    (readout rest s).host = (List.range s.outLen.toNat).map (fun k => HostOp.tx (outByteRead k)) ++ rest := rfl

/-- Settles O27: a round of POLL by DONE in the STATUS it reads, and the list that READOUT leaves. -/
theorem pollAndReadoutMoves : Obligations.PollAndReadoutMoves := by
  refine fun s rest => ⟨fun hh hd => ?_, fun hh hd => ?_, fun hh => ⟨_, hostMove_readout hh, ?_⟩⟩
  · rw [hostMove_poll hh, pollOnce, statusDone, if_pos hd]; rfl
  · rw [hostMove_poll hh, pollOnce, statusDone, if_neg (by rw [hd]; decide)]; rfl
  · refine ⟨rfl, rfl, rfl, rfl, rfl, rfl, ?_, fun k hk => ?_, ?_⟩ <;> rw [readout_host]
    · simp
    · rw [List.getElem?_append_left (by simpa using hk), List.getElem?_map, List.getElem?_range hk]; rfl
    · exact List.drop_left' (by simp)

/-! ## LOADIN (R75, R85, R88) -/

/-- A buffer with the bytes of a frame written from address `a` on. -/
def Memory.writeFrom (m : Memory) (a : Nat) (x : List Byte) : Memory :=
  match x with
  | [] => m
  | b :: x => (m.write a b).writeFrom (a + 1) x

theorem Memory.read_writeFrom (m : Memory) (a : Nat) (x : List Byte) (k : Nat) :
    (m.writeFrom a x).read k = if a ≤ k ∧ k < a + x.length then x[k - a]? else m.read k := by
  induction x generalizing m a with
  | nil => rw [if_neg (by simp)]; rfl
  | cons b x ih =>
    rw [writeFrom, ih, Memory.read_write, List.length_cons]
    obtain hk | rfl | hk := Nat.lt_trichotomy k a
    · rw [if_neg (by omega), if_neg (by omega), if_neg (by omega)]
    · rw [if_neg (by omega), if_pos rfl, if_pos (by omega), Nat.sub_self]; rfl
    · obtain ⟨j, rfl⟩ := Nat.exists_eq_add_of_lt hk
      have e : a + j + 1 - a = j + 1 := by omega
      have e' : a + j + 1 - (a + 1) = j := by omega
      rw [e, e', List.getElem?_cons_succ, if_neg (show ¬ a + j + 1 = a by omega)]
      exact if_congr (by omega) rfl rfl

/-- The write of a byte, zero-extended, to an address of IN_BUF (R88). -/
theorem transact_inByteWrite {s : State} (hb : s.busy = false) {a : Nat} (ha : a < s.cfg.inCap) (b : Byte) :
    transact (inByteWrite (BitVec.ofNat 32 a) (b.setWidth 32)) s =
      .next { s with inBuf := s.inBuf.write a b } := by
  have haddr : (BitVec.ofNat 32 a).toNat = a := by
    rw [BitVec.toNat_ofNat, Nat.mod_eq_of_lt (ha.trans s.cfg.inCap_lt)]
  have hzero : (b.setWidth 32).extractLsb' 8 24 = 0 := by ext k hk; simp
  have hbyte : (b.setWidth 32).extractLsb' 0 8 = b := by
    ext k hk
    have hk' : k < 32 := by omega
    simp [hk', BitVec.getLsbD_eq_getElem hk]
  obtain ⟨-, hwrite, -⟩ := hostWrite_of_idle hb (BitVec.ofNat 32 a) (b.setWidth 32)
  rw [inByteWrite, hwrite, haddr, writeInBuf, if_pos ha, if_pos hzero, hbyte]

/-- The write of IN_LEN (R85). -/
theorem transact_inLenWrite {s : State} (hb : s.busy = false) (v : Word) :
    transact (regWrite .inLen v) s = .next { s with inLen := v } := by
  obtain ⟨hreg, -⟩ := hostWrite_of_idle hb RegName.inLen.index v
  exact hreg

/-- The byte writes of LOADIN, one step a byte. -/
theorem run_loadBytes (x : List Byte) {s : State} {a : Nat} {rest : List HostOp} (hs : s.seq = .idle)
    (hb : s.busy = false) (ht : s.turns = []) (hh : s.host = loadBytes a x ++ rest)
    (hx : a + x.length ≤ s.cfg.inCap) :
    Host.Core.run Sys2Proof.core x.length s =
      .next { s with host := rest, inBuf := s.inBuf.writeFrom a x } := by
  induction x generalizing s a with
  | nil =>
    obtain rfl : s.host = rest := hh
    rfl
  | cons b x ih =>
    rw [List.length_cons] at hx
    have hstep : step s = .next
        { s with host := loadBytes (a + 1) x ++ rest, inBuf := s.inBuf.write a b } := by
      rw [step_of_idle hs ht, hostMove_tx hh]
      have ha : a < s.cfg.inCap := by omega
      exact transact_inByteWrite (s := { s with host := loadBytes (a + 1) x ++ rest }) hb ha b
    rw [List.length_cons, run_succ x.length hstep]
    exact ih hs hb ht rfl (show a + 1 + x.length ≤ s.cfg.inCap by omega)

/-- The whole of LOADIN: one step a byte and one for IN_LEN. -/
theorem run_loadin {s : State} {x : List Byte} {rest : List HostOp} (hs : s.seq = .idle)
    (hb : s.busy = false) (ht : s.turns = []) (hh : s.host = (AsmLine.loadin x).expand ++ rest)
    (hx : x.length ≤ s.cfg.inCap) :
    Host.Core.run Sys2Proof.core (x.length + 1) s =
      .next { s with host := rest, inBuf := s.inBuf.writeFrom 0 x, inLen := BitVec.ofNat 32 x.length } := by
  have hbytes := run_loadBytes x (a := 0) hs hb ht (hh.trans (List.append_assoc _ _ _))
    ((Nat.zero_add _).trans_le hx)
  rw [run_add x.length 1 hbytes]
  refine run_succ 0 ((step_of_idle ?_ ?_).trans ((hostMove_tx rfl).trans (transact_inLenWrite ?_ _)))
  · exact hs
  · exact ht
  · exact hb

/-- Settles O60: `run_loadin`, and what the buffer reads as after the byte writes. -/
theorem loadinStoresTheFrame : Obligations.LoadinStoresTheFrame := by
  intro s x rest hs hb ht hh hx
  have hlen : (BitVec.ofNat 32 x.length).toNat = x.length := by
    rw [BitVec.toNat_ofNat, Nat.mod_eq_of_lt (hx.trans_lt s.cfg.inCap_lt)]
  refine ⟨_, run_loadin hs hb ht hh hx, ⟨hlen, fun k hk => ?_⟩, rfl, rfl, fun k hk => ?_, rfl⟩
  · exact (s.inBuf.read_writeFrom 0 x k).trans (if_pos (by omega))
  · exact (s.inBuf.read_writeFrom 0 x k).trans (if_neg (by omega))

end Sys2Proof.Machine
end

section
/-! PROOFS. Every command finishes (R84): how many CORE steps a state has left at most, that the CORE's next
step exists and leaves fewer, and the run to the finish. -/

namespace Sys2Proof.Machine

/-! ## How many CORE steps are left at most (R84) -/

/-- A bound on the CORE steps that a state would have left in the STATE value `q`. A byte costs the encoder
three at most, BE_CONSUME and up to two of BE_GROUP; a pair of symbols costs the decoder five at most, two of
BD_SYMBOL and up to three of BD_FLUSH. -/
def State.stepsIn (s : State) (q : Seq) : Nat :=
  match q with
  | .idle => 0
  | .heByte => s.inLen.toNat - s.i.toNat + 1
  | .hdTrim => s.inLen.toNat + 2
  | .hdPair => s.trimE.toNat - s.i.toNat + 1
  | .beConsume => 3 * (s.inLen.toNat - s.i.toNat) + 2
  | .beGroup => 3 * (s.inLen.toNat - s.i.toNat) + 3 + s.accN.toNat / 14
  | .beTail => 1
  | .bdSymbol => 3 * (s.inLen.toNat - s.i.toNat) + 2 + s.pvValid.toNat
  | .bdFlush => 3 * (s.inLen.toNat - s.i.toNat) + 3 + s.accN.toNat / 8 + s.pvValid.toNat
  | .bdTail => 1

/-- The bound for the STATE value that the state is in. -/
def State.stepsLeft (s : State) : Nat := s.stepsIn s.seq

theorem stepsLeft_of_seq {s : State} {q : Seq} (h : s.seq = q) : s.stepsLeft = s.stepsIn q := by
  rw [State.stepsLeft, h]

/-- In IDLE, and if so with the STATUS of a finished command (R81). -/
def State.DoneIfIdle (s : State) : Prop := s.seq = .idle → ∃ e, s.status = doneStatus e

theorem doneIfIdle_finish (e : ErrCode) (s : State) : (finish e s).DoneIfIdle := fun _ => ⟨e, rfl⟩

theorem doneIfIdle_of_running {s : State} (h : s.seq ≠ .idle) : s.DoneIfIdle := fun hq => absurd hq h

/-- A step from `s` to `t` brings the finish nearer, or is the finish. -/
def State.Advances (s t : State) : Prop := t.stepsLeft < s.stepsLeft ∧ t.DoneIfIdle

theorem advances_finish {s : State} {q : Seq} (e : ErrCode) (u : State) (hs : s.seq = q) (h : 0 < s.stepsIn q) :
    s.Advances (finish e u) :=
  ⟨by rwa [stepsLeft_of_seq hs], doneIfIdle_finish e u⟩

theorem advances_of_lt {s t : State} {q p : Seq} (hs : s.seq = q) (ht : t.seq = p) (hp : p ≠ .idle)
    (h : t.stepsIn p < s.stepsIn q) : s.Advances t :=
  ⟨by rwa [stepsLeft_of_seq hs, stepsLeft_of_seq ht], doneIfIdle_of_running (ht ▸ hp)⟩

/-! ## The hex steps -/

theorem heByte_advances {s : State} (hs : s.Inv) (hq : s.seq = .heByte) :
    ∃ t, heByte s = .next t ∧ s.Advances t := by
  obtain ⟨-, -, -, -, hcap⟩ := hs.runsIn hq (by decide)
  have ho : s.o.toNat ≤ 2 * s.i.toNat := hs.progressIn hq
  have hout := s.cfg.two_inCap_le
  obtain hi | hi := Nat.lt_or_ge s.i.toNat s.inLen.toNat
  · obtain ⟨b, d, hb, -⟩ := byteOr_cases (s.inBuf.read s.i.toNat) s
    have hi1 : (s.i + 1).toNat = s.i.toNat + 1 := toNat_add_ofNat s.i 1 (by omega)
    refine ⟨_, heByte_eq_next.2 (.inl ⟨hi, by omega, by omega, b, d, hb, rfl⟩),
      advances_of_lt hq hq (by decide) ?_⟩
    simp only [State.stepsIn]
    omega
  · exact ⟨_, heByte_eq_next.2 (.inr ⟨hi, rfl⟩), advances_finish .ok s hq (Nat.succ_pos _)⟩

theorem hdTrim_advances {s : State} (hs : s.Inv) (hq : s.seq = .hdTrim) :
    ∃ t, hdTrim s = .next t ∧ s.Advances t := by
  obtain ⟨-, -, -, -, hcap⟩ := hs.runsIn hq (by decide)
  obtain ⟨v, d, -, -, -, -, ht⟩ := hdTrim_spec hcap
  refine ⟨_, ht, ?_⟩
  obtain ⟨hb, -⟩ | ⟨S, E, hb, -, hE, -⟩ := scanBounds_cases s.cfg.toParams v s.inLen.toNat <;> rw [hb]
  · exact advances_finish .invalidArgument _ hq (Nat.succ_pos _)
  · obtain hd | ⟨-, hd⟩ := trimDecision_some_cases S E { s with draws := d } <;> rw [hd]
    · exact advances_finish .invalidLength _ hq (Nat.succ_pos _)
    · have hEle : (BitVec.ofNat 32 E).toNat ≤ E := Nat.mod_le _ _
      refine advances_of_lt (p := .hdPair) hq rfl (by decide) ?_
      simp only [State.stepsIn]
      omega

theorem hdPair_advances {s : State} (hs : s.Inv) (hq : s.seq = .hdPair) :
    ∃ t, hdPair s = .next t ∧ s.Advances t := by
  obtain ⟨-, -, -, -, hcap⟩ := hs.runsIn hq (by decide)
  obtain ⟨-, hE, hpar, ho⟩ : s.i.toNat ≤ s.trimE.toNat ∧ s.trimE.toNat ≤ s.inLen.toNat ∧
    (s.trimE.toNat - s.i.toNat) % 2 = 0 ∧ 2 * s.o.toNat ≤ s.i.toNat := hs.progressIn hq
  have hout := s.cfg.two_inCap_le
  obtain hi | hi := Nat.lt_or_ge s.i.toNat s.trimE.toNat
  · obtain ⟨c, d, hd, -⟩ := byteOr_cases (s.inBuf.read s.i.toNat) s
    obtain ⟨lo, e, he, -⟩ := byteOr_cases (s.inBuf.read (s.i.toNat + 1)) { s with draws := d }
    have hi2 : (s.i + 2).toNat = s.i.toNat + 2 := toNat_add_ofNat s.i 2 (by omega)
    refine ⟨_, hdPair_eq_next.2 (.inl ⟨hi, by omega, by omega, c, d, lo, e, hd, he, rfl⟩),
      advances_of_lt hq hq (by decide) ?_⟩
    simp only [State.stepsIn]
    omega
  · exact ⟨_, hdPair_eq_next.2 (.inr ⟨hi, rfl⟩), advances_finish .ok s hq (Nat.succ_pos _)⟩

/-! ## The base91 encoder's steps -/

theorem beConsume_advances {s : State} (hs : s.Inv) (hq : s.seq = .beConsume) :
    ∃ t, beConsume s = .next t ∧ s.Advances t := by
  obtain ⟨-, -, -, -, hcap⟩ := hs.runsIn hq (by decide)
  obtain ⟨⟨hn, -⟩, -⟩ : s.AccBounded 13 ∧ s.EncoderRoom := hs.progressIn hq
  obtain hi | hi := Nat.lt_or_ge s.i.toNat s.inLen.toNat
  · obtain ⟨b, d, hb, -⟩ := byteOr_cases (s.inBuf.read s.i.toNat) s
    have hi1 : (s.i + 1).toNat = s.i.toNat + 1 := toNat_add_ofNat s.i 1 (by omega)
    have hN : (push b.toNat 8 s).accN.toNat = s.accN.toNat + 8 := push_accN_toNat (by omega)
    refine ⟨_, beConsume_eq_next.2 (.inl ⟨hi, by omega, b, d, hb, rfl⟩),
      advances_of_lt (p := .beGroup) hq rfl (by decide) ?_⟩
    simp only [State.stepsIn, push_inLen, hN]
    omega
  · exact ⟨_, beConsume_eq_next.2 (.inr ⟨hi, rfl⟩),
      advances_of_lt (p := .beTail) hq rfl (by decide) (Nat.le_add_left _ _)⟩

theorem beGroup_advances {s : State} (hs : s.Inv) (hq : s.seq = .beGroup) :
    ∃ t, beGroup s = .next t ∧ s.Advances t := by
  obtain ⟨-, -, -, hi, hcap⟩ := hs.runsIn hq (by decide)
  obtain ⟨⟨hacc, -⟩, heven, hbits⟩ : s.AccBounded 21 ∧ s.EncoderRoom := hs.progressIn hq
  have hout := s.cfg.two_inCap_le
  obtain hn | hn := Nat.lt_or_ge 13 s.accN.toNat
  · have hv : low (gsel s.accB.toNat) s ≤ 8280 := group_le s.accB.toNat
    obtain ⟨x, hx⟩ := s.cfg.rom_entry (k := low (gsel s.accB.toNat) s % 91) (by omega)
    obtain ⟨y, hy⟩ := s.cfg.rom_entry (k := low (gsel s.accB.toNat) s / 91) (by omega)
    have hg := gsel_cases s.accB.toNat
    have hN := pop_accN_toNat (gsel s.accB.toNat) s
    refine ⟨_, beGroup_eq_next.2 (.inl ⟨hn, by omega, x, y, hx, hy, rfl⟩),
      advances_of_lt hq hq (by decide) ?_⟩
    simp only [State.stepsIn, pop_inLen, pop_i, hN]
    omega
  · exact ⟨_, beGroup_eq_next.2 (.inr ⟨hn, rfl⟩),
      advances_of_lt (p := .beConsume) hq rfl (by decide) (Nat.le_add_right _ _)⟩

theorem beTail_advances {s : State} (hs : s.Inv) (hq : s.seq = .beTail) :
    ∃ t, beTail s = .next t ∧ s.Advances t := by
  obtain ⟨-, -, -, hi, hcap⟩ := hs.runsIn hq (by decide)
  obtain ⟨⟨hn, hB⟩, heven, hbits⟩ : s.AccBounded 13 ∧ s.EncoderRoom := hs.progressIn hq
  have hout := s.cfg.two_inCap_le
  by_cases h0 : s.accN = 0
  · exact ⟨_, beTail_eq_next.2 (.inl ⟨h0, rfl⟩), advances_finish .ok s hq Nat.one_pos⟩
  · have hn0 : s.accN.toNat ≠ 0 := fun hz => h0 (BitVec.eq_of_toNat_eq hz)
    have hB' : s.accB.toNat < 2 ^ 13 := hB.trans_le (Nat.pow_le_pow_right (by decide) hn)
    have ho1 : (s.o + 1).toNat ≤ s.o.toNat + 1 := toNat_add_ofNat_le s.o 1
    obtain ⟨x, hx⟩ := s.cfg.rom_entry (k := s.accB.toNat % 91) (by omega)
    obtain ⟨y, hy⟩ := s.cfg.rom_entry (k := s.accB.toNat / 91) (by omega)
    by_cases h2 : s.accN.toNat > 7 ∨ s.accB.toNat > 90
    · exact ⟨_, beTail_eq_next.2 (.inr ⟨h0, by omega, x, hx, .inr ⟨h2, by omega, y, hy, rfl⟩⟩),
        advances_finish .ok _ hq Nat.one_pos⟩
    · exact ⟨_, beTail_eq_next.2 (.inr ⟨h0, by omega, x, hx, .inl ⟨h2, rfl⟩⟩),
        advances_finish .ok _ hq Nat.one_pos⟩

/-! ## The base91 decoder's steps -/

/-- A symbol that is taken, of any table entry, leaves fewer steps (R128). -/
theorem takeSymbol_advances {s : State} {i : Word} {d : Nat} (entry : Byte) (hn : s.accN.toNat ≤ 7)
    (hq : s.seq = .bdSymbol) (hi : i.toNat = s.i.toNat + 1) (hle : i.toNat ≤ s.inLen.toNat) :
    s.Advances (takeSymbol entry { s with draws := d, i := i }) := by
  obtain ht | ⟨-, hp, ht⟩ | ⟨-, hp, ht⟩ := takeSymbol_cases entry { s with draws := d, i := i } <;> rw [ht]
  · refine advances_of_lt hq hq (by decide) ?_
    simp only [State.stepsIn]
    omega
  · refine advances_of_lt hq hq (by decide) ?_
    simp only [State.stepsIn, bufferSymbol, Bool.toNat_true]
    omega
  · have hp : s.pvValid = true := hp
    obtain ⟨v, hv⟩ : ∃ v, s.pv.toNat + 91 * (entryValue entry).toNat = v := ⟨_, rfl⟩
    have hg := gsel_cases v
    have hN : (push v (gsel v) s).accN.toNat = s.accN.toNat + gsel v := push_accN_toNat (by omega)
    refine advances_of_lt (p := .bdFlush) hq rfl (by decide) ?_
    have hlt : 3 * (s.inLen.toNat - i.toNat) + 3 + (push v (gsel v) s).accN.toNat / 8 + 0 <
        s.stepsIn .bdSymbol := by
      simp only [State.stepsIn, hp, Bool.toNat_true]
      omega
    subst hv
    exact hlt

theorem bdSymbol_advances {s : State} (hs : s.Inv) (hq : s.seq = .bdSymbol) :
    ∃ t, bdSymbol s = .next t ∧ s.Advances t := by
  obtain ⟨-, -, -, -, hcap⟩ := hs.runsIn hq (by decide)
  obtain ⟨⟨hn, -⟩, -⟩ : s.AccBounded 7 ∧ s.DecoderRoom := hs.progressIn hq
  obtain hi | hi := Nat.lt_or_ge s.i.toNat s.inLen.toNat
  · obtain ⟨b, d, hb, -⟩ := byteOr_cases (s.inBuf.read s.i.toNat) s
    have hi1 : (s.i + 1).toNat = s.i.toNat + 1 := toNat_add_ofNat s.i 1 (by omega)
    exact ⟨_, bdSymbol_eq_next.2 (.inl ⟨hi, by omega, b, d, hb, rfl⟩),
      takeSymbol_advances _ hn hq hi1 (by omega)⟩
  · refine ⟨_, bdSymbol_eq_next.2 (.inr ⟨hi, rfl⟩), advances_of_lt (p := .bdTail) hq rfl (by decide) ?_⟩
    simp only [State.stepsIn]
    omega

theorem bdFlush_advances {s : State} (hs : s.Inv) (hq : s.seq = .bdFlush) :
    ∃ t, bdFlush s = .next t ∧ s.Advances t := by
  obtain ⟨-, -, -, hi, hcap⟩ := hs.runsIn hq (by decide)
  obtain ⟨-, hroom⟩ : s.AccBounded 21 ∧ s.DecoderRoom := hs.progressIn hq
  unfold State.DecoderRoom at hroom
  have hout := s.cfg.two_inCap_le
  obtain hn | hn := Nat.lt_or_ge 7 s.accN.toNat
  · have hN := pop_accN_toNat 8 s
    refine ⟨_, bdFlush_eq_next.2 (.inl ⟨hn, by omega, rfl⟩), advances_of_lt hq hq (by decide) ?_⟩
    simp only [State.stepsIn, pop_inLen, pop_i, pop_pvValid, hN]
    omega
  · refine ⟨_, bdFlush_eq_next.2 (.inr ⟨hn, rfl⟩), advances_of_lt (p := .bdSymbol) hq rfl (by decide) ?_⟩
    simp only [State.stepsIn]
    omega

theorem bdTail_advances {s : State} (hs : s.Inv) (hq : s.seq = .bdTail) :
    ∃ t, bdTail s = .next t ∧ s.Advances t := by
  obtain ⟨-, -, -, hi, hcap⟩ := hs.runsIn hq (by decide)
  obtain ⟨-, hroom⟩ : s.AccBounded 7 ∧ s.DecoderRoom := hs.progressIn hq
  unfold State.DecoderRoom at hroom
  have hout := s.cfg.two_inCap_le
  cases hp : s.pvValid with
  | true =>
    rw [hp, Bool.toNat_true] at hroom
    exact ⟨_, bdTail_eq_next.2 (.inl ⟨hp, by omega, rfl⟩), advances_finish .ok _ hq Nat.one_pos⟩
  | false => exact ⟨_, bdTail_eq_next.2 (.inr ⟨hp, rfl⟩), advances_finish .ok s hq Nat.one_pos⟩

/-! ## The run to the finish -/

/-- While a command runs the CORE's next step exists (R136, R144) and brings the finish nearer. -/
theorem coreStep_advances {s : State} (hs : s.Inv) (hrun : s.seq ≠ .idle) :
    ∃ t, coreStep s = .next t ∧ s.Advances t := by
  cases hq : s.seq with
  | idle => exact absurd hq hrun
  | heByte => exact coreStep_heByte hq ▸ heByte_advances hs hq
  | hdTrim => exact coreStep_hdTrim hq ▸ hdTrim_advances hs hq
  | hdPair => exact coreStep_hdPair hq ▸ hdPair_advances hs hq
  | beConsume => exact coreStep_beConsume hq ▸ beConsume_advances hs hq
  | beGroup => exact coreStep_beGroup hq ▸ beGroup_advances hs hq
  | beTail => exact coreStep_beTail hq ▸ beTail_advances hs hq
  | bdSymbol => exact coreStep_bdSymbol hq ▸ bdSymbol_advances hs hq
  | bdFlush => exact coreStep_bdFlush hq ▸ bdFlush_advances hs hq
  | bdTail => exact coreStep_bdTail hq ▸ bdTail_advances hs hq

/-- Left to itself, a machine reaches IDLE within the steps it has left, with a finished command's STATUS. -/
theorem reaches_done {s : State} (hs : s.Inv) (ht : s.turns = []) (hd : s.DoneIfIdle) :
    ∃ n t, n ≤ s.stepsLeft ∧ Host.Core.run Sys2Proof.core n s = .next t ∧
      t.seq = .idle ∧ ∃ e, t.status = doneStatus e := by
  induction hk : s.stepsLeft using Nat.strong_induction_on generalizing s with
  | _ k ih =>
    by_cases hq : s.seq = .idle
    · exact ⟨0, s, Nat.zero_le k, rfl, hq, hd hq⟩
    · obtain ⟨u, hc, hlt, hdu⟩ := coreStep_advances hs hq
      have htu : u.turns = [] := (congrArg State.turns (coreStep_untouched hc) :).trans ht
      obtain ⟨n, t, hn, hrun, hfin⟩ := ih u.stepsLeft (hk ▸ hlt) (coreStep_keeps_inv hs hc) htu hdu rfl
      exact ⟨n + 1, t, by omega, (run_succ n ((step_of_running hq ht).trans hc)).trans hrun, hfin⟩

theorem exec_keeps_inv {i : Instr} {s t : State} (hs : s.Inv) (hb : s.busy = false) (h : exec i s = .next t) :
    t.Inv :=
  writeCmd_keeps_inv hs.inBufWf hs.outBufWf hb ((writeCmd_of_legal (decode_encode i) s).trans h)

theorem started_stepsLeft_le (s : State) (i : Instr) : (s.started i).stepsLeft ≤ 3 * s.inLen.toNat + 3 := by
  cases i with
  | hexencU | hexencL =>
    show s.inLen.toNat - 0 + 1 ≤ _
    omega
  | hexdec =>
    show s.inLen.toNat + 2 ≤ _
    omega
  | b91enc =>
    show 3 * (s.inLen.toNat - 0) + 2 ≤ _
    omega
  | b91dec =>
    show 3 * (s.inLen.toNat - 0) + 2 + 0 ≤ _
    omega

/-- Settles O46: the start is an error finish or a command's first STATE, from where `reaches_done`. -/
theorem everyCommandFinishes : Obligations.EveryCommandFinishes := by
  intro i s s1 hs hb ht h
  have start : s1.turns = [] ∧ s1.DoneIfIdle ∧ s1.stepsLeft ≤ 3 * s.inLen.toNat + 3 := by
    obtain ⟨hb', -⟩ | ⟨-, ⟨e, rfl⟩ | rfl⟩ := exec_cases h
    · exact absurd (hb.symm.trans hb') (by decide)
    · exact ⟨ht, doneIfIdle_finish e _, Nat.zero_le _⟩
    · have hq : firstSeq i ≠ .idle := by cases i <;> decide
      exact ⟨ht, doneIfIdle_of_running (s := s.started i) hq, started_stepsLeft_le s i⟩
  obtain ⟨ht1, hd, hle⟩ := start
  obtain ⟨n, t, hn, hrun, hq, e, he⟩ := reaches_done (exec_keeps_inv hs hb h) ht1 hd
  exact ⟨n, t, hn.trans hle, hrun, hq, he ▸ statusDone_doneStatus e, he ▸ statusBusy_doneStatus e⟩

end Sys2Proof.Machine
end

section
/-! PROOFS. The command interface: what the start of a command answers (R79, R80), the finish (R81), the
host's writes while a command runs and while none does (R78, R85, R86, R88), and how STATE leaves IDLE
(R77, R82). -/

namespace Sys2Proof.Machine

/-! ## Starting and finishing a command -/

/-- Settles O6: a frame that is not empty takes HEXENC to HE_BYTE. -/
theorem hexencStarts : Obligations.HexencStarts := fun _ hb h0 hl =>
  ⟨exec_started (i := .hexencU) hb hl (if_neg h0), exec_started (i := .hexencL) hb hl (if_neg h0)⟩

/-- Settles O7: these three commands do not look at IN_LEN again after the start checks. -/
theorem hexdecAndBase91Start : Obligations.HexdecAndBase91Start := fun _ hb hl =>
  ⟨exec_started (i := .hexdec) hb hl rfl, exec_started (i := .b91enc) hb hl rfl,
    exec_started (i := .b91dec) hb hl rfl⟩

/-- Settles O8: `exec_of_busy`. -/
theorem commandWhileBusyOnlyRecords : Obligations.CommandWhileBusyOnlyRecords :=
  fun i _ hb => exec_of_busy hb i

/-- Settles O10: the words of `doneStatus`, and O as the output length of OK alone. -/
theorem finishWritesStatusAndLength : Obligations.FinishWritesStatusAndLength :=
  fun _ => ⟨rfl, rfl, rfl, rfl, rfl⟩

/-! ## The host's writes -/

theorem transact_write_of_busy {s : State} {x : Transaction} (hb : s.busy = true) (hw : x.write = true) :
    transact x s = .next (raiseHostFault .writeWhileBusy s) := by
  rw [transact, if_pos hw, hostWrite, if_pos hb]

/-- Settles O22: BUSY is the first check of a write, whatever its space. -/
theorem anyWriteWhileBusyOnlyRecords : Obligations.AnyWriteWhileBusyOnlyRecords :=
  fun _ _ => transact_write_of_busy

theorem transact_regWrite_of_idle {s : State} (hb : s.busy = false) (r : RegName) (v : Word) :
    transact (regWrite r v) s = writeRegister r.index.toNat v s := by
  obtain ⟨hreg, -⟩ := hostWrite_of_idle hb r.index v
  exact hreg

/-- Settles O21: while idle the three indices' arms of `writeRegister`. -/
theorem registerWrites : Obligations.RegisterWrites := by
  intro s v
  cases hb : s.busy with
  | true => exact ⟨transact_write_of_busy hb rfl, transact_write_of_busy hb rfl, transact_write_of_busy hb rfl⟩
  | false =>
    exact ⟨transact_inLenWrite hb v, transact_regWrite_of_idle hb .status v, transact_regWrite_of_idle hb .outLen v⟩

/-- DATA[31:8] is 0 exactly when DATA is the number of a byte (R88). -/
theorem extractLsb'_high_eq_zero_iff (d : Word) : d.extractLsb' 8 24 = 0 ↔ d.toNat < 256 := by
  have := d.isLt
  show _ = 0#24 ↔ _
  rw [← BitVec.toNat_inj, BitVec.extractLsb'_toNat, Nat.shiftRight_eq_div_pow, BitVec.toNat_zero]
  omega

/-- Settles O23: the checks of R88 in their order, and DATA[7:0] as a number. -/
theorem inBufWriteCases : Obligations.InBufWriteCases := by
  intro s a d
  cases hb : s.busy with
  | true => exact transact_write_of_busy hb rfl
  | false =>
    obtain ⟨-, hwrite, -⟩ := hostWrite_of_idle hb a d
    rw [hwrite, if_neg Bool.false_ne_true, writeInBuf]
    by_cases ha : s.cfg.inCap ≤ a.toNat
    · rw [if_neg (Nat.not_lt.2 ha), if_pos ha]; rfl
    · rw [if_pos (Nat.lt_of_not_le ha), if_neg ha]
      by_cases hd : d.toNat < 256
      · rw [if_pos ((extractLsb'_high_eq_zero_iff d).2 hd), if_neg (Nat.not_le.2 hd)]; rfl
      · rw [if_neg (mt (extractLsb'_high_eq_zero_iff d).1 hd), if_pos (Nat.le_of_not_lt hd)]; rfl

/-! ## Leaving IDLE (R77, R82) -/

theorem step_of_core {s : State} (hm : s.mover = .core) : step s = coreStep s.nextTurn := by
  unfold step; rw [hm]

/-- Settles O53: the CORE has no step in IDLE, and of the host's moves only the write of a legal command word
to CMD sets STATE to anything else. -/
theorem onlyCommandWritesLeaveIdle : Obligations.OnlyCommandWritesLeaveIdle := by
  intro s t hq h hne
  cases hm : s.mover with
  | core =>
    rw [step_of_core hm, coreStep_idle (s := s.nextTurn) hq] at h
    cases h
    exact absurd hq hne
  | host =>
    rw [step_of_host hm] at h
    obtain ⟨he, -⟩ | ⟨rest, -, rfl⟩ | ⟨x, rest, hx, hb, ⟨hw, hc⟩ | rfl | ⟨-, rfl⟩⟩ := hostMove_cases h
    · exact absurd ((congrArg State.seq he :).trans hq) hne
    · exact absurd rfl hne
    · obtain ⟨c, e, -, rfl⟩ | ⟨i, hi, -, rfl⟩ := writeCmd_cases (s := { s.nextTurn with host := rest }) hb hc
      · exact absurd rfl hne
      · exact ⟨x, rest, i, rfl, hx, hw, hi, encode_of_decode_legal hi, firstSeq_serves i, hb⟩
    · exact absurd hq hne
    · exact absurd hq hne

end Sys2Proof.Machine
end

section
/-! PROOFS. The hex encoder: its two tables and NIB, which inverts them (R93, R101), the step HE_BYTE (R94),
and the laws of `hexEncode` (R98, R99). -/

namespace Sys2Proof.Machine

/-! ## The hex tables and NIB (R93, R101) -/

theorem hexLut_toNat (upper : Bool) (k : BitVec 4) :
    (hexLut upper k).toNat =
      if k.toNat < 10 then 0x30 + k.toNat else (if upper then 0x41 else 0x61) + (k.toNat - 10) := by
  revert upper k; decide

theorem nib_hexLut (upper : Bool) (k : BitVec 4) : nib (hexLut upper k) = k.toNat := by
  revert upper k; decide

/-- The upper-case entry is the lower-case one, less 0x20 where that is a letter (R93, R99). -/
theorem hexLut_true_eq (k : BitVec 4) :
    hexLut true k =
      if 0x61 ≤ (hexLut false k).toNat ∧ (hexLut false k).toNat ≤ 0x66 then hexLut false k - 0x20
      else hexLut false k := by
  revert k; decide

/-- The table form of NIB: the masks of R101's formula are `c[3:0]` and `c[6]`. -/
theorem nib_eq (c : Byte) :
    nib c = (c.extractLsb' 0 4).toNat + (if c.getLsbD 6 then 9 else 0) := by
  have low : c.toNat &&& 0xF = (c.extractLsb' 0 4).toNat := by
    rw [BitVec.extractLsb'_toNat, Nat.shiftRight_zero]
    exact Nat.and_two_pow_sub_one_eq_mod c.toNat 4
  have bit : c.toNat &&& 0x40 = (c.getLsbD 6).toNat * 2 ^ 6 := Nat.and_two_pow c.toNat 6
  rw [nib, low, bit]
  cases c.getLsbD 6 <;> rfl

theorem nib_le (c : Byte) : nib c ≤ 24 := by
  have low := (c.extractLsb' 0 4).isLt
  rw [nib_eq]
  split_ifs <;> omega

/-- Settles O30: the upper-case and the lower-case instance of `hexLut_toNat` and `nib_hexLut`, and R101's
formula, which is `nib`'s definition, with its table form `nib_eq` and the bound that follows. -/
theorem hexTablesAndNib : Obligations.HexTablesAndNib :=
  ⟨fun k => ⟨hexLut_toNat true k, hexLut_toNat false k, nib_hexLut true k, nib_hexLut false k⟩,
    fun c => ⟨rfl, nib_eq c, nib_le c⟩⟩

/-! ## HE_BYTE (R94) -/

/-- Settles O11: the two cases of `heByte_eq_next`, where the state after the read is `s` but for its
count of draws. -/
theorem hexEncodeStep : Obligations.HexEncodeStep := by
  intro s hq
  rw [coreStep_heByte hq]
  refine ⟨fun hi hin hout b u hb => ?_, fun hi => heByte_eq_next.2 (.inr ⟨hi, rfl⟩)⟩
  obtain ⟨b', d, hread, -⟩ := byteOr_cases (s.inBuf.read s.i.toNat) s
  obtain ⟨rfl, rfl⟩ := Prod.mk.inj (hb.symm.trans hread)
  exact heByte_eq_next.2 (.inl ⟨hi, hin, hout, b, d, hread, rfl⟩)

/-! ## The laws of hex encode (R98, R99) -/

theorem hexEncode_eq_ok_iff {upper : Bool} {x y : List Byte} :
    hexEncode upper x = .ok y ↔ x ≠ [] ∧ hexSymbols upper x = y := by
  cases x <;> simp [hexEncode]

theorem hexSymbols_length (upper : Bool) (x : List Byte) : (hexSymbols upper x).length = 2 * x.length := by
  rw [hexSymbols, List.length_flatMap]
  simp [Nat.mul_comm]

/-- Settles O35: an encoded frame is its `hexSymbols`, and the case law holds symbol by symbol. -/
theorem hexEncodeLengthAndCase : Obligations.HexEncodeLengthAndCase := by
  constructor
  · intro upper x y h
    obtain ⟨-, rfl⟩ := hexEncode_eq_ok_iff.1 h
    exact hexSymbols_length upper x
  · intro x
    simp only [hexSymbols, List.map_flatMap, List.map_cons, List.map_nil, hexLut_true_eq]

end Sys2Proof.Machine
end

section
/-! PROOFS. The hex decoder: the step HD_PAIR (R106), and the laws of `trim` and `hexDecode` (R104, R109). -/

namespace Sys2Proof.Machine

/-! ## HD_PAIR (R106) -/

/-- Settles O13: the two cases of `hdPair_eq_next`, where the states after the two reads are `s` but for
their counts of draws. -/
theorem hexPairStep : Obligations.HexPairStep := by
  intro s hq
  rw [coreStep_hdPair hq]
  refine ⟨fun hi hin hout b t c u hb hc => ?_, fun hi => hdPair_eq_next.2 (.inr ⟨hi, rfl⟩)⟩
  obtain ⟨b', d, hread, -⟩ := byteOr_cases (s.inBuf.read s.i.toNat) s
  obtain ⟨rfl, rfl⟩ := Prod.mk.inj (hb.symm.trans hread)
  obtain ⟨c', e, hnext, -⟩ := byteOr_cases (s.inBuf.read (s.i.toNat + 1)) { s with draws := d }
  obtain ⟨rfl, rfl⟩ := Prod.mk.inj (hc.symm.trans hnext)
  exact hdPair_eq_next.2 (.inl ⟨hi, hin, hout, b, d, c, e, hread, hnext, rfl⟩)

/-! ## Trimming (R104) -/

theorem isWhitespace_of_head?_dropWhile {p : Params} {x : List Byte} {b : Byte}
    (h : (x.dropWhile (isWhitespace p)).head? = some b) : isWhitespace p b = false := by
  have := List.head?_dropWhile_not (isWhitespace p) x
  rwa [h] at this

/-- `trim` takes the frame's leading whitespace off in front, then the trailing whitespace of the rest. -/
theorem takeWhile_append_trim_append_rtakeWhile (p : Params) (x : List Byte) :
    x.takeWhile (isWhitespace p) ++ trim p x ++
      (x.dropWhile (isWhitespace p)).rtakeWhile (isWhitespace p) = x := by
  have back : trim p x ++ (x.dropWhile (isWhitespace p)).rtakeWhile (isWhitespace p) =
      x.dropWhile (isWhitespace p) := List.rdropWhile_append_rtakeWhile
  rw [List.append_assoc, back, List.takeWhile_append_dropWhile]

/-- The first byte left by `trim` is the first of the frame without its leading whitespace. -/
theorem not_isWhitespace_of_head?_trim {p : Params} {x : List Byte} {b : Byte}
    (h : (trim p x).head? = some b) : isWhitespace p b = false := by
  have hpre : trim p x <+: x.dropWhile (isWhitespace p) := List.rdropWhile_prefix _ _
  obtain ⟨post, hpost⟩ := hpre
  refine isWhitespace_of_head?_dropWhile (x := x) ?_
  rw [← hpost, List.head?_append, h, Option.some_or]

theorem not_isWhitespace_of_getLast?_trim {p : Params} {x : List Byte} {b : Byte}
    (h : (trim p x).getLast? = some b) : isWhitespace p b = false := by
  rw [trim, List.getLast?_reverse] at h
  exact isWhitespace_of_head?_dropWhile h

/-- Settles O37: what `trim` takes off is the whitespace that `takeWhile` and `rtakeWhile` keep. -/
theorem trimSplitsTheFrame : Obligations.TrimSplitsTheFrame := by
  intro p x
  refine ⟨_, _, (takeWhile_append_trim_append_rtakeWhile p x).symm, fun b hb => ?_, fun b hb => ?_⟩
  · exact isWhitespace_iff.1 (hb.elim List.mem_takeWhile_imp List.mem_rtakeWhile_imp)
  · exact not_isWhitespace_iff.1 (hb.elim not_isWhitespace_of_head?_trim not_isWhitespace_of_getLast?_trim)

/-! ## The hex round trip (R109) -/

/-- No well-formed whitespace set holds a hex symbol (R103). -/
theorem not_isWhitespace_hexLut (c : Config) (upper : Bool) (k : BitVec 4) :
    isWhitespace c.toParams (hexLut upper k) = false :=
  not_isWhitespace_iff.2 fun h =>
    Bool.false_ne_true ((c.not_hex_of_whitespace h).symm.trans (isHexCode_hexLut upper k))

theorem trim_hexSymbols (c : Config) (upper : Bool) {x : List Byte} (hne : x ≠ []) :
    trim c.toParams (hexSymbols upper x) = hexSymbols upper x := by
  have hsym : ∀ b ∈ hexSymbols upper x, isWhitespace c.toParams b = false := by
    intro b hb
    obtain ⟨a, -, hb⟩ := List.mem_flatMap.1 hb
    obtain rfl | rfl := List.mem_pair.1 hb <;> exact not_isWhitespace_hexLut c upper _
  have hne' : hexSymbols upper x ≠ [] := by
    rw [← List.length_pos_iff, hexSymbols_length]
    have := List.length_pos_iff.2 hne
    omega
  have := trim_append (pre := []) (post := []) hne' (by simp) (by simp) (hsym _ (List.head_mem hne'))
    (hsym _ (List.getLast_mem hne'))
  rwa [List.nil_append, List.append_nil] at this

/-- PAIR joins the two nibbles of a byte (R102). -/
theorem pair_nibbles (b : Byte) : pair (b.extractLsb' 4 4).toNat (b.extractLsb' 0 4).toNat = b := by
  have hb := b.isLt
  have hhi : (b.extractLsb' 4 4).toNat = b.toNat / 16 := by
    rw [BitVec.extractLsb'_toNat, Nat.shiftRight_eq_div_pow]; omega
  have hlo : (b.extractLsb' 0 4).toNat = b.toNat % 16 := by
    rw [BitVec.extractLsb'_toNat, Nat.shiftRight_zero]
  have join : (b.toNat / 16) <<< 4 ||| b.toNat % 16 = b.toNat := by
    rw [← Nat.shiftLeft_add_eq_or_of_lt (i := 4) (Nat.mod_lt _ (by decide)), Nat.shiftLeft_eq]; omega
  have mask : b.toNat &&& 0xFF = b.toNat := Nat.and_two_pow_sub_one_of_lt_two_pow hb
  rw [pair, hhi, hlo, join, mask, BitVec.ofNat_toNat, BitVec.setWidth_eq]

theorem pairBytes_hexSymbols (upper : Bool) (x : List Byte) : pairBytes (hexSymbols upper x) = x := by
  induction x with
  | nil => rfl
  | cons b x ih =>
    change pair (nib (hexLut upper _)) (nib (hexLut upper _)) :: pairBytes (hexSymbols upper x) = b :: x
    rw [nib_hexLut, nib_hexLut, pair_nibbles, ih]

/-- Settles O36: trimming leaves the encoded frame as it is, its length is even, and `pairBytes` inverts it. -/
theorem hexRoundTrip : Obligations.HexRoundTrip := by
  intro c upper x hne
  refine ⟨hexSymbols upper x, hexEncode_eq_ok_iff.2 ⟨hne, rfl⟩, ?_⟩
  have hlen : (hexSymbols upper x).length = 2 * x.length := hexSymbols_length upper x
  have hpos : 0 < x.length := List.length_pos_iff.2 hne
  have hfull : ¬ (hexSymbols upper x).isEmpty = true := by
    rw [List.isEmpty_iff_length_eq_zero]; omega
  rw [hexDecode, trim_hexSymbols c upper hne, if_neg hfull, if_neg (by omega), pairBytes_hexSymbols]

end Sys2Proof.Machine
end

section
/-! PROOFS. The base91 accumulator by itself: PUSH, LOW and POP in numbers (R111 to R113), the range of a group
value (R114, R115), and the accumulator's bound during every base91 command (R116). -/

namespace Sys2Proof.Machine

/-! ## PUSH, LOW and POP (R111 to R113) -/

/-- No bit of the shifted `x` meets one of the `n` low bits, so the OR of R111 carries nothing. -/
theorem or_shiftLeft_eq_add {b n : Nat} (x : Nat) (hb : b < 2 ^ n) : b ||| (x <<< n) = b + x * 2 ^ n := by
  rw [Nat.or_comm, ← Nat.shiftLeft_add_eq_or_of_lt hb, Nat.shiftLeft_eq, Nat.add_comm]

/-- Settles O32: no bit falls off ACC_B or ACC_N, so PUSH is its exact OR, whose operands share no bit. -/
theorem pushIsExact : Obligations.PushIsExact := by
  intro s x w hb hx hroom
  have hacc : s.AccBounded s.accN.toNat := ⟨le_rfl, hb⟩
  have hor := push_accB_toNat hacc hx (by omega)
  exact ⟨hor.trans (or_shiftLeft_eq_add x hb), hor, push_accN_toNat (by omega),
    (push_accBounded hacc hx (by omega)).2⟩

theorem low_eq_mod (k : Nat) (s : State) : low k s = s.accB.toNat % 2 ^ k := lowBits_eq_mod k _

/-- Settles O33: POP leaves the quotient by `2 ^ w` and LOW is the remainder. -/
theorem lowAndPopSplitTheAccumulator : Obligations.LowAndPopSplitTheAccumulator := by
  refine ⟨fun s k => ⟨rfl, low_eq_mod k s⟩, fun s w hw => ?_⟩
  refine ⟨pop_accB_toNat w s, pop_accN_toNat w s, ?_, fun hb => (pop_accBounded ⟨le_rfl, hb⟩ hw).2⟩
  rw [pop_accB_toNat, low_eq_mod, Nat.shiftRight_eq_div_pow, Nat.div_add_mod']

/-! ## The value of a group (R114, R115) -/

theorem gsel_eq_thirteen_iff (x : Nat) : gsel x = 13 ↔ 89 ≤ x % 8192 := by
  rw [gsel, lowBits_eq_mod]; split_ifs <;> omega

theorem gsel_eq_fourteen_iff (x : Nat) : gsel x = 14 ↔ x % 8192 ≤ 88 := by
  rw [gsel, lowBits_eq_mod]; split_ifs <;> omega

/-- Either width leaves the 13 low bits, by which GSEL chooses, in the group value (R114). -/
theorem group_mod (b : Nat) : lowBits (gsel b) b % 8192 = b % 8192 := by
  rw [lowBits_eq_mod]
  refine Nat.mod_mod_of_dvd b (pow_dvd_pow 2 (n := gsel b) (m := 13) ?_)
  obtain h | h := gsel_cases b <;> omega

/-- The decoder, which has only the group value, chooses the encoder's width (R115). -/
theorem gsel_group (b : Nat) : gsel (lowBits (gsel b) b) = gsel b := by
  obtain h | h := gsel_cases b
  · rw [h, gsel_eq_thirteen_iff, ← h, group_mod, ← gsel_eq_thirteen_iff, h]
  · rw [h, gsel_eq_fourteen_iff, ← h, group_mod, ← gsel_eq_fourteen_iff, h]

theorem group_lt_two_pow (b : Nat) : lowBits (gsel b) b < 2 ^ gsel b := by
  rw [lowBits_eq_mod]; exact Nat.mod_lt _ (Nat.two_pow_pos _)

/-- A 13-bit group holds the 13 low bits, which are above 88 (R114, R115). -/
theorem group_of_thirteen {b : Nat} (h : gsel b = 13) :
    lowBits (gsel b) b = b % 8192 ∧ 89 ≤ lowBits (gsel b) b ∧ lowBits (gsel b) b ≤ 8191 := by
  have hmod := (gsel_eq_thirteen_iff b).1 h
  rw [h, lowBits_eq_mod]
  omega

/-- A 14-bit group holds one bit more, above 13 low bits of at most 88 (R114, R115). -/
theorem group_of_fourteen {b : Nat} (h : gsel b = 14) :
    lowBits (gsel b) b = b % 8192 + 8192 * (b / 8192 % 2) ∧ b % 8192 ≤ 88 := by
  have hmod := (gsel_eq_fourteen_iff b).1 h
  rw [h, lowBits_eq_mod]
  omega

/-- Settles O34: the value of a group of either width, both digits from its bound 8280 = 91 * 91 - 1. -/
theorem groupValueRange : Obligations.GroupValueRange := by
  rintro b v rfl
  have hle := group_le b
  exact ⟨hle, by omega, by omega, gsel_group b, (gsel_group b).symm ▸ group_lt_two_pow b,
    group_of_thirteen, group_of_fourteen, gsel_cases b⟩

/-! ## The bound during a base91 command (R116) -/

/-- The word in CMD is that of B91ENC or B91DEC (R70). -/
def State.InBase91 (s : State) : Prop :=
  decode s.cmd = .legal .b91enc ∨ decode s.cmd = .legal .b91dec

/-- The STATE values of a base91 command each bound the accumulator by 21 bits or fewer; no STATE value of
another command occurs during one. -/
theorem State.Inv.accBounded_of_base91 {s : State} (hs : s.Inv) (hc : s.InBase91) (hrun : s.seq ≠ .idle) :
    s.AccBounded 21 := by
  obtain ⟨-, -, ⟨i, hi, hserves⟩, -, -⟩ := hs.running hrun
  have hi : i = .b91enc ∨ i = .b91dec := by simpa [State.InBase91, hi] using hc
  cases hq : s.seq with
  | idle => exact absurd hq hrun
  | heByte | hdTrim | hdPair =>
    obtain rfl | rfl := hi <;> simp [hq, Seq.serves] at hserves
  | beConsume | beTail =>
    obtain ⟨hacc, -⟩ : s.AccBounded 13 ∧ s.EncoderRoom := hs.progressIn hq
    exact accBounded_mono hacc (by decide)
  | bdSymbol | bdTail =>
    obtain ⟨hacc, -⟩ : s.AccBounded 7 ∧ s.DecoderRoom := hs.progressIn hq
    exact accBounded_mono hacc (by decide)
  | beGroup =>
    obtain ⟨hacc, -⟩ : s.AccBounded 21 ∧ s.EncoderRoom := hs.progressIn hq
    exact hacc
  | bdFlush =>
    obtain ⟨hacc, -⟩ : s.AccBounded 21 ∧ s.DecoderRoom := hs.progressIn hq
    exact hacc

/-- BD_SYMBOL's choice never ends the command (R128). -/
theorem takeSymbol_seq_ne_idle {s : State} (entry : Byte) (hrun : s.seq ≠ .idle) :
    (takeSymbol entry s).seq ≠ .idle := by
  obtain h | ⟨-, -, h⟩ | ⟨-, -, h⟩ := takeSymbol_cases entry s <;> rw [h]
  · exact hrun
  · exact hrun
  · exact Seq.noConfusion

theorem trimDecision_acc (bounds : Option (Nat × Nat)) (s : State) :
    (trimDecision bounds s).accB = s.accB ∧ (trimDecision bounds s).accN = s.accN := by
  match bounds with
  | none => exact ⟨rfl, rfl⟩
  | some (S, E) =>
    obtain h | ⟨-, h⟩ := trimDecision_some_cases S E s <;> rw [h] <;> exact ⟨rfl, rfl⟩

/-- Only steps that stay in a running STATE value push or pop: the one that ends a command leaves ACC_B and
ACC_N as they are (R81, R122, R130). -/
theorem coreStep_acc_of_idle {s t : State} (h : coreStep s = .next t) (hidle : t.seq = .idle) :
    t.accB = s.accB ∧ t.accN = s.accN := by
  cases hq : s.seq with
  | idle => rw [coreStep_idle hq] at h; cases h; exact ⟨rfl, rfl⟩
  | heByte =>
    rw [coreStep_heByte hq, heByte_eq_next] at h
    obtain ⟨-, -, -, _, _, -, rfl⟩ | ⟨-, rfl⟩ := h <;> exact ⟨rfl, rfl⟩
  | hdTrim =>
    rw [coreStep_hdTrim hq] at h
    obtain ⟨v, d, -, -, -, -, ht⟩ := hdTrim_spec (hdTrim_inCap h)
    cases h.symm.trans ht
    exact trimDecision_acc _ _
  | hdPair =>
    rw [coreStep_hdPair hq, hdPair_eq_next] at h
    obtain ⟨-, -, -, _, _, _, _, -, -, rfl⟩ | ⟨-, rfl⟩ := h <;> exact ⟨rfl, rfl⟩
  | beConsume =>
    rw [coreStep_beConsume hq, beConsume_eq_next] at h
    obtain ⟨-, -, _, _, -, rfl⟩ | ⟨-, rfl⟩ := h <;> exact Seq.noConfusion hidle
  | beGroup =>
    rw [coreStep_beGroup hq, beGroup_eq_next] at h
    obtain ⟨-, -, _, _, -, -, rfl⟩ | ⟨-, rfl⟩ := h
    · exact Seq.noConfusion (hq.symm.trans hidle)
    · exact Seq.noConfusion hidle
  | beTail =>
    rw [coreStep_beTail hq, beTail_eq_next] at h
    obtain ⟨-, rfl⟩ | ⟨-, -, _, -, ⟨-, rfl⟩ | ⟨-, -, _, -, rfl⟩⟩ := h <;> exact ⟨rfl, rfl⟩
  | bdSymbol =>
    rw [coreStep_bdSymbol hq, bdSymbol_eq_next] at h
    obtain ⟨-, -, _, _, -, rfl⟩ | ⟨-, rfl⟩ := h
    · exact absurd hidle (takeSymbol_seq_ne_idle _ (hq ▸ Seq.noConfusion))
    · exact Seq.noConfusion hidle
  | bdFlush =>
    rw [coreStep_bdFlush hq, bdFlush_eq_next] at h
    obtain ⟨-, -, rfl⟩ | ⟨-, rfl⟩ := h
    · exact Seq.noConfusion (hq.symm.trans hidle)
    · exact Seq.noConfusion hidle
  | bdTail =>
    rw [coreStep_bdTail hq, bdTail_eq_next] at h
    obtain ⟨-, -, rfl⟩ | ⟨-, rfl⟩ := h <;> exact ⟨rfl, rfl⟩

/-- The bound after a step: by the invariant while the command runs on, as CMD has not changed, and otherwise by
the accumulator, which has not. -/
theorem coreStep_accBounded_of_base91 {s t : State} (hs : s.Inv) (hc : s.InBase91) (hrun : s.seq ≠ .idle)
    (h : coreStep s = .next t) : t.AccBounded 21 := by
  by_cases hidle : t.seq = .idle
  · obtain ⟨hB, hN⟩ := coreStep_acc_of_idle h hidle
    rw [State.AccBounded, hB, hN]
    exact hs.accBounded_of_base91 hc hrun
  · have hcmd : t.cmd = s.cmd := (congrArg State.cmd (coreStep_untouched h) :)
    have hc' : t.InBase91 := by rwa [State.InBase91, hcmd]
    exact (coreStep_keeps_inv hs h).accBounded_of_base91 hc' hidle

/-- Settles O50: both states are bounded by 21 bits, and 21 bits are below `2 ^ 21`. -/
theorem accumulatorWidthBound : Obligations.AccumulatorWidthBound := by
  intro s t hs hc hrun h
  obtain ⟨hn, hb⟩ := coreStep_accBounded_of_base91 hs hc hrun h
  exact ⟨hs.accBounded_of_base91 hc hrun, hn, hb, hb.trans_le (Nat.pow_le_pow_right (by decide) hn)⟩

end Sys2Proof.Machine
end

section
/-! PROOFS. The base91 encoder: the steps BE_CONSUME, BE_GROUP and BE_TAIL (R120 to R122), and the output length
bound of `base91Encode` (R126). -/

namespace Sys2Proof.Machine

/-! ## What is left of the accumulator between two bytes (R116, R126) -/

/-- The encoder's loop emits whole pairs of digits, for at least 13 bits each (R121, R126). -/
theorem groupLoop_pairs {b n : Nat} (hn : n ≤ 21) :
    ∃ pairs, (groupLoop n b n).1.length = 2 * pairs ∧ 13 * pairs + (groupLoop n b n).2.2 ≤ n := by
  have hg := gsel_cases b
  rw [groupLoop_of_le b n hn]
  split_ifs with h
  · exact ⟨1, rfl, show 13 + (n - gsel b) ≤ n by omega⟩
  · exact ⟨0, rfl, (Nat.zero_add n).le⟩

theorem groupLoop_width_le {b n : Nat} (hn : n ≤ 21) : (groupLoop n b n).2.2 ≤ 13 := by
  have hg := gsel_cases b
  rw [groupLoop_of_le b n hn]
  split_ifs with h
  · change n - gsel b ≤ 13; omega
  · exact Nat.le_of_not_lt h

/-- Two base-91 digits hold 8281 values (R115). -/
theorem digit_pair_le {v : Nat} (hv : v ≤ 8280) : ∀ k ∈ [v % 91, v / 91], k ≤ 90 := by
  rw [List.forall_mem_cons, List.forall_mem_singleton]
  omega

theorem groupLoop_digit_le {b n : Nat} (hn : n ≤ 21) : ∀ k ∈ (groupLoop n b n).1, k ≤ 90 := by
  rw [groupLoop_of_le b n hn]
  split_ifs with h
  · exact digit_pair_le (group_le b)
  · exact List.forall_mem_nil _

/-- The bits left after the loop lie below their count, as the bits before it did. -/
theorem groupLoop_value_lt {b n : Nat} (hn : n ≤ 21) (hb : b < 2 ^ n) :
    (groupLoop n b n).2.1 < 2 ^ (groupLoop n b n).2.2 := by
  have hg := gsel_cases b
  rw [groupLoop_of_le b n hn]
  split_ifs with h
  · refine (Nat.shiftRight_eq_div_pow b (gsel b)).trans_lt (Nat.div_lt_of_lt_mul ?_)
    rwa [← pow_add, Nat.add_sub_cancel' (by omega)]
  · exact hb

/-- PUSH of a byte keeps the value below its count of bits (R111). -/
theorem or_byte_lt {b n : Nat} (c : Byte) (hb : b < 2 ^ n) : b ||| (c.toNat <<< n) < 2 ^ (n + 8) := by
  refine Nat.or_lt_two_pow (hb.trans_le (Nat.pow_le_pow_right (by decide) (Nat.le_add_right n 8))) ?_
  exact Nat.add_comm 8 n ▸ Nat.shiftLeft_lt c.isLt

/-! ## The digits of a frame (R125, R126) -/

theorem tailDigits_length_le (b n : Nat) : (tailDigits b n).length ≤ 2 * ((n + 12) / 13) := by
  unfold tailDigits
  split_ifs with h0 h2
  · exact Nat.zero_le _
  · change 2 ≤ _; omega
  · change 1 ≤ _; omega

theorem tailDigits_digit_le {b n : Nat} (hn : n ≤ 13) (hb : b < 2 ^ n) : ∀ k ∈ tailDigits b n, k ≤ 90 := by
  have hb' : b < 2 ^ 13 := hb.trans_le (Nat.pow_le_pow_right (by decide) hn)
  unfold tailDigits
  split_ifs with h0 h2
  · exact List.forall_mem_nil _
  · exact digit_pair_le (by omega)
  · exact List.forall_mem_singleton.2 (by omega)

/-- The bound of R126 with `n` bits already held: every pair of digits but the last takes at least 13 bits. -/
theorem encodeFrom_length_le (x : List Byte) {b n : Nat} (hn : n ≤ 13) :
    (encodeFrom x b n).length ≤ 2 * ((8 * x.length + n + 12) / 13) := by
  induction x generalizing b n with
  | nil => simpa [encodeFrom] using tailDigits_length_le b n
  | cons c rest ih =>
    have hn' : n + 8 ≤ 21 := by omega
    obtain ⟨pairs, hlen, hbits⟩ := groupLoop_pairs (b := b ||| (c.toNat <<< n)) hn'
    rw [encodeFrom_cons, List.length_append, List.length_cons, hlen]
    refine (Nat.add_le_add_left (ih (groupLoop_width_le hn')) _).trans ?_
    omega

theorem encodeFrom_digit_le (x : List Byte) {b n : Nat} (hn : n ≤ 13) (hb : b < 2 ^ n) :
    ∀ k ∈ encodeFrom x b n, k ≤ 90 := by
  induction x generalizing b n with
  | nil => exact tailDigits_digit_le hn hb
  | cons c rest ih =>
    have hn' : n + 8 ≤ 21 := by omega
    rw [encodeFrom_cons, List.forall_mem_append]
    exact ⟨groupLoop_digit_le hn', ih (groupLoop_width_le hn') (groupLoop_value_lt hn' (or_byte_lt c hb))⟩

/-- Every digit has a symbol in B91_ENC_ROM (R31, R118). -/
theorem romSymbols_length (c : Config) {digits : List Nat} (h : ∀ k ∈ digits, k ≤ 90) :
    (romSymbols c.toParams digits).length = digits.length := by
  refine List.length_filterMap_eq_countP.trans (List.countP_eq_length.2 fun k hk => ?_)
  obtain ⟨b, hb⟩ := c.rom_entry (h k hk)
  rw [hb, Option.isSome_some]

/-- Settles O38: `encodeFrom` from the empty accumulator, whose digits B91_ENC_ROM all maps to a symbol. -/
theorem base91EncodeLength : Obligations.Base91EncodeLength := by
  intro x
  have hlen : (base91EncodeIdx x).length ≤ 2 * ((8 * x.length + 0 + 12) / 13) :=
    encodeFrom_length_le x (Nat.zero_le 13)
  have hdigit : ∀ k ∈ base91EncodeIdx x, k ≤ 90 := encodeFrom_digit_le x (Nat.zero_le 13) (by decide)
  exact ⟨hlen, by omega, hdigit, fun c => romSymbols_length c hdigit⟩

/-! ## BE_CONSUME, BE_GROUP and BE_TAIL (R120 to R122) -/

/-- Settles O14: the two cases of `beConsume_eq_next`, where the state after the read is `s` but for its
count of draws. -/
theorem base91ConsumeStep : Obligations.Base91ConsumeStep := by
  intro s hq
  rw [coreStep_beConsume hq]
  refine ⟨fun hi hin b u hb => ?_, fun hi => beConsume_eq_next.2 (.inr ⟨hi, rfl⟩)⟩
  obtain ⟨b', d, hread, -⟩ := byteOr_cases (s.inBuf.read s.i.toNat) s
  obtain ⟨rfl, rfl⟩ := Prod.mk.inj (hb.symm.trans hread)
  exact beConsume_eq_next.2 (.inl ⟨hi, hin, b, d, hread, rfl⟩)

/-- The value and the width of the group that GSEL chooses, with the masks of R121. -/
theorem group_eq_masks (b : Nat) :
    (lowBits (gsel b) b, gsel b) = if (b &&& 8191) > 88 then (b &&& 8191, 13) else (b &&& 16383, 14) := by
  unfold gsel
  by_cases h : lowBits 13 b > 88
  · rw [if_pos h]; exact (if_pos h).symm
  · rw [if_neg h]; exact (if_neg h).symm

/-- Settles O15: the two cases of `beGroup_eq_next`, where the group is the one of R121's masks. -/
theorem base91GroupStep : Obligations.Base91GroupStep := by
  intro s hq
  rw [coreStep_beGroup hq]
  refine ⟨fun hn hout v w x y hvw hx hy => ?_, fun hn => beGroup_eq_next.2 (.inr ⟨hn, rfl⟩)⟩
  obtain ⟨rfl, rfl⟩ := Prod.mk.inj (hvw.trans (group_eq_masks s.accB.toNat).symm)
  exact beGroup_eq_next.2 (.inl ⟨hn, hout, x, y, hx, hy, rfl⟩)

/-- Settles O16: the three cases of `beTail_eq_next`, where more than 7 bits are in particular some. -/
theorem base91TailStep : Obligations.Base91TailStep := by
  intro s hq
  rw [coreStep_beTail hq]
  refine ⟨fun h0 => ?_, fun h0 hn hB hout x hx => ?_, fun h2 hout hout' x y hx hy => ?_⟩
  · exact beTail_eq_next.2 (.inl ⟨h0, rfl⟩)
  · exact beTail_eq_next.2 (.inr ⟨h0, hout, x, hx, .inl ⟨by omega, rfl⟩⟩)
  · have h0 : s.accN ≠ 0 := h2.elim (fun hn hz => by simp [hz] at hn) And.left
    have ho : s.o + 1 + 1 = s.o + 2 := BitVec.add_assoc s.o 1 1
    refine beTail_eq_next.2 (.inr ⟨h0, hout, x, hx, .inr ⟨h2.imp_right And.right, hout', y, hy, ?_⟩⟩)
    rw [ho]; rfl

end Sys2Proof.Machine
end

section
/-! PROOFS. The base91 decoder: the round trip of `base91Decode` and `base91Encode` (R134), the tolerance law and
the output length bound of `base91Decode` (R133, R135), and the steps BD_SYMBOL, BD_FLUSH and BD_TAIL (R128 to
R130). -/

namespace Sys2Proof.Machine

/-! ## The bytes of a number -/

theorem bytesOf_length (x k : Nat) : (bytesOf x k).length = k := by
  induction k generalizing x with
  | zero => rfl
  | succ k ih => rw [bytesOf, List.length_cons, ih]

/-- The `j` low bytes of `x + y * 256 ^ j` are those of `x`; above them `y` stands on what is left of `x`. -/
theorem bytesOf_add_mul_pow (x y j k : Nat) :
    bytesOf (x + y * 256 ^ j) (j + k) = bytesOf x j ++ bytesOf (x / 256 ^ j + y) k := by
  induction j generalizing x with
  | zero => simp [bytesOf]
  | succ j ih =>
    have hpow : y * 256 ^ (j + 1) = 256 * (y * 256 ^ j) := by ring
    have hbyte : BitVec.ofNat 8 (x + 256 * (y * 256 ^ j)) = BitVec.ofNat 8 x := by
      rw [← BitVec.toNat_inj]; simp
    have hrest : (x + 256 * (y * 256 ^ j)) / 256 = x / 256 + y * 256 ^ j :=
      Nat.add_mul_div_left _ _ (by decide)
    rw [hpow, Nat.add_right_comm j 1 k, bytesOf, hbyte, hrest, ih, bytesOf, List.cons_append,
      Nat.div_div_eq_div_mul, pow_succ']

/-- A byte put above `k` whole bytes is the last one. -/
theorem bytesOf_add_byte {x k : Nat} (c : Byte) (hx : x < 256 ^ k) :
    bytesOf (x + c.toNat * 256 ^ k) (k + 1) = bytesOf x k ++ [c] := by
  rw [bytesOf_add_mul_pow, Nat.div_eq_of_lt hx, Nat.zero_add, bytesOf, bytesOf, BitVec.ofNat_toNat,
    BitVec.setWidth_eq]

/-! ## The symbol of a digit (R118, R127) -/

/-- The B91_DEC_ROM entry of the symbol of value `k` is VALID, and its VALUE is `k`, which 7 bits hold. -/
theorem decRom_symbol (c : Config) {k : Nat} {symbol : Byte} (h : c.alphabet[k]? = some symbol) :
    entryValid (decRom c.toParams symbol) = true ∧ entryValue (decRom c.toParams symbol) = BitVec.ofNat 7 k ∧
      (entryValue (decRom c.toParams symbol)).toNat = k := by
  have entry : ∀ v : BitVec 7, entryValid ((1 : BitVec 1) ++ v) = true ∧ entryValue ((1 : BitVec 1) ++ v) = v := by
    decide
  obtain ⟨hrom, hk⟩ := (decodeRomInvertsAlphabet c symbol).1 k h
  obtain ⟨hvalid, hvalue⟩ := entry (BitVec.ofNat 7 k)
  rw [hrom]
  exact ⟨hvalid, hvalue, by rw [hvalue, BitVec.toNat_ofNat, Nat.mod_eq_of_lt (by omega)]⟩

/-- Every digit has a symbol, from which B91_DEC_ROM gives the digit back. -/
theorem exists_symbol_of_digit (c : Config) {k : Nat} (hk : k ≤ 90) :
    ∃ symbol, c.alphabet[k]? = some symbol ∧ entryValid (decRom c.toParams symbol) = true ∧
      (entryValue (decRom c.toParams symbol)).toNat = k := by
  obtain ⟨symbol, hs⟩ := c.rom_entry hk
  obtain ⟨hvalid, -, hdigit⟩ := decRom_symbol c hs
  exact ⟨symbol, hs, hvalid, hdigit⟩

/-! ## The bits between the encoder and the decoder -/

/-- The encoder has still to send the `n` bits of `b`, and the decoder holds the `m` bits of `B`, too few for a
byte; these two are the rest of a frame and so whole bytes. -/
structure InFlight (b n B m : Nat) : Prop where
  unsent : b < 2 ^ n
  held : B < 2 ^ m
  few : m ≤ 7
  whole : 8 ∣ m + n

/-- The bytes that the bits between the encoder and the decoder make up, the decoder's bits the lowest. -/
def bytesInFlight (b n B m : Nat) : List Byte := bytesOf (B + b * 2 ^ m) ((m + n) / 8)

theorem two_pow_eq_bits_mul_bytes (k : Nat) : 2 ^ k = 2 ^ (k % 8) * 256 ^ (k / 8) := by
  rw [show 256 = 2 ^ 8 by rfl, ← pow_mul, ← pow_add, Nat.mod_add_div]

/-- The held bits and the unsent ones above them need no more than their two widths. -/
theorem add_mul_two_pow_lt {b n B m : Nat} (hb : b < 2 ^ n) (hB : B < 2 ^ m) : B + b * 2 ^ m < 2 ^ (m + n) :=
  calc B + b * 2 ^ m < (b + 1) * 2 ^ m := by rw [Nat.succ_mul]; omega
    _ ≤ 2 ^ n * 2 ^ m := Nat.mul_le_mul_right _ hb
    _ = 2 ^ (m + n) := by rw [← pow_add, Nat.add_comm]

/-- The encoder's next byte joins the bits in flight, as their last byte (R120). -/
theorem InFlight.push {b n B m : Nat} (h : InFlight b n B m) (c : Byte) :
    InFlight (b ||| (c.toNat <<< n)) (n + 8) B m ∧
      bytesInFlight (b ||| (c.toNat <<< n)) (n + 8) B m = bytesInFlight b n B m ++ [c] := by
  obtain ⟨hb, hB, hm, hwhole⟩ := h
  refine ⟨⟨or_byte_lt c hb, hB, hm, by omega⟩, ?_⟩
  have hpow : 2 ^ n * 2 ^ m = 256 ^ ((m + n) / 8) := by
    rw [← pow_add, Nat.add_comm, two_pow_eq_bits_mul_bytes, Nat.mod_eq_zero_of_dvd hwhole, pow_zero, Nat.one_mul]
  have hlt : B + b * 2 ^ m < 256 ^ ((m + n) / 8) := by
    rw [← hpow, ← pow_add, Nat.add_comm n]; exact add_mul_two_pow_lt hb hB
  have hbits : B + (b + c.toNat * 2 ^ n) * 2 ^ m = B + b * 2 ^ m + c.toNat * 256 ^ ((m + n) / 8) := by
    rw [← hpow]; ring
  have hcount : (m + (n + 8)) / 8 = (m + n) / 8 + 1 := by omega
  rw [bytesInFlight, or_shiftLeft_eq_add _ hb, hbits, hcount, bytesOf_add_byte c hlt, bytesInFlight]

/-- The `w` low bits of the unsent ones are sent: the decoder has then whole bytes, which it emits, and some bits
that stay in flight. -/
theorem InFlight.send {b n B m w : Nat} (h : InFlight b n B m) (hw : w ≤ n) :
    InFlight (b >>> w) (n - w) ((B + lowBits w b * 2 ^ m) / 256 ^ ((m + w) / 8)) ((m + w) % 8) ∧
      bytesInFlight b n B m =
        bytesOf (B + lowBits w b * 2 ^ m) ((m + w) / 8) ++
          bytesInFlight (b >>> w) (n - w) ((B + lowBits w b * 2 ^ m) / 256 ^ ((m + w) / 8)) ((m + w) % 8) := by
  obtain ⟨hb, hB, hm, hwhole⟩ := h
  rw [lowBits_eq_mod, Nat.shiftRight_eq_div_pow]
  refine ⟨⟨?_, ?_, by omega, by omega⟩, ?_⟩
  · refine Nat.div_lt_of_lt_mul ?_
    rwa [← pow_add, Nat.add_sub_cancel' hw]
  · refine Nat.div_lt_of_lt_mul ?_
    rw [Nat.mul_comm (256 ^ _), ← two_pow_eq_bits_mul_bytes]
    exact add_mul_two_pow_lt (Nat.mod_lt _ (Nat.two_pow_pos w)) hB
  · have hbits : B + b * 2 ^ m =
        B + b % 2 ^ w * 2 ^ m + b / 2 ^ w * 2 ^ ((m + w) % 8) * 256 ^ ((m + w) / 8) := by
      rw [Nat.mul_assoc, ← two_pow_eq_bits_mul_bytes]
      conv_lhs => rw [← Nat.mod_add_div b (2 ^ w)]
      ring
    have hcount : (m + n) / 8 = (m + w) / 8 + ((m + w) % 8 + (n - w)) / 8 := by omega
    rw [bytesInFlight, hbits, hcount, bytesOf_add_mul_pow, bytesInFlight]

/-! ## The decoder on the encoder's symbols (R134) -/

/-- The decoder puts a group value above the `m` bits it holds, and emits the whole bytes (R132). -/
theorem decodeFrom_group (c : Config) {v b m : Nat} (hv : v ≤ 8280) (hb : b < 2 ^ m) (rest : List Byte) :
    decodeFrom c.toParams (romSymbols c.toParams [v % 91, v / 91] ++ rest) b m none =
      bytesOf (b + v * 2 ^ m) ((m + gsel v) / 8) ++
        decodeFrom c.toParams rest ((b + v * 2 ^ m) / 256 ^ ((m + gsel v) / 8)) ((m + gsel v) % 8) none := by
  obtain ⟨x, hx, hxv, hxd⟩ := exists_symbol_of_digit c (k := v % 91) (by omega)
  obtain ⟨y, hy, hyv, hyd⟩ := exists_symbol_of_digit c (k := v / 91) (by omega)
  have hpair : v = v % 91 + 91 * (entryValue (decRom c.toParams y)).toNat := by rw [hyd, Nat.mod_add_div]
  rw [romSymbols_two hx hy, List.cons_append, List.singleton_append, decodeFrom_first hxv, hxd,
    decodeFrom_second hyv _ _ _ _ _ hpair, flushLoop_eq _ _ _ le_rfl, or_shiftLeft_eq_add v hb]

/-- A final unpaired symbol is decoded to one byte (R130, R132). -/
theorem decodeFrom_unpaired (c : Config) {d b m : Nat} (hd : d ≤ 90) (hb : b < 2 ^ m) :
    decodeFrom c.toParams (romSymbols c.toParams [d]) b m none = bytesOf (b + d * 2 ^ m) 1 := by
  obtain ⟨x, hx, hxv, hxd⟩ := exists_symbol_of_digit c hd
  have hbyte : BitVec.ofNat 8 ((b + d * 2 ^ m) &&& 255) = BitVec.ofNat 8 (b + d * 2 ^ m) := by
    rw [← BitVec.toNat_inj, BitVec.toNat_ofNat, BitVec.toNat_ofNat, Nat.and_two_pow_sub_one_eq_mod _ 8,
      Nat.mod_mod]
  rw [romSymbols_one hx, decodeFrom_first hxv, hxd, decodeFrom, or_shiftLeft_eq_add d hb, hbyte, bytesOf, bytesOf]

/-- The symbols of the encoder's loop are decoded to whole bytes; the bits in flight after it are those that are
left (R121, R132). -/
theorem InFlight.decode_groupLoop (c : Config) {b n B m : Nat} (h : InFlight b n B m) (hn : n ≤ 21) :
    ∃ out B' m', InFlight (groupLoop n b n).2.1 (groupLoop n b n).2.2 B' m' ∧
      bytesInFlight b n B m = out ++ bytesInFlight (groupLoop n b n).2.1 (groupLoop n b n).2.2 B' m' ∧
      ∀ rest, decodeFrom c.toParams (romSymbols c.toParams (groupLoop n b n).1 ++ rest) B m none =
        out ++ decodeFrom c.toParams rest B' m' none := by
  rw [groupLoop_of_le b n hn]
  split_ifs with hgroup
  · have hw : gsel b ≤ n := by obtain hg | hg := gsel_cases b <;> omega
    obtain ⟨hsend, hbytes⟩ := h.send hw
    refine ⟨_, _, _, hsend, hbytes, fun rest => ?_⟩
    rw [decodeFrom_group c (group_le b) h.held, gsel_group]
  · exact ⟨[], B, m, h, rfl, fun rest => rfl⟩

/-- Two tail symbols give the decoder a group, whose width is that of the bits left or more; the zero bits that
fill it up are too few for another byte. -/
theorem gsel_tail_bytes {b n m : Nat} (hn : n ≤ 13) (hb : b < 2 ^ n) (hwhole : 8 ∣ m + n)
    (htwo : n > 7 ∨ b > 90) : (m + gsel b) / 8 = (m + n) / 8 := by
  have hb13 : b < 2 ^ 13 := hb.trans_le (Nat.pow_le_pow_right (by decide) hn)
  have h6 : 6 < n := by
    by_contra hlow
    have hb6 : b < 2 ^ 6 := hb.trans_le (Nat.pow_le_pow_right (by decide) (by omega))
    omega
  have hg := gsel_eq_fourteen_iff b
  obtain hw | hw := gsel_cases b <;> omega

/-- The tail's symbols are decoded to the bytes still in flight (R122, R132). -/
theorem InFlight.decode_tailDigits (c : Config) {b n B m : Nat} (h : InFlight b n B m) (hn : n ≤ 13) :
    decodeFrom c.toParams (romSymbols c.toParams (tailDigits b n)) B m none = bytesInFlight b n B m := by
  obtain ⟨hb, hB, hm, hwhole⟩ := h
  have hb13 : b < 2 ^ 13 := hb.trans_le (Nat.pow_le_pow_right (by decide) hn)
  rw [bytesInFlight]
  unfold tailDigits
  split_ifs with h0 htwo
  · have hnone : (m + n) / 8 = 0 := by omega
    rw [hnone]
    rfl
  · have hgroup := decodeFrom_group c (v := b) (by omega) hB []
    rw [List.append_nil, decodeFrom, List.append_nil, gsel_tail_bytes hn hb hwhole htwo] at hgroup
    exact hgroup
  · have hone : (m + n) / 8 = 1 := by omega
    rw [Nat.mod_eq_of_lt (by omega), decodeFrom_unpaired c (by omega) hB, hone]

/-- The encoder on the rest `x` of a frame and the decoder, each in the middle of its work: the decoder emits the
bytes in flight and then `x`. -/
theorem InFlight.decode_encodeFrom (c : Config) (x : List Byte) {b n B m : Nat} (h : InFlight b n B m)
    (hn : n ≤ 13) :
    decodeFrom c.toParams (romSymbols c.toParams (encodeFrom x b n)) B m none = bytesInFlight b n B m ++ x := by
  induction x generalizing b n B m with
  | nil => rw [encodeFrom, h.decode_tailDigits c hn, List.append_nil]
  | cons a rest ih =>
    have hn' : n + 8 ≤ 21 := by omega
    obtain ⟨hpush, hbyte⟩ := h.push a
    obtain ⟨out, B', m', hleft, hbytes, hdecode⟩ := hpush.decode_groupLoop c hn'
    rw [encodeFrom_cons, romSymbols_append, hdecode, ih hleft (groupLoop_width_le hn'), ← List.append_assoc,
      ← hbytes, hbyte, List.append_assoc, List.singleton_append]

/-- Settles O40: at the start of a frame no bit is in flight. -/
theorem base91RoundTrip : Obligations.Base91RoundTrip := fun c x =>
  InFlight.decode_encodeFrom c x ⟨Nat.one_pos, Nat.one_pos, Nat.zero_le 7, Nat.dvd_zero 8⟩
    (Nat.zero_le 13)

/-! ## Unknown symbols, and the length of the output (R133, R135) -/

theorem stripUnknown_unknown {p : Params} {a : Byte} (h : entryValid (decRom p a) = false) (rest : List Byte) :
    stripUnknown p (a :: rest) = stripUnknown p rest :=
  List.filter_cons_of_neg (by simp [h])

theorem stripUnknown_known {p : Params} {a : Byte} (h : entryValid (decRom p a) = true) (rest : List Byte) :
    stripUnknown p (a :: rest) = a :: stripUnknown p rest :=
  List.filter_cons_of_pos h

/-- The decoder skips the symbols that `stripUnknown` removes, and takes those that it keeps. -/
theorem decodeFrom_stripUnknown (p : Params) (x : List Byte) (b n : Nat) (pending : Option Nat) :
    decodeFrom p (stripUnknown p x) b n pending = decodeFrom p x b n pending := by
  induction x generalizing b n pending with
  | nil => rfl
  | cons a rest ih =>
    cases hv : entryValid (decRom p a) with
    | false => rw [stripUnknown_unknown hv, ih, decodeFrom_unknown hv]
    | true =>
      rw [stripUnknown_known hv]
      cases pending with
      | none => rw [decodeFrom_first hv, ih, decodeFrom_first hv]
      | some u => rw [decodeFrom_second hv _ _ _ _ _ rfl, ih, decodeFrom_second hv _ _ _ _ _ rfl]

/-- Settles O39: `decodeFrom_stripUnknown` from the empty accumulator on. -/
theorem base91DecodeIgnoresUnknown : Obligations.Base91DecodeIgnoresUnknown := fun p x =>
  (decodeFrom_stripUnknown p x 0 0 none).symm

/-- A pair of symbols adds at most 14 bits to at most 7, and so two bytes; a symbol that stays unpaired gives one
byte. A pending symbol is one of the input, already read. -/
theorem decodeFrom_length_le (p : Params) (x : List Byte) {b n : Nat} (pending : Option Nat) (hn : n ≤ 7) :
    (decodeFrom p x b n pending).length ≤ (stripUnknown p x).length + pending.toList.length := by
  induction x generalizing b n pending with
  | nil => cases pending <;> exact Nat.le_refl _
  | cons a rest ih =>
    cases hv : entryValid (decRom p a) with
    | false => rw [stripUnknown_unknown hv, decodeFrom_unknown hv]; exact ih pending hn
    | true =>
      rw [stripUnknown_known hv, List.length_cons]
      cases pending with
      | none => rw [decodeFrom_first hv]; exact ih _ hn
      | some u =>
        have hg := gsel_cases (u + 91 * (entryValue (decRom p a)).toNat)
        rw [decodeFrom_second hv _ _ _ _ _ rfl, flushLoop_eq _ _ _ le_rfl, List.length_append, bytesOf_length]
        have hleft : ∀ m, m % 8 ≤ 7 := fun m => by omega
        refine (Nat.add_le_add_left (ih none (hleft _)) _).trans ?_
        rw [Option.toList_none, List.length_nil, Option.toList_some, List.length_singleton]
        omega

/-- Settles O41: at the start of a frame no symbol is pending. -/
theorem base91DecodeLength : Obligations.Base91DecodeLength := fun p x =>
  decodeFrom_length_le p x none (Nat.zero_le 7)

/-! ## BD_SYMBOL, BD_FLUSH and BD_TAIL (R128 to R130) -/

theorem takeSymbol_unknown {entry : Byte} (h : entryValid entry = false) (s : State) : takeSymbol entry s = s :=
  if_neg (by simp [h])

theorem takeSymbol_first {entry : Byte} {s : State} (h : entryValid entry = true) (hp : s.pvValid = false) :
    takeSymbol entry s = { s with pv := entryValue entry, pvValid := true } :=
  (if_pos h).trans (if_neg (by simp [hp]))

theorem takeSymbol_second {entry : Byte} {s : State} (h : entryValid entry = true) (hp : s.pvValid = true) {v : Nat}
    (hv : v = s.pv.toNat + 91 * (entryValue entry).toNat) :
    takeSymbol entry s = { push v (gsel v) s with pv := 0, pvValid := false, seq := .bdFlush } := by
  subst hv
  exact (if_pos h).trans (if_pos hp)

/-- Settles O17: the two cases of `bdSymbol_eq_next`, the first of them in the three cases of `takeSymbol`, where
the state after the read is `s` but for its count of draws. -/
theorem base91SymbolStep : Obligations.Base91SymbolStep := by
  intro s hq
  rw [coreStep_bdSymbol hq]
  refine ⟨fun hi hin b u hb => ?_, fun hi => bdSymbol_eq_next.2 (.inr ⟨hi, rfl⟩)⟩
  obtain ⟨b', d, hread, -⟩ := byteOr_cases (s.inBuf.read s.i.toNat) s
  obtain ⟨rfl, rfl⟩ := Prod.mk.inj (hb.symm.trans hread)
  rw [bdSymbol_eq_next.2 (.inl ⟨hi, hin, b, d, hread, rfl⟩)]
  refine ⟨fun hunknown => ?_, fun k hk => ?_⟩
  · rw [decRom_of_not_mem hunknown, takeSymbol_unknown rfl]
  · obtain ⟨hvalid, hvalue, hdigit⟩ := decRom_symbol s.cfg hk
    refine ⟨fun hp => congrArg _ ?_, fun hp v w hv hw => congrArg _ ?_⟩
    · rw [← hvalue]
      exact takeSymbol_first hvalid hp
    · obtain rfl : w = gsel v := hw
      rw [← hdigit] at hv
      exact takeSymbol_second (s := { s with draws := d, i := s.i + 1 }) hvalid hp hv

/-- Settles O18: the two cases of `bdFlush_eq_next`, where the low 8 bits are the mask 255. -/
theorem base91FlushStep : Obligations.Base91FlushStep := by
  intro s hq
  rw [coreStep_bdFlush hq]
  exact ⟨fun hn hout => bdFlush_eq_next.2 (.inl ⟨hn, hout, rfl⟩), fun hn => bdFlush_eq_next.2 (.inr ⟨hn, rfl⟩)⟩

/-- Settles O19: the two cases of `bdTail_eq_next`, with the finish of R81 written out. -/
theorem base91PendingStep : Obligations.Base91PendingStep := by
  intro s hq
  rw [coreStep_bdTail hq]
  exact ⟨fun hp hout => bdTail_eq_next.2 (.inl ⟨hp, hout, rfl⟩), fun hp => bdTail_eq_next.2 (.inr ⟨hp, rfl⟩)⟩

end Sys2Proof.Machine
end

section
/-! PROOFS. No step faults (R136, R144), and a CORE step sees the CORE's side alone (R145). -/

namespace Sys2Proof.Machine

/-! ## Every move of the host and every step of the CORE has a next state -/

theorem writeCmd_answers (w : Word) (s : State) : ∃ t, writeCmd w s = .next t := by
  cases hw : decode w with
  | legal i => exact ⟨_, (writeCmd_of_legal hw s).trans (exec_eq_startCommand i s)⟩
  | illegal why => exact ⟨startIllegal w s, by rw [writeCmd, hw]⟩

theorem writeRegister_answers (index : Nat) (v : Word) (s : State) : ∃ t, writeRegister index v s = .next t :=
  match index with
  | 0 => writeCmd_answers v s
  | 1 | 2 | 3 | _ + 4 => ⟨_, rfl⟩

theorem transact_answers (x : Transaction) (s : State) : ∃ t, transact x s = .next t := by
  unfold transact hostWrite
  split_ifs
  · exact ⟨_, rfl⟩
  · cases x.sp with
    | reg => exact writeRegister_answers _ _ s
    | inBuf | outBuf | reserved => exact ⟨_, rfl⟩
  · exact ⟨_, rfl⟩

/-- The host's moves check nothing that could stop the machine: a violation is recorded (R146). -/
theorem hostMove_answers (s : State) : ∃ t, hostMove s = .next t := by
  match hh : s.host with
  | [] => exact ⟨s, by rw [hostMove, hh]⟩
  | .tx x :: _ => exact hostMove_tx hh ▸ transact_answers x _
  | .reset :: _ => exact ⟨_, hostMove_reset hh⟩
  | .poll :: _ => exact ⟨_, hostMove_poll hh⟩
  | .readout :: _ => exact ⟨_, hostMove_readout hh⟩

/-- The index and accumulator bounds of the invariant keep every access of a CORE step in range (R136, R144). -/
theorem coreStep_answers {s : State} (hs : s.Inv) : ∃ t, coreStep s = .next t := by
  by_cases hq : s.seq = .idle
  · exact ⟨s, coreStep_idle hq⟩
  · obtain ⟨t, ht, -⟩ := coreStep_advances hs hq
    exact ⟨t, ht⟩

/-- Settles O49: the mover is the CORE, whose step answers under the invariant, or the host, whose move
always does. -/
theorem noStepFaults : Obligations.NoStepFaults := by
  intro s hs
  cases hm : s.mover with
  | core => exact step_of_core hm ▸ coreStep_answers (inv_of_coreSide_eq (s := s) rfl hs)
  | host => exact step_of_host hm ▸ hostMove_answers s.nextTurn

/-! ## The CORE's step beside another host -/

/-- Settles O55: `t` is the CORE's side of `s` beside `t`'s own host, so it steps as `s` does. -/
theorem coreStepDependsOnCoreSideOnly : Obligations.CoreStepDependsOnCoreSideOnly := by
  intro s t s' hs hside hw hc
  have ht : coreStep (s.besideHostOf t) = .next (s'.besideHostOf t) := coreStep_besideHostOf t hs hw hc
  rw [besideHostOf_eq_of_coreSide hside.symm] at ht
  exact ⟨s'.besideHostOf t, ht, rfl⟩

end Sys2Proof.Machine
end

section
/-! PROOFS. The invariant in the reset state of every configuration (R158, R162). -/

namespace Sys2Proof.Machine

/-- The reset input has nothing left to clear in the reset state (R158). -/
theorem resetInput_resetWith (c : Config) : resetInput (State.resetWith c) = State.resetWith c := rfl

theorem inv_resetWith (c : Config) : (State.resetWith c).Inv := by
  rw [← resetInput_resetWith c]
  exact inv_resetInput _

/-- Settles O47: a state that the reset input leaves satisfies the invariant, and `State.reset` is
`State.resetWith` at the standard configuration. -/
theorem invariantAtReset : Obligations.InvariantAtReset :=
  ⟨inv_resetWith, inv_resetWith standardConfig⟩

end Sys2Proof.Machine
end
